-- ==== Sys2Proof/Word.lean ====
section
/-! DEFINITION. The word types of the box_blur engine (00_scope.md R10, 30_encoding.md R80). -/

namespace Sys2Proof

/-- One byte of buffer memory or one channel of a pixel (20_memory.md R50). -/
abbrev Byte := BitVec 8

/-- The number that the one legal value of `ADDR_BITS` stands for (00_scope.md R8, 92 D3): the width of a byte
address and of the descriptor words. Types take it from here; a rule takes it from the parameter
`Config.Params.addrBits`, which has no other value. -/
abbrev Config.addrBits : Nat := 32

/-- One word: a descriptor word, a descriptor register, the status word. -/
abbrev Word := BitVec Config.addrBits

/-- A whole descriptor, six words, word k at bits 32k+31 to 32k (30_encoding.md R80). -/
abbrev Descriptor := BitVec (6 * Config.addrBits)

end Sys2Proof
end

