-- ==== Sys2Proof/Config.lean ====
section
/-! DEFINITION. What an implementation of the engine fixes: the constants of 00_scope.md R7, the
parameters of R8, and the free values (70_reset_and_hazards.md R251). -/

namespace Sys2Proof.Config

/-! The constants of 00_scope.md R7. -/

def channels : Nat := 4
/-- Pixels written by one vector box-blur call. -/
def pBlur : Nat := 2
/-- Pixels written by one vector grayscale call. -/
def pGray : Nat := 4
def lumaB : Nat := 9
def lumaG : Nat := 92
def lumaR : Nat := 27
def lumaA : Nat := 0
def lumaShift : Nat := 7
def sharpCenter : Nat := 5
def blurDiv : Nat := 9

/-- `RECIP9`, the 16-bit reciprocal of 9: its two legal values (R8, 92 D4). -/
inductive Reciprocal where
  | r7281
  | r7282
deriving DecidableEq, Repr

def Reciprocal.value : Reciprocal → Nat
  | .r7281 => 7281
  | .r7282 => 7282

/-- `P_SHARP`, pixels of one vector sharpen call: its three legal values (R8, 92 D5). -/
inductive SharpGroup where
  | one
  | two
  | four
deriving DecidableEq, Repr

def SharpGroup.pixels : SharpGroup → Nat
  | .one => 1
  | .two => 2
  | .four => 4

/-- `GRAY_ALPHA`, what VGRAY writes to the alpha byte (R8, 92 D6). -/
inductive GrayAlpha where
  | preserve
  | force255
deriving DecidableEq, Repr

/-- `ADDR_BITS`, the width of a byte address and of the descriptor words: its one legal value (R8, 92 D3). -/
inductive AddressWidth where
  | b32
deriving DecidableEq, Repr

def AddressWidth.bits : AddressWidth → Nat
  | .b32 => addrBits

/-- `VLEN`, the width of a vector of lanes: its one legal value (R8, 92 D7). -/
inductive VectorWidth where
  | v128
deriving DecidableEq, Repr

def VectorWidth.bits : VectorWidth → Nat
  | .v128 => 128

/-- Lanes of 8 bits in a vector, which is its size in bytes (43_vector_kernels.md R180). -/
def VectorWidth.lanes8 (v : VectorWidth) : Nat := v.bits / 8

/-- Lanes of 16 bits in a vector (R180). -/
def VectorWidth.lanes16 (v : VectorWidth) : Nat := v.bits / 16

/-- Lanes of 32 bits in a vector (R180). -/
def VectorWidth.lanes32 (v : VectorWidth) : Nat := v.bits / 32

/-- The parameters of R8, all six. Every value of this type is legal: `MEM_BYTES` is held as its highest
address, so that 1 ≤ MEM_BYTES ≤ 2^32 needs no check. -/
structure Params where
  memTop    : Word
  addrBits  : AddressWidth
  recip9    : Reciprocal
  pSharp    : SharpGroup
  grayAlpha : GrayAlpha
  vlen      : VectorWidth
deriving DecidableEq, Repr

/-- `MEM_BYTES`. -/
def Params.memBytes (p : Params) : Nat := p.memTop.toNat + 1

/-- The parameters of `State.reset`. All but `MEM_BYTES` have the defaults of R8 (log 2). DESIGN CHOICE (log 1), unsafe: `MEM_BYTES` has no default; 4096 is the size that
95_test_vectors.md uses. -/
def Params.default : Params :=
  { memTop := 4095, addrBits := .b32, recip9 := .r7281, pSharp := .one, grayAlpha := .preserve, vlen := .v128 }

/-- Free value (log 4): the byte at an address of the destination region of the command that the
`k`-th RESET while BUSY abandons (70_reset_and_hazards.md R251). Nothing constrains it. -/
opaque freeByte : Nat → Nat → Byte

end Sys2Proof.Config
end

