-- ==== Sys2Proof/Syntax.lean ====
section
/-! DEFINITION. The nine commands (30_encoding.md R84), with the operands that R87 gives them. -/

namespace Sys2Proof

/-- The operands of a command as 30_encoding.md R83 and R87 read them from words 1 to 5: mathematical
integers, width and height signed, the rest unsigned. -/
structure Operands where
  w   : Int
  h   : Int
  src : Nat
  len : Nat
  dst : Nat
deriving DecidableEq, Repr

/-- One constructor per row of the opcode table; `tail` is bit 8 of `CTL` (R82), which only the vector
commands have. HALO carries the words it ignores (R85), so that no bit of a descriptor is lost. -/
inductive Instr where
  | pad    (o : Operands)
  | halo   (o : Operands)
  | strip  (o : Operands)
  | sblur  (o : Operands)
  | sgray  (o : Operands)
  | ssharp (o : Operands)
  | vblur  (tail : Bool) (o : Operands)
  | vgray  (tail : Bool) (o : Operands)
  | vsharp (tail : Bool) (o : Operands)
deriving DecidableEq, Repr

def Instr.operands : Instr → Operands
  | .pad o => o
  | .halo o => o
  | .strip o => o
  | .sblur o => o
  | .sgray o => o
  | .ssharp o => o
  | .vblur _ o => o
  | .vgray _ o => o
  | .vsharp _ o => o

/-- `TAIL` of a command: 0 for every command that is not a vector pass (R82). -/
def Instr.tail : Instr → Bool
  | .pad _ => false
  | .halo _ => false
  | .strip _ => false
  | .sblur _ => false
  | .sgray _ => false
  | .ssharp _ => false
  | .vblur t _ => t
  | .vgray t _ => t
  | .vsharp t _ => t

def Instr.mnemonic : Instr → String
  | .pad _ => "PAD"
  | .halo _ => "HALO"
  | .strip _ => "STRIP"
  | .sblur _ => "SBLUR"
  | .sgray _ => "SGRAY"
  | .ssharp _ => "SSHARP"
  | .vblur _ _ => "VBLUR"
  | .vgray _ _ => "VGRAY"
  | .vsharp _ _ => "VSHARP"

/-- A command in the textual form of 30_encoding.md R89 (decimal integers; HALO without src and len). -/
def Instr.render (i : Instr) : String :=
  let o := i.operands
  let srcLen := match i with
    | .halo _ => ""
    | _ => ", src=" ++ toString o.src ++ ", len=" ++ toString o.len
  i.mnemonic ++ (if i.tail then ".T" else "") ++ "  w=" ++ toString o.w ++ ", h=" ++ toString o.h
    ++ srcLen ++ ", dst=" ++ toString o.dst

end Sys2Proof
end

