-- ==== Sys2Proof/Machine/State.lean ====
section
/-! DEFINITION. The state of the engine (10_state.md R23), the model's own schedule of its two agents
(R20 to R22), and the reset state (R35). -/

namespace Sys2Proof.Machine

/-- `STATE` (10_state.md R29). -/
inductive EngineState where
  | idle
  | busy
  | done
  | error
deriving DecidableEq, Repr

/-- `ERR` (60_exceptions.md R220); codes 5, 6 and 7 are never produced. -/
inductive ErrCode where
  | none
  | invalidDimensions
  | bufferTooSmall
  | allocationFailure
  | illegalCommand
deriving DecidableEq, Repr

/-- The six descriptor registers `x[0]` to `x[5]` (10_state.md R26). -/
structure DescRegs where
  ctl     : Word
  width   : Word
  height  : Word
  srcBase : Word
  srcLen  : Word
  dstBase : Word
deriving DecidableEq, Repr

/-- The buffer memory (10_state.md R24): the bytes that differ from an unlisted one, addresses rising. -/
abbrev Memory := List Host.Cell

/-- What happens next: one action of the host (10_state.md R21), or one turn of the engine.
`issue d` is the one atomic step ISSUE(d) of R110. `command d` is ISSUE(d) and, when d is valid, all
STEPs of the command with nothing between them, taken as one step (R22, 40_command_lifecycle.md R125).
`engine` gives the engine a turn (log 5). -/
inductive Turn where
  | issue (d : Descriptor)
  | command (d : Descriptor)
  | status
  | hostRead (addr n : Nat)
  | hostWrite (addr : Nat) (bytes : List Byte)
  | reset
  | engine
deriving DecidableEq, Repr

/-- What an action of the host returned: the status word (R30) or the bytes of HOST_READ (R21). -/
inductive Reply where
  | status (w : Word)
  | bytes (bs : List Byte)
deriving DecidableEq, Repr

/-- The whole state. `mem` to `callIdx` are the table of 10_state.md R23; `params` are the parameters of R8 and
R34, which no step changes (log 1); `inbox`, `outbox` and `freeCount` are the model's own (logs 5, 9, 4). -/
structure State where
  mem       : Memory
  d         : DescRegs
  state     : EngineState
  err       : ErrCode
  callIdx   : Word
  params    : Config.Params
  inbox     : List Turn
  outbox    : List Reply
  freeCount : Nat
deriving DecidableEq, Repr

/-- Why the machine stops. -/
inductive Fault where
  /-- Raised by the engine's turn alone, when STATE is BUSY although the latched descriptor is illegal or
  fails the checks of R111 to R113, so that `CALLS(D)` is not defined (R117). Safe: no run reaches such a
  state, since ISSUE sets BUSY for a valid descriptor only (R110); see log 10. -/
  | busyWithoutCommand
deriving DecidableEq, Repr

/-- Why a step has no meaning. -/
inductive Refusal where
  /-- Raised by an arm of `exec` for a command without a meaning; every command has one, so nothing raises
  it. Safe. -/
  | notModelled (mnemonic : String)
deriving DecidableEq, Repr

/-- All six descriptor registers 0 (10_state.md R35). -/
def DescRegs.zero : DescRegs :=
  { ctl := 0, width := 0, height := 0, srcBase := 0, srcLen := 0, dstBase := 0 }

/-- The machine right after power-up and reset (10_state.md R35, 70_reset_and_hazards.md R250). Memory
lists nothing (log 3); the model's own fields are empty (logs 4, 5, 9). -/
def State.reset : State :=
  { mem := []
    d := DescRegs.zero
    state := .idle
    err := .none
    callIdx := 0
    params := Config.Params.default
    inbox := []
    outbox := []
    freeCount := 0 }

end Sys2Proof.Machine
end

