-- ==== Sys2Proof/Machine/Lanes.lean ====
section
/-! DEFINITION. The lane model of 43_vector_kernels.md: vectors as lists of lanes, lane 0 first (R180),
the constant vectors (R181) and the primitives (R182), as many lanes as `VLEN` gives where a rule names a whole
vector. A view of 16 lanes of 8 bits is a `List Byte`, of
8 lanes of 16 bits a `List (BitVec 16)`, of 4 lanes of 32 bits a `List (BitVec 32)` (log 15). -/

namespace Sys2Proof.Machine

/-- The bytes of 32-bit lanes, least significant first (R180). -/
def lanes32to8 : List (BitVec 32) → List Byte
  | [] => []
  | v :: vs => v.extractLsb' 0 8 :: v.extractLsb' 8 8 :: v.extractLsb' 16 8 :: v.extractLsb' 24 8 :: lanes32to8 vs

/-! ## Constant vectors (R181) -/

def kRecip9 (v : Config.VectorWidth) (r : Config.Reciprocal) : List (BitVec 16) :=
  List.replicate v.lanes16 (BitVec.ofNat 16 r.value)

/-- The luma weights, repeated per pixel. -/
def kLuma (v : Config.VectorWidth) : List (BitVec 16) :=
  (List.replicate (v.lanes16 / Config.channels)
    ([Config.lumaB, Config.lumaG, Config.lumaR, Config.lumaA].map (BitVec.ofNat 16))).flatten

/-- `K_FIVE` on n lanes of 16 bits. -/
def kFive (n : Nat) : List (BitVec 16) := List.replicate n (BitVec.ofNat 16 Config.sharpCenter)

/-- `K_ALPHA` in its byte view. -/
def kAlpha (v : Config.VectorWidth) : List Byte := lanes32to8 (List.replicate v.lanes32 0xFF000000)

/-! ## Primitives (R182) -/

/-- `clamp(n, lo, hi)` (00_scope.md R11). -/
def clamp (n lo hi : Int) : Int := if n < lo then lo else if hi < n then hi else n

def widen8 (v : List Byte) : List (BitVec 16) := v.map fun b => b.zeroExtend 16

def add16 (a b : List (BitVec 16)) : List (BitVec 16) :=
  List.zipWith (fun x y => BitVec.ofNat 16 (x.toNat + y.toNat)) a b

def sub16 (a b : List (BitVec 16)) : List (BitVec 16) :=
  List.zipWith (fun x y => BitVec.ofInt 16 ((x.toNat : Int) - (y.toNat : Int))) a b

def mullo16 (a b : List (BitVec 16)) : List (BitVec 16) :=
  List.zipWith (fun x y => BitVec.ofNat 16 (x.toNat * y.toNat)) a b

/-- The high half of the unsigned product. -/
def mulhiU16 (a b : List (BitVec 16)) : List (BitVec 16) :=
  List.zipWith (fun x y => BitVec.ofNat 16 (x.toNat * y.toNat / 65536)) a b

/-- Signed products of neighbouring lanes, summed in pairs. -/
def madd16 : List (BitVec 16) → List (BitVec 16) → List (BitVec 32)
  | a0 :: a1 :: as, b0 :: b1 :: bs =>
    BitVec.ofInt 32 (a0.toInt * b0.toInt + a1.toInt * b1.toInt) :: madd16 as bs
  | _, _ => []

/-- Sums of neighbouring lanes of one vector. -/
def pairSums32 : List (BitVec 32) → List (BitVec 32)
  | a0 :: a1 :: as => BitVec.ofInt 32 (a0.toInt + a1.toInt) :: pairSums32 as
  | _ => []

def hadd32 (a b : List (BitVec 32)) : List (BitVec 32) := pairSums32 a ++ pairSums32 b

/-- Arithmetic right shift: the floor of the division by 2^n. -/
def sra32 (a : List (BitVec 32)) (n : Nat) : List (BitVec 32) :=
  a.map fun x => BitVec.ofInt 32 (Int.fdiv x.toInt (2 ^ n))

def packs32 (a b : List (BitVec 32)) : List (BitVec 16) :=
  (a ++ b).map fun x => BitVec.ofInt 16 (clamp x.toInt (-32768) 32767)

/-- The operand lanes are read as signed. -/
def packus16 (a b : List (BitVec 16)) : List Byte := (a ++ b).map fun x => BitVec.ofInt 8 (clamp x.toInt 0 255)

def or8 (a b : List Byte) : List Byte := List.zipWith (fun x y => x ||| y) a b

def and8 (a b : List Byte) : List Byte := List.zipWith (fun x y => x &&& y) a b

/-- A byte copied to the B, G and R positions of a 32-bit lane. -/
def repBgr (v : List Byte) : List (BitVec 32) := v.map fun b => BitVec.ofNat 32 (b.toNat * 0x00010101)

end Sys2Proof.Machine
end

