-- ==== Sys2Proof/WellFormed.lean ====
section
/-! DEFINITION. Which commands the 192-bit format can hold (30_encoding.md R80, R83). -/

namespace Sys2Proof

/-- A value of a signed word. -/
def fitsSignedWord (n : Int) : Bool :=
  decide (-(2 ^ (Config.addrBits - 1)) ≤ n) && decide (n < 2 ^ (Config.addrBits - 1))

/-- A value of an unsigned word. -/
def fitsUnsignedWord (n : Nat) : Bool := decide (n < 2 ^ Config.addrBits)

/-- The ranges of R83: W and H from -2^31 to 2^31-1, SRC, SRC_LEN and DST from 0 to 2^32-1. -/
def Operands.wellFormed (o : Operands) : Bool :=
  fitsSignedWord o.w && fitsSignedWord o.h && fitsUnsignedWord o.src && fitsUnsignedWord o.len
    && fitsUnsignedWord o.dst

def Instr.wellFormed (i : Instr) : Bool := i.operands.wellFormed

end Sys2Proof
end

