-- ==== Sys2Proof/Decode.lean ====
section
/-! DEFINITION. The decoder of 30_encoding.md R87, total on any bits and any bytes, and the encoder,
written from the match and mask columns of R84. -/

namespace Sys2Proof

/-! ## Words and bytes of a descriptor -/

/-- Word k of a descriptor: bits 32k+31 to 32k (R80). -/
def Descriptor.word (k : Nat) (d : Descriptor) : Word := d.extractLsb' (Config.addrBits * k) Config.addrBits

/-- The descriptor `{word5, word4, word3, word2, word1, word0}` (R80). -/
def Descriptor.ofWords (w0 w1 w2 w3 w4 w5 : Word) : Descriptor := w5 ++ w4 ++ w3 ++ w2 ++ w1 ++ w0

/-- The 24 bytes of a descriptor: word 0 first, each word least significant byte first (R81). -/
def Descriptor.bytes (d : Descriptor) : List Byte := (List.range 24).map fun k => d.extractLsb' (8 * k) 8

/-- The number that bytes written least significant first stand for. -/
def natOfBytes : List Byte → Nat
  | [] => 0
  | b :: bs => b.toNat + 256 * natOfBytes bs

/-! ## The opcode map (R84) -/

inductive Opcode where
  | pad | halo | strip | sblur | sgray | ssharp | vblur | vgray | vsharp
deriving DecidableEq, Repr

def Opcode.all : List Opcode :=
  [.pad, .halo, .strip, .sblur, .sgray, .ssharp, .vblur, .vgray, .vsharp]

/-- Column `OP` of R84. -/
def Opcode.code : Opcode → BitVec 8
  | .pad => 0x01
  | .halo => 0x02
  | .strip => 0x03
  | .sblur => 0x10
  | .sgray => 0x11
  | .ssharp => 0x12
  | .vblur => 0x20
  | .vgray => 0x21
  | .vsharp => 0x22

/-- Column `match` of R84, over word 0. -/
def Opcode.matchWord : Opcode → Word
  | .pad => 0x00000001
  | .halo => 0x00000002
  | .strip => 0x00000003
  | .sblur => 0x00000010
  | .sgray => 0x00000011
  | .ssharp => 0x00000012
  | .vblur => 0x00000020
  | .vgray => 0x00000021
  | .vsharp => 0x00000022

/-- Column `mask` of R84, over word 0. -/
def Opcode.maskWord : Opcode → Word
  | .pad => 0xFFFFFFFF
  | .halo => 0xFFFFFFFF
  | .strip => 0xFFFFFFFF
  | .sblur => 0xFFFFFFFF
  | .sgray => 0xFFFFFFFF
  | .ssharp => 0xFFFFFFFF
  | .vblur => 0xFFFFFEFF
  | .vgray => 0xFFFFFEFF
  | .vsharp => 0xFFFFFEFF

def Opcode.ofCode? (b : BitVec 8) : Option Opcode := Opcode.all.find? fun c => c.code == b

/-- The command of an opcode. R87 calls a set TAIL illegal on all but the vector opcodes, so `tail` has
no place in the others. -/
def Opcode.build (tail : Bool) (o : Operands) : Opcode → Instr
  | .pad => .pad o
  | .halo => .halo o
  | .strip => .strip o
  | .sblur => .sblur o
  | .sgray => .sgray o
  | .ssharp => .ssharp o
  | .vblur => .vblur tail o
  | .vgray => .vgray tail o
  | .vsharp => .vsharp tail o

def Instr.opcode : Instr → Opcode
  | .pad _ => .pad
  | .halo _ => .halo
  | .strip _ => .strip
  | .sblur _ => .sblur
  | .sgray _ => .sgray
  | .ssharp _ => .ssharp
  | .vblur _ _ => .vblur
  | .vgray _ _ => .vgray
  | .vsharp _ _ => .vsharp

/-! ## The decoder (R87) -/

/-- Why bytes are no command: the three clauses of R86, and a byte list that is not 24 long (R80). -/
inductive DecodeError where
  | reservedBits
  | unknownOpcode
  | tailOnNonVector
  | wrongLength
deriving DecidableEq, Repr

/-- Field `OP` of `CTL` (R82). -/
def ctlOp (ctl : Word) : BitVec 8 := ctl.extractLsb' 0 8
/-- Field `TAIL` of `CTL` (R82). -/
def ctlTail (ctl : Word) : Bool := ctl.getLsbD 8
/-- The reserved field of `CTL` (R82). -/
def ctlReserved (ctl : Word) : BitVec 23 := ctl.extractLsb' 9 23
/-- `OP[7:4]`, the family (R84). -/
def opFamily (op : BitVec 8) : BitVec 4 := op.extractLsb' 4 4

/-- Words 1 to 5 as the operands of R87. -/
def Descriptor.operands (d : Descriptor) : Operands :=
  { w := (Descriptor.word 1 d).toInt
    h := (Descriptor.word 2 d).toInt
    src := (Descriptor.word 3 d).toNat
    len := (Descriptor.word 4 d).toNat
    dst := (Descriptor.word 5 d).toNat }

/-- The algorithm of R87, its checks in its order. -/
def decode (d : Descriptor) : Except DecodeError Instr :=
  let ctl := Descriptor.word 0 d
  if ctlReserved ctl ≠ 0 then .error .reservedBits
  else
    match Opcode.ofCode? (ctlOp ctl) with
    | none => .error .unknownOpcode
    | some c =>
      if ctlTail ctl ∧ opFamily (ctlOp ctl) ≠ 2 then .error .tailOnNonVector
      else .ok (c.build (ctlTail ctl) (Descriptor.operands d))

/-- A descriptor written as bytes (R81). -/
def decodeBytes (bs : List Byte) : Except DecodeError Instr :=
  if bs.length = 24 then decode (BitVec.ofNat 192 (natOfBytes bs)) else .error .wrongLength

/-! ## The encoder (R80, R82, R84) -/

/-- Word 0 of a command: its `match` word, with bit 8 set where TAIL is. -/
def Instr.ctl (i : Instr) : Word := i.opcode.matchWord ||| (if i.tail then 0x100 else 0)

/-- The descriptor of a command. An operand that does not fit its word (an ill-formed command) is
truncated to it. -/
def encode (i : Instr) : Descriptor :=
  Descriptor.ofWords i.ctl (BitVec.ofInt _ i.operands.w) (BitVec.ofInt _ i.operands.h)
    (BitVec.ofNat _ i.operands.src) (BitVec.ofNat _ i.operands.len) (BitVec.ofNat _ i.operands.dst)

/-- The command that the decoder reads from a table word: the 24 bytes of the descriptor whose low
`nbits` bits are those of `w`. -/
def decodeTableWord (nbits w : Nat) : Option Instr :=
  (decodeBytes (Descriptor.bytes (BitVec.ofNat 192 (w % 2 ^ nbits)))).toOption

end Sys2Proof
end

