-- ==== Sys2Proof/Machine/Memory.lean ====
section
/-! DEFINITION. The buffer memory: one byte read and written, runs of bytes (00_scope.md R12), and the
canonical form. -/

namespace Sys2Proof.Machine

/-- What a byte that nothing has written reads as. The spec leaves it open (10_state.md R25).
DESIGN CHOICE (log 3), unsafe: 0xEE, the byte 95_test_vectors.md fills memory with. -/
def Memory.blank : Byte := 0xEE

/-- `MEM[a]`. -/
def Memory.read : Memory → Nat → Byte
  | [], _ => Memory.blank
  | (k, v) :: m, a => if k = a then v else Memory.read m a

/-- A byte put at its place in a memory that does not list its address, left out when it is what an unlisted
byte reads as. -/
def Memory.insert (a : Nat) (v : Byte) : Memory → Memory
  | [] => if v = Memory.blank then [] else [(a, v)]
  | (k, w) :: m =>
    if k < a then (k, w) :: Memory.insert a v m
    else if v = Memory.blank then (k, w) :: m
    else (a, v) :: (k, w) :: m

/-- `MEM[a] <- v`, keeping the canonical form. -/
def Memory.write (m : Memory) (a : Nat) (v : Byte) : Memory :=
  Memory.insert a v (m.filter fun c => decide (c.1 ≠ a))

/-- `MemRead(a, n)` (00_scope.md R12). -/
def Memory.readBytes (m : Memory) (a n : Nat) : List Byte := (List.range n).map fun i => m.read (a + i)

/-- `MemWrite(a, n, v)` with n the number of bytes of v (00_scope.md R12). -/
def Memory.writeBytes : Memory → Nat → List Byte → Memory
  | m, _, [] => m
  | m, a, b :: bs => Memory.writeBytes (m.write a b) (a + 1) bs

/-- The canonical form: addresses strictly rising, no entry equal to an unlisted byte. -/
abbrev Memory.wf (m : Memory) : Prop :=
  List.Pairwise (fun c e => c.1 < e.1) m ∧ ∀ c ∈ m, c.2 ≠ Memory.blank

/-- Every listed address exists: it is below `bound`, the size of the memory (10_state.md R24). -/
abbrev Memory.below (m : Memory) (bound : Nat) : Prop := ∀ c ∈ m, c.1 < bound

end Sys2Proof.Machine
end

