-- ==== Sys2Proof/Machine/Operands.lean ====
section
/-! DEFINITION. Operand forms: pixels, the two buffer layouts (20_memory.md R50 to R52), the operands that
the descriptor registers hold, the regions of a command (R54) and the three checks on them
(40_command_lifecycle.md R111 to R113). -/

namespace Sys2Proof.Machine

/-! ## Pixels (20_memory.md R50) -/

/-- A pixel as the 4-tuple (B, G, R, A) of 00_scope.md R12. -/
structure Pixel where
  b : Byte
  g : Byte
  r : Byte
  a : Byte
deriving DecidableEq, Repr

/-- `p[c]` (00_scope.md R12). -/
def Pixel.chan (p : Pixel) : Fin 4 → Byte
  | 0 => p.b
  | 1 => p.g
  | 2 => p.r
  | 3 => p.a

def Pixel.ofFn (f : Fin 4 → Byte) : Pixel := ⟨f 0, f 1, f 2, f 3⟩

def Pixel.bytes (p : Pixel) : List Byte := [p.b, p.g, p.r, p.a]

/-- `RdPix(a)`. -/
def Memory.readPix (m : Memory) (a : Nat) : Pixel := ⟨m.read a, m.read (a + 1), m.read (a + 2), m.read (a + 3)⟩

/-- `WrPix(a, p)`. -/
def Memory.writePix (m : Memory) (a : Nat) (p : Pixel) : Memory := m.writeBytes a p.bytes

/-! ## Layouts (00_scope.md R12, 20_memory.md R51, R52) -/

/-- `PX(base, W, x, y)`. -/
def px (base w x y : Nat) : Nat := base + 4 * (y * (w + 2) + x)

/-- `UPX(base, W, x, y)`. -/
def upx (base w x y : Nat) : Nat := base + 4 * (y * w + x)

/-- `PADDED_BYTES(W, H)`. -/
def paddedBytes (w h : Nat) : Nat := 4 * (w + 2) * (h + 2)

/-- `UNPADDED_BYTES(W, H)`. -/
def unpaddedBytes (w h : Nat) : Nat := 4 * w * h

/-! ## The descriptor registers as operands (00_scope.md R12, 10_state.md R27) -/

/-- The six words of an issued descriptor (40_command_lifecycle.md R110). -/
def DescRegs.ofDescriptor (d : Descriptor) : DescRegs :=
  { ctl := Descriptor.word 0 d
    width := Descriptor.word 1 d
    height := Descriptor.word 2 d
    srcBase := Descriptor.word 3 d
    srcLen := Descriptor.word 4 d
    dstBase := Descriptor.word 5 d }

/-- The descriptor that the registers hold. -/
def DescRegs.toDescriptor (d : DescRegs) : Descriptor :=
  Descriptor.ofWords d.ctl d.width d.height d.srcBase d.srcLen d.dstBase

/-- `s(D.WIDTH)`. -/
def DescRegs.wInt (d : DescRegs) : Int := d.width.toInt
/-- `s(D.HEIGHT)`. -/
def DescRegs.hInt (d : DescRegs) : Int := d.height.toInt
/-- `W`, once the dimension check has passed. -/
def DescRegs.w (d : DescRegs) : Nat := d.wInt.toNat
/-- `H`, once the dimension check has passed. -/
def DescRegs.h (d : DescRegs) : Nat := d.hInt.toNat
/-- `SRC`. -/
def DescRegs.src (d : DescRegs) : Nat := d.srcBase.toNat
/-- `SRC_LEN`. -/
def DescRegs.len (d : DescRegs) : Nat := d.srcLen.toNat
/-- `DST`. -/
def DescRegs.dst (d : DescRegs) : Nat := d.dstBase.toNat

/-! ## Calls and plans (40_command_lifecycle.md R116) -/

/-- The three filters. -/
inductive Kernel where
  | blur
  | gray
  | sharp
deriving DecidableEq, Repr

/-- The six kinds of call (R116). -/
inductive Call where
  | copyIn  (x y : Nat)
  | hcol    (y : Nat)
  | vrow    (yd ys : Nat)
  | copyOut (x y : Nat)
  | scall   (k : Kernel) (x y : Nat)
  | vcall   (k : Kernel) (x y : Nat)
deriving DecidableEq, Repr

/-- Which overlap of source and destination a command allows (20_memory.md R55). -/
inductive Overlap where
  | noSource
  | disjoint
  | disjointOrInPlace
deriving DecidableEq, Repr

/-- A command's row of 20_memory.md R54, for one width and height. -/
structure Regions where
  needSrc : Nat
  needDst : Nat
  overlap : Overlap
deriving DecidableEq, Repr

/-- What the sequencer knows of a command: its regions and its call list, each a function of W and H. -/
structure Plan where
  regions : Nat → Nat → Regions
  calls   : Nat → Nat → List Call

/-! ## The checks -/

/-- R111: neither dimension non-positive, and the padded size, computed exactly, a byte count of `ADDR_BITS`
bits. -/
def dimensionsOk (a : Config.AddressWidth) (w h : Int) : Bool :=
  decide (0 < w) && decide (0 < h) && decide (4 * (w + 2) * (h + 2) < 2 ^ a.bits)

/-- `eff_len` of R112: the supplied source bytes that exist in memory. -/
def effLen (memBytes src len : Nat) : Nat := if memBytes ≤ src then 0 else min len (memBytes - src)

/-- R112, skipped for a command without a source. -/
def sourceOk (memBytes : Nat) (d : DescRegs) (rg : Regions) : Bool :=
  match rg.overlap with
  | .noSource => true
  | .disjoint => decide (rg.needSrc ≤ effLen memBytes d.src d.len)
  | .disjointOrInPlace => decide (rg.needSrc ≤ effLen memBytes d.src d.len)

/-- `overlap` of R113. -/
def regionsOverlap (src needSrc dst needDst : Nat) : Bool :=
  decide (src < dst + needDst) && decide (dst < src + needSrc)

/-- R113: the destination exists, and lies across the source only where the command allows it. -/
def destinationOk (memBytes : Nat) (d : DescRegs) (rg : Regions) : Bool :=
  decide (d.dst + rg.needDst ≤ memBytes) &&
  match rg.overlap with
  | .noSource => true
  | .disjoint => !regionsOverlap d.src rg.needSrc d.dst rg.needDst
  | .disjointOrInPlace => !regionsOverlap d.src rg.needSrc d.dst rg.needDst || decide (d.src = d.dst)

/-- The checks of R110 after decoding, in its order; `none` when all pass. -/
def validate (p : Config.Params) (d : DescRegs) (pl : Plan) : Option ErrCode :=
  if dimensionsOk p.addrBits d.wInt d.hInt = false then some .invalidDimensions
  else if sourceOk p.memBytes d (pl.regions d.w d.h) = false then some .bufferTooSmall
  else if destinationOk p.memBytes d (pl.regions d.w d.h) = false then some .allocationFailure
  else none

end Sys2Proof.Machine
end

