-- ==== Sys2Proof/Machine/Kernels.lean ====
section
/-! DEFINITION. The pixel functions of the scalar kernels (42_scalar_kernels.md R163 to R165) and the lane
programs of the vector kernels (43_vector_kernels.md R190, R192, R194). -/

namespace Sys2Proof.Machine

/-- The nine pixels of a neighbourhood (42_scalar_kernels.md R160). -/
structure Block where
  nw : Pixel
  n  : Pixel
  ne : Pixel
  w  : Pixel
  c  : Pixel
  e  : Pixel
  sw : Pixel
  s  : Pixel
  se : Pixel
deriving DecidableEq, Repr

/-- The block whose pixel at offset (dx, dy) is `f dx dy`. -/
def Block.ofFn (f : Int → Int → Pixel) : Block :=
  { nw := f (-1) (-1), n := f 0 (-1), ne := f 1 (-1)
    w := f (-1) 0, c := f 0 0, e := f 1 0
    sw := f (-1) 1, s := f 0 1, se := f 1 1 }

/-! ## Scalar pixel functions -/

/-- `sum[c]` of R163. -/
def Block.sum (b : Block) (c : Fin 4) : Nat :=
  (b.nw.chan c).toNat + (b.n.chan c).toNat + (b.ne.chan c).toNat
    + (b.w.chan c).toNat + (b.c.chan c).toNat + (b.e.chan c).toNat
    + (b.sw.chan c).toNat + (b.s.chan c).toNat + (b.se.chan c).toNat

/-- `blur_s` (R163). -/
def blurS (b : Block) : Pixel := Pixel.ofFn fun c => BitVec.ofNat 8 (b.sum c / Config.blurDiv)

/-- The luma numerator of R164. -/
def lumaSum (p : Pixel) : Nat :=
  Config.lumaB * p.b.toNat + Config.lumaG * p.g.toNat + Config.lumaR * p.r.toNat

/-- `gray_s` (R164). -/
def grayS (p : Pixel) : Pixel :=
  let luma := BitVec.ofNat 8 (lumaSum p / 2 ^ Config.lumaShift)
  ⟨luma, luma, luma, p.a⟩

/-- `t[c]` of R165. -/
def Block.cross (b : Block) (c : Fin 4) : Int :=
  (Config.sharpCenter : Int) * (b.c.chan c).toNat - (b.e.chan c).toNat - (b.s.chan c).toNat
    - (b.w.chan c).toNat - (b.n.chan c).toNat

/-- One colour channel of `sharp_s` (R165). -/
def sharpChan (b : Block) (c : Fin 4) : Byte := BitVec.ofInt 8 (clamp (b.cross c) 0 255)

/-- `sharp_s` (R165). -/
def sharpS (b : Block) : Pixel := ⟨sharpChan b 0, sharpChan b 1, sharpChan b 2, 255⟩

/-- The scalar pixel function of a filter (42_scalar_kernels.md R161). -/
def scalarPixel : Kernel → Block → Pixel
  | .blur, b => blurS b
  | .gray, b => grayS b.c
  | .sharp, b => sharpS b

/-! ## Vector lane programs -/

/-- The three widened views of one row of VBLUR, each one pixel further east, added (R190). -/
def blurRow (v : Config.VectorWidth) (l : List Byte) : List (BitVec 16) :=
  let view := fun pixels => widen8 ((l.drop (Config.channels * pixels)).take v.lanes16)
  add16 (view 0) (add16 (view 1) (view 2))

/-- VBLUR's lane program (R190) on a vector of bytes of each of rows y-1, y and y+1: the bytes of the two cells
it writes. -/
def blurLanes (v : Config.VectorWidth) (r : Config.Reciprocal) (l0 l1 l2 : List Byte) : List Byte :=
  let s := add16 (add16 (add16 (List.replicate v.lanes16 0) (blurRow v l0)) (blurRow v l1)) (blurRow v l2)
  let q := mulhiU16 s (kRecip9 v r)
  (packus16 q q).take (Config.channels * Config.pBlur)

/-- VGRAY's lane program (R192) on the vector of bytes of a group: the bytes of the four cells it writes. -/
def grayLanes (v : Config.VectorWidth) (ga : Config.GrayAlpha) (l : List Byte) : List Byte :=
  let mlo := madd16 (widen8 (l.take v.lanes16)) (kLuma v)
  let mhi := madd16 (widen8 ((l.drop v.lanes16).take v.lanes16)) (kLuma v)
  let sh := sra32 (hadd32 mlo mhi) Config.lumaShift
  let p16 := packs32 sh sh
  let p8 := packus16 p16 p16
  let y := lanes32to8 (repBgr (p8.take Config.pGray))
  match ga with
  | .preserve => or8 y (and8 l (kAlpha v))
  | .force255 => or8 y (kAlpha v)

/-- VSHARP's lane program (R194) on its five groups of 4 × P bytes: the 4 × P bytes it writes. -/
def sharpLanes (v : Config.VectorWidth) (c e s w n : List Byte) : List Byte :=
  let t := mullo16 (widen8 c) (kFive c.length)
  let u := add16 (add16 (widen8 e) (widen8 s)) (add16 (widen8 w) (widen8 n))
  let dv := sub16 t u
  (or8 (packus16 dv dv) (kAlpha v)).take c.length

end Sys2Proof.Machine
end

