-- ==== Sys2Proof/Machine/Calls.lean ====
section
/-! DEFINITION. The effect of each call on memory (40_command_lifecycle.md R116). A call computes its
output from the memory it is given and only then writes (R120). -/

namespace Sys2Proof.Machine

/-- `COPY_IN(x, y)` (41_padding.md R141). -/
def callCopyIn (d : DescRegs) (x y : Nat) (m : Memory) : Memory :=
  m.writePix (px d.dst d.w (x + 1) (y + 1)) (m.readPix (upx d.src d.w x y))

/-- `HCOL(y)` (41_padding.md R142): both reads first. -/
def callHcol (d : DescRegs) (y : Nat) (m : Memory) : Memory :=
  let l := m.readPix (px d.dst d.w 1 y)
  let r := m.readPix (px d.dst d.w d.w y)
  (m.writePix (px d.dst d.w 0 y) l).writePix (px d.dst d.w (d.w + 1) y) r

/-- `VROW(yd, ys)` (41_padding.md R143). -/
def callVrow (d : DescRegs) (yd ys : Nat) (m : Memory) : Memory :=
  m.writeBytes (px d.dst d.w 0 yd) (m.readBytes (px d.dst d.w 0 ys) (4 * (d.w + 2)))

/-- `COPY_OUT(x, y)` (41_padding.md R146). -/
def callCopyOut (d : DescRegs) (x y : Nat) (m : Memory) : Memory :=
  m.writePix (upx d.dst d.w x y) (m.readPix (px d.src d.w (x + 1) (y + 1)))

/-- The neighbourhood of cell (x, y) of the source: `n(dx, dy)` of 42_scalar_kernels.md R160. -/
def sourceBlock (d : DescRegs) (x y : Nat) (m : Memory) : Block :=
  Block.ofFn fun dx dy => m.readPix (px d.src d.w ((x : Int) + dx).toNat ((y : Int) + dy).toNat)

/-- `SCALL(k, x, y)` (42_scalar_kernels.md R161). -/
def callScalar (d : DescRegs) (k : Kernel) (x y : Nat) (m : Memory) : Memory :=
  m.writePix (px d.dst d.w x y) (scalarPixel k (sourceBlock d x y m))

/-- `P`, the pixels per call of a vector command (40_command_lifecycle.md R117). -/
def pixelsPerCall (p : Config.Params) : Kernel → Nat
  | .blur => Config.pBlur
  | .gray => Config.pGray
  | .sharp => p.pSharp.pixels

/-- The bytes that `VCALL(k, x, y)` writes: the source groups of R190, R192 or R194 through the lane
program of its kernel. -/
def vectorBytes (p : Config.Params) (d : DescRegs) (k : Kernel) (x y : Nat) (m : Memory) : List Byte :=
  let group := fun (gx gy n : Nat) => m.readBytes (px d.src d.w gx gy) n
  let load := fun (gx gy : Nat) => group gx gy p.vlen.lanes8
  match k with
  | .blur => blurLanes p.vlen p.recip9 (load (x - 1) (y - 1)) (load (x - 1) y) (load (x - 1) (y + 1))
  | .gray => grayLanes p.vlen p.grayAlpha (load x y)
  | .sharp =>
    let n := Config.channels * p.pSharp.pixels
    sharpLanes p.vlen (group x y n) (group (x + 1) y n) (group x (y + 1) n) (group (x - 1) y n) (group x (y - 1) n)

/-- `VCALL(k, x, y)` (43_vector_kernels.md R183). -/
def callVector (p : Config.Params) (d : DescRegs) (k : Kernel) (x y : Nat) (m : Memory) : Memory :=
  m.writeBytes (px d.dst d.w x y) (vectorBytes p d k x y m)

/-- One call of a command. -/
def Call.run (p : Config.Params) (d : DescRegs) (c : Call) (m : Memory) : Memory :=
  match c with
  | .copyIn x y => callCopyIn d x y m
  | .hcol y => callHcol d y m
  | .vrow yd ys => callVrow d yd ys m
  | .copyOut x y => callCopyOut d x y m
  | .scall k x y => callScalar d k x y m
  | .vcall k x y => callVector p d k x y m

/-- The calls of a list, one after another: `c_(n-1)(...c_1(c_0(M))...)` (40_command_lifecycle.md R125). -/
def runCalls (p : Config.Params) (d : DescRegs) : List Call → Memory → Memory
  | [], m => m
  | c :: cs, m => runCalls p d cs (c.run p d m)

end Sys2Proof.Machine
end

