-- ==== Sys2Proof/Machine/Flags.lean ====
section
/-! DEFINITION. The engine has no flags (10_state.md R31). What it shows of itself are the codes of STATE
and ERR, the status word (R30) and the IRQ level (60_exceptions.md R226). -/

namespace Sys2Proof.Machine

/-- The 2-bit code of STATE (10_state.md R29). -/
def EngineState.code : EngineState → BitVec 2
  | .idle => 0
  | .busy => 1
  | .done => 2
  | .error => 3

/-- The 3-bit code of ERR (60_exceptions.md R220). -/
def ErrCode.code : ErrCode → BitVec 3
  | .none => 0
  | .invalidDimensions => 1
  | .bufferTooSmall => 2
  | .allocationFailure => 3
  | .illegalCommand => 4

/-- The status word: [1:0] STATE, [3:2] 0, [6:4] ERR, [31:7] 0 (10_state.md R30). -/
def State.statusWord (s : State) : Word := (0 : BitVec 25) ++ s.err.code ++ (0 : BitVec 2) ++ s.state.code

/-- The completion signal (60_exceptions.md R226). -/
def State.irq (s : State) : Bool :=
  match s.state with
  | .idle => false
  | .busy => false
  | .done => true
  | .error => true

end Sys2Proof.Machine
end

