-- ==== Sys2Proof/Machine/Ops.lean ====
section
/-! DEFINITION. The shared operations of the command lifecycle: latching and ending with an error
(40_command_lifecycle.md R110, R114), starting, one STEP (R118), the whole command (R125); and the actions
of the host (10_state.md R21). -/

namespace Sys2Proof.Machine

/-- The first two lines of ISSUE (R110): latch the six words, `CALL_IDX <- 0`. -/
def State.latch (s : State) (d : Descriptor) : State := { s with d := DescRegs.ofDescriptor d, callIdx := 0 }

/-- TAKING AN ERROR, the engine's one exception: `raise E` (R114, 60_exceptions.md R224). STATE and ERR
record it, CALL_IDX is 0, memory and the descriptor registers stay. There is no return from it: the next
ISSUE or RESET leaves it (60_exceptions.md R225). -/
def State.raiseError (s : State) (e : ErrCode) : State := { s with state := .error, err := e, callIdx := 0 }

/-- The last line of ISSUE (R110): `STATE <- BUSY; ERR <- 0`. -/
def State.start (s : State) : State := { s with state := .busy, err := .none }

/-- ISSUE of a legal descriptor with plan `pl` (R110), without its STEPs. -/
def issuePlan (d : Descriptor) (pl : Plan) (s : State) : State :=
  let s1 := s.latch d
  match validate s1.params s1.d pl with
  | some e => s1.raiseError e
  | none => s1.start

/-- A whole command with plan `pl` (R125): ISSUE, then every call in order, then DONE. While the engine is
BUSY the command waits and nothing happens (10_state.md R21; log 7). -/
def runCommand (d : Descriptor) (pl : Plan) (s : State) : Host.Outcome State Fault Refusal :=
  if s.state = .busy then .next s
  else
    let s1 := s.latch d
    match validate s1.params s1.d pl with
    | some e => .next (s1.raiseError e)
    | none =>
      .next { s1 with
        mem := runCalls s1.params s1.d (pl.calls s1.d.w s1.d.h) s1.mem
        state := .done
        err := .none
        callIdx := BitVec.ofNat _ (pl.calls s1.d.w s1.d.h).length }

/-- STEP of a BUSY engine whose valid command has plan `pl` (R118). -/
def stepPlan (pl : Plan) (s : State) : State :=
  match (pl.calls s.d.w s.d.h)[s.callIdx.toNat]? with
  | some c => { s with mem := c.run s.params s.d s.mem, callIdx := s.callIdx + 1 }
  | none => { s with state := .done }

/-! ## Actions of the host (10_state.md R21) -/

/-- STATUS(): the status word is returned, nothing else changes. -/
def hostStatus (s : State) : State := { s with outbox := .status s.statusWord :: s.outbox }

/-- Whether an access of `n` bytes at `addr` is accepted: inside memory (R21) and of at least one byte
(20_memory.md R57; log 8). -/
def accessOk (s : State) (addr n : Nat) : Bool := decide (0 < n) && decide (addr + n ≤ s.params.memBytes)

/-- HOST_READ(addr, n): the bytes are returned; an access out of range is not accepted. -/
def hostRead (addr n : Nat) (s : State) : State :=
  if accessOk s addr n then { s with outbox := .bytes (s.mem.readBytes addr n) :: s.outbox } else s

/-- HOST_WRITE(addr, n, v): an access out of range is not accepted. -/
def hostWrite (addr : Nat) (bytes : List Byte) (s : State) : State :=
  if accessOk s addr bytes.length then { s with mem := s.mem.writeBytes addr bytes } else s

/-- The registers after RESET() (70_reset_and_hazards.md R250). -/
def State.resetRegs (s : State) : State :=
  { s with state := .idle, err := .none, callIdx := 0, d := DescRegs.zero }

/-- RESET() while BUSY (70_reset_and_hazards.md R251): every byte of the abandoned command's destination
region takes a free value (log 4). -/
def State.abandon (s : State) (dst needDst : Nat) : State :=
  { s with
    mem := s.mem.writeBytes dst ((List.range needDst).map fun i => Config.freeByte s.freeCount (dst + i))
    freeCount := s.freeCount + 1 }

end Sys2Proof.Machine
end

