-- ==== Sys2Proof/Machine/Halo.lean ====
section
/-! DEFINITION. The halo builder commands PAD, HALO and STRIP (41_padding.md): their regions
(20_memory.md R54), their call lists (40_command_lifecycle.md R117) and their meanings. -/

namespace Sys2Proof.Machine

/-- HALO's list, and PAD's after its copies: columns before rows (R117, 41_padding.md R145, R148). -/
def haloCalls (h : Nat) : List Call :=
  (List.range h).map (fun y => Call.hcol (y + 1)) ++ [.vrow 0 1, .vrow (h + 1) h]

/-- PAD's list (R117, 41_padding.md R144). -/
def padCalls (w h : Nat) : List Call :=
  ((List.range h).flatMap fun y => (List.range w).map fun x => Call.copyIn x y) ++ haloCalls h

/-- STRIP's list (R117, 41_padding.md R146). -/
def stripCalls (w h : Nat) : List Call :=
  (List.range h).flatMap fun y => (List.range w).map fun x => Call.copyOut x y

def padPlan : Plan :=
  { regions := fun w h => { needSrc := unpaddedBytes w h, needDst := paddedBytes w h, overlap := .disjoint }
    calls := padCalls }

def haloPlan : Plan :=
  { regions := fun w h => { needSrc := 0, needDst := paddedBytes w h, overlap := .noSource }
    calls := fun _ h => haloCalls h }

def stripPlan : Plan :=
  { regions := fun w h => { needSrc := paddedBytes w h, needDst := unpaddedBytes w h, overlap := .disjoint }
    calls := stripCalls }

/-- PAD (41_padding.md R144). -/
def execPad (o : Operands) (s : State) : Host.Outcome State Fault Refusal :=
  runCommand (encode (.pad o)) padPlan s

/-- HALO (41_padding.md R145). -/
def execHalo (o : Operands) (s : State) : Host.Outcome State Fault Refusal :=
  runCommand (encode (.halo o)) haloPlan s

/-- STRIP (41_padding.md R146). -/
def execStrip (o : Operands) (s : State) : Host.Outcome State Fault Refusal :=
  runCommand (encode (.strip o)) stripPlan s

end Sys2Proof.Machine
end

