-- ==== Sys2Proof/Machine/Scalar.lean ====
section
/-! DEFINITION. The scalar kernel commands SBLUR, SGRAY and SSHARP (42_scalar_kernels.md). -/

namespace Sys2Proof.Machine

/-- The row-major list of a scalar command (40_command_lifecycle.md R117, 42_scalar_kernels.md R162). -/
def scalarCalls (k : Kernel) (w h : Nat) : List Call :=
  (List.range h).flatMap fun y => (List.range w).map fun x => Call.scall k (x + 1) (y + 1)

def scalarPlan (k : Kernel) : Plan :=
  { regions := fun w h => { needSrc := paddedBytes w h, needDst := paddedBytes w h, overlap := .disjointOrInPlace }
    calls := scalarCalls k }

/-- SBLUR (42_scalar_kernels.md R163). -/
def execSblur (o : Operands) (s : State) : Host.Outcome State Fault Refusal :=
  runCommand (encode (.sblur o)) (scalarPlan .blur) s

/-- SGRAY (42_scalar_kernels.md R164). -/
def execSgray (o : Operands) (s : State) : Host.Outcome State Fault Refusal :=
  runCommand (encode (.sgray o)) (scalarPlan .gray) s

/-- SSHARP (42_scalar_kernels.md R165). -/
def execSsharp (o : Operands) (s : State) : Host.Outcome State Fault Refusal :=
  runCommand (encode (.ssharp o)) (scalarPlan .sharp) s

end Sys2Proof.Machine
end

