-- ==== Sys2Proof/Machine/Vector.lean ====
section
/-! DEFINITION. The vector kernel commands VBLUR, VGRAY and VSHARP (43_vector_kernels.md). -/

namespace Sys2Proof.Machine

/-- The calls of row y of a vector command with P pixels per call: the groups, then with TAIL = 1 the tail
columns by the scalar kernel (40_command_lifecycle.md R117, 43_vector_kernels.md R184). -/
def vectorRow (k : Kernel) (pp : Nat) (tail : Bool) (w y : Nat) : List Call :=
  (List.range (w / pp)).map (fun g => Call.vcall k (1 + g * pp) y)
    ++ if tail then (List.range (w % pp)).map (fun t => Call.scall k (w / pp * pp + 1 + t) y) else []

def vectorCalls (k : Kernel) (pp : Nat) (tail : Bool) (w h : Nat) : List Call :=
  (List.range h).flatMap fun y => vectorRow k pp tail w (y + 1)

def vectorPlan (p : Config.Params) (k : Kernel) (tail : Bool) : Plan :=
  { regions := fun w h => { needSrc := paddedBytes w h, needDst := paddedBytes w h, overlap := .disjointOrInPlace }
    calls := vectorCalls k (pixelsPerCall p k) tail }

/-- VBLUR (43_vector_kernels.md R190). -/
def execVblur (tail : Bool) (o : Operands) (s : State) : Host.Outcome State Fault Refusal :=
  runCommand (encode (.vblur tail o)) (vectorPlan s.params .blur tail) s

/-- VGRAY (43_vector_kernels.md R192). -/
def execVgray (tail : Bool) (o : Operands) (s : State) : Host.Outcome State Fault Refusal :=
  runCommand (encode (.vgray tail o)) (vectorPlan s.params .gray tail) s

/-- VSHARP (43_vector_kernels.md R194). -/
def execVsharp (tail : Bool) (o : Operands) (s : State) : Host.Outcome State Fault Refusal :=
  runCommand (encode (.vsharp tail o)) (vectorPlan s.params .sharp tail) s

end Sys2Proof.Machine
end

