-- ==== Sys2Proof/Machine/Sequencer.lean ====
section
/-! DEFINITION. The sequencer call by call (40_command_lifecycle.md R110, R117, R118), RESET, and the two
host programs of 30_encoding.md R90. -/

namespace Sys2Proof.Machine

/-- The regions and `CALLS(D)` of a command (20_memory.md R54, R117). -/
def planOf (p : Config.Params) : Instr → Plan
  | .pad _ => padPlan
  | .halo _ => haloPlan
  | .strip _ => stripPlan
  | .sblur _ => scalarPlan .blur
  | .sgray _ => scalarPlan .gray
  | .ssharp _ => scalarPlan .sharp
  | .vblur t _ => vectorPlan p .blur t
  | .vgray t _ => vectorPlan p .gray t
  | .vsharp t _ => vectorPlan p .sharp t

/-- The plan that descriptor registers determine, when they hold a legal descriptor. -/
def planOfRegs (p : Config.Params) (d : DescRegs) : Option Plan :=
  match decode d.toDescriptor with
  | .error _ => none
  | .ok i => some (planOf p i)

/-- The plan of the latched command, when the registers hold a command that passes every check of R110. -/
def State.validPlan? (s : State) : Option Plan :=
  match planOfRegs s.params s.d with
  | none => none
  | some pl => if validate s.params s.d pl = none then some pl else none

/-- ISSUE(d) (R110), one atomic step. -/
def issue (d : Descriptor) (s : State) : State :=
  match decode d with
  | .error _ => (s.latch d).raiseError .illegalCommand
  | .ok i => issuePlan d (planOf s.params i) s

/-- The engine's turn (R118): STEP when BUSY; nothing is enabled otherwise. -/
def engineTurn (s : State) : Host.Outcome State Fault Refusal :=
  if s.state = .busy then
    match s.validPlan? with
    | some pl => .next (stepPlan pl s)
    | none => .fault .busyWithoutCommand
  else .next s

/-- RESET() (70_reset_and_hazards.md R250, R251). -/
def hostReset (s : State) : State :=
  if s.state = .busy then
    match planOfRegs s.params s.d with
    | some pl => (s.abandon s.d.dst (pl.regions s.d.w s.d.h).needDst).resetRegs
    | none => s.resetRegs
  else s.resetRegs

/-! ## The pseudo-commands of 30_encoding.md R90; `k` is SBLUR, VBLUR or VBLUR.T -/

/-- `K w, h, src, len=PB, dst`. -/
def pseudoKernel (k : Operands → Instr) (w h src dst : Nat) : Instr :=
  k { w := w, h := h, src := src, len := paddedBytes w h, dst := dst }

/-- `HALO w, h, dst`: src and len assemble to 0 (R89). -/
def pseudoHalo (w h dst : Nat) : Instr := .halo { w := w, h := h, src := 0, len := 0, dst := dst }

/-- `BLUR3.legacy K, w, h, a, b`. -/
def blur3Legacy (k : Operands → Instr) (w h a b : Nat) : List Instr :=
  [pseudoKernel k w h a b, pseudoHalo w h b, pseudoKernel k w h b b, pseudoKernel k w h b b]

/-- `BLUR3.clean K, w, h, a, b`. -/
def blur3Clean (k : Operands → Instr) (w h a b : Nat) : List Instr :=
  [pseudoKernel k w h a b, pseudoHalo w h b, pseudoKernel k w h b a, pseudoHalo w h a, pseudoKernel k w h a b]

end Sys2Proof.Machine
end

