-- ==== Sys2Proof/Machine/Dispatch.lean ====
section
/-! DEFINITION. One arm per command: ISSUE of the command and, when it is valid, all its STEPs
(40_command_lifecycle.md R110, R125). -/

namespace Sys2Proof.Machine

def exec (i : Instr) (s : State) : Host.Outcome State Fault Refusal :=
  match i with
  | .pad o => Sys2Proof.Machine.execPad o s
  | .halo o => Sys2Proof.Machine.execHalo o s
  | .strip o => Sys2Proof.Machine.execStrip o s
  | .sblur o => Sys2Proof.Machine.execSblur o s
  | .sgray o => Sys2Proof.Machine.execSgray o s
  | .ssharp o => Sys2Proof.Machine.execSsharp o s
  | .vblur tail o => Sys2Proof.Machine.execVblur tail o s
  | .vgray tail o => Sys2Proof.Machine.execVgray tail o s
  | .vsharp tail o => Sys2Proof.Machine.execVsharp tail o s

end Sys2Proof.Machine
end

