-- ==== Sys2Proof/Machine/Step.lean ====
section
/-! DEFINITION. One step of the two agents (10_state.md R20 to R22): the turn at the head of the inbox, or
the engine's. -/

namespace Sys2Proof.Machine

/-- A whole command (R125): an illegal descriptor ends in IllegalCommand (R110), a command runs. -/
def commandTurn (d : Descriptor) (s : State) : Host.Outcome State Fault Refusal :=
  match decode d with
  | .error _ => .next ((s.latch d).raiseError .illegalCommand)
  | .ok i => exec i s

/-- One step. An action of the host that BUSY disables stays at the head of the inbox and the engine moves
(10_state.md R21); STATUS and RESET are always enabled; with nothing in the inbox a BUSY engine moves and
an engine that is not BUSY waits (log 5). -/
def step (s : State) : Host.Outcome State Fault Refusal :=
  match s.inbox with
  | [] => engineTurn s
  | t :: rest =>
    let s1 := { s with inbox := rest }
    match t with
    | .issue d => if s.state = .busy then engineTurn s else .next (issue d s1)
    | .command d => if s.state = .busy then engineTurn s else commandTurn d s1
    | .hostRead addr n => if s.state = .busy then engineTurn s else .next (hostRead addr n s1)
    | .hostWrite addr bytes => if s.state = .busy then engineTurn s else .next (hostWrite addr bytes s1)
    | .status => .next (hostStatus s1)
    | .reset => .next (hostReset s1)
    | .engine => engineTurn s1

/-- `s` with the command whose low `nbits` bits are those of `w` (all others 0) as the next thing that
happens: at the head of the inbox, and with the engine not BUSY, so that it can be issued (log 11). -/
def State.withFetchWord (s : State) (nbits w : Nat) : State :=
  { s with
    inbox := .command (BitVec.ofNat 192 (w % 2 ^ nbits)) :: s.inbox
    state := if s.state = .busy then .idle else s.state }

end Sys2Proof.Machine
end

