-- ==== Sys2Proof/Safety.lean ====
section
/-! DEFINITION. The terms that claims use: what makes a command acceptable, said over its operands
(40_command_lifecycle.md R110 to R113), the border-replication invariant (41_padding.md R140), what a call
of a kernel pass sees (70_reset_and_hazards.md R256), the invariant of the state, and a safe run. -/

namespace Sys2Proof

/-! ## Acceptance, over the decoded operands -/

/-- `need_src` (20_memory.md R54). -/
def Instr.needSrc (i : Instr) (w h : Nat) : Nat :=
  match i with
  | .pad _ => 4 * w * h
  | .halo _ => 0
  | .strip _ => 4 * (w + 2) * (h + 2)
  | .sblur _ => 4 * (w + 2) * (h + 2)
  | .sgray _ => 4 * (w + 2) * (h + 2)
  | .ssharp _ => 4 * (w + 2) * (h + 2)
  | .vblur _ _ => 4 * (w + 2) * (h + 2)
  | .vgray _ _ => 4 * (w + 2) * (h + 2)
  | .vsharp _ _ => 4 * (w + 2) * (h + 2)

/-- `need_dst` (20_memory.md R54). -/
def Instr.needDst (i : Instr) (w h : Nat) : Nat :=
  match i with
  | .pad _ => 4 * (w + 2) * (h + 2)
  | .halo _ => 4 * (w + 2) * (h + 2)
  | .strip _ => 4 * w * h
  | .sblur _ => 4 * (w + 2) * (h + 2)
  | .sgray _ => 4 * (w + 2) * (h + 2)
  | .ssharp _ => 4 * (w + 2) * (h + 2)
  | .vblur _ _ => 4 * (w + 2) * (h + 2)
  | .vgray _ _ => 4 * (w + 2) * (h + 2)
  | .vsharp _ _ => 4 * (w + 2) * (h + 2)

/-- One of the six kernel commands (scalar and vector families). -/
def Instr.isKernel : Instr → Bool
  | .pad _ => false
  | .halo _ => false
  | .strip _ => false
  | .sblur _ => true
  | .sgray _ => true
  | .ssharp _ => true
  | .vblur _ _ => true
  | .vgray _ _ => true
  | .vsharp _ _ => true

/-- Every command but HALO has a source (R112, R113). -/
def Instr.hasSource : Instr → Bool
  | .halo _ => false
  | .pad _ => true
  | .strip _ => true
  | .sblur _ => true
  | .sgray _ => true
  | .ssharp _ => true
  | .vblur _ _ => true
  | .vgray _ _ => true
  | .vsharp _ _ => true

/-- The pixels that one call of a kernel command writes: 1 for a scalar command, P for a vector command
(40_command_lifecycle.md R117); 1 for the builder commands, which have no kernel. -/
def Instr.group (i : Instr) (p : Config.Params) : Nat :=
  match i with
  | .pad _ => 1
  | .halo _ => 1
  | .strip _ => 1
  | .sblur _ => 1
  | .sgray _ => 1
  | .ssharp _ => 1
  | .vblur _ _ => 2
  | .vgray _ _ => 4
  | .vsharp _ _ => p.pSharp.pixels

/-- `W` of a command, once positive. -/
def Instr.width (i : Instr) : Nat := i.operands.w.toNat
/-- `H` of a command, once positive. -/
def Instr.height (i : Instr) : Nat := i.operands.h.toNat

end Sys2Proof

namespace Sys2Proof.Machine

/-- The error that the checks of R111 to R113, in the order of R110, report for a legal command on a memory
of `memBytes` bytes; `none` when it is accepted. -/
def errorOf (memBytes : Nat) (i : Instr) : Option ErrCode :=
  let o := i.operands
  let needSrc := i.needSrc i.width i.height
  let needDst := i.needDst i.width i.height
  if o.w ≤ 0 ∨ o.h ≤ 0 ∨ 2 ^ 32 ≤ 4 * (o.w + 2) * (o.h + 2) then some .invalidDimensions
  else if i.hasSource ∧ (if memBytes ≤ o.src then 0 else min o.len (memBytes - o.src)) < needSrc then
    some .bufferTooSmall
  else if memBytes < o.dst + needDst then some .allocationFailure
  else if i.hasSource ∧ o.src < o.dst + needDst ∧ o.dst < o.src + needSrc
      ∧ ¬ (i.isKernel ∧ o.src = o.dst) then
    some .allocationFailure
  else none

/-- The six words of a command as the registers hold them after ISSUE (10_state.md R26, 30_encoding.md R82,
R84). -/
def regsOf (i : Instr) : DescRegs :=
  { ctl := i.opcode.matchWord ||| (if i.tail then 0x100 else 0)
    width := BitVec.ofInt 32 i.operands.w
    height := BitVec.ofInt 32 i.operands.h
    srcBase := BitVec.ofNat 32 i.operands.src
    srcLen := BitVec.ofNat 32 i.operands.len
    dstBase := BitVec.ofNat 32 i.operands.dst }

/-- The number of calls of a command (40_command_lifecycle.md R119). -/
def callCount (p : Config.Params) (i : Instr) : Nat :=
  let w := i.width
  let h := i.height
  let vector := fun (pp : Nat) (tail : Bool) => h * (w / pp + if tail then w % pp else 0)
  match i with
  | .pad _ => w * h + h + 2
  | .halo _ => h + 2
  | .strip _ => w * h
  | .sblur _ => w * h
  | .sgray _ => w * h
  | .ssharp _ => w * h
  | .vblur t _ => vector 2 t
  | .vgray t _ => vector 4 t
  | .vsharp t _ => vector p.pSharp.pixels t

/-- The state in which a command that was accepted in `s` ends, but for its memory
(40_command_lifecycle.md R125): the registers hold its words, STATE is DONE, ERR is 0, CALL_IDX is the
number of calls; nothing else changes. -/
def doneState (s : State) (i : Instr) (m : Memory) : State :=
  { s with
    mem := m
    d := regsOf i
    state := .done
    err := .none
    callIdx := BitVec.ofNat 32 (callCount s.params i) }

/-! ## Buffers -/

/-- `cell(x, y)` of a padded-shape buffer (41_padding.md R140). -/
def cell (m : Memory) (base w x y : Nat) : Pixel := m.readPix (px base w x y)

/-- The border-replication invariant (41_padding.md R140). -/
structure PaddedBuffer (m : Memory) (base w h : Nat) : Prop where
  i1 : ∀ y, 1 ≤ y → y ≤ h → cell m base w 0 y = cell m base w 1 y ∧ cell m base w (w + 1) y = cell m base w w y
  i2 : ∀ x, x ≤ w + 1 → cell m base w x 0 = cell m base w x 1 ∧ cell m base w x (h + 1) = cell m base w x h

/-- The byte address `a` lies in cell (x, y) of a padded-shape buffer. -/
abbrev inCell (base w x y a : Nat) : Prop := px base w x y ≤ a ∧ a < px base w x y + 4

/-- (x, y) is an interior cell (00_scope.md R14). -/
abbrev interior (w h x y : Nat) : Prop := 1 ≤ x ∧ x ≤ w ∧ 1 ≤ y ∧ y ≤ h

/-! ## What a kernel pass does. `pp` is the pixels per call; a scalar pass has pp = 1 -/

/-- Column x is in a group of pp columns, not a tail column (43_vector_kernels.md R184). -/
def grouped (pp w x : Nat) : Bool := decide (x ≤ w / pp * pp)

/-- Column x is written by the pass (R184). -/
def covered (pp : Nat) (tail : Bool) (w x : Nat) : Bool := tail || grouped pp w x

/-- The first column of the call that writes column x. -/
def callStart (pp w x : Nat) : Nat := if grouped pp w x then (x - 1) / pp * pp + 1 else x

/-- The pixel that the call starting at column x0 of row y0 reads at cell (x, y): with SRC = DST the new
value if an earlier call of the pass wrote that cell, the old one otherwise (70_reset_and_hazards.md
R256). -/
def seenPixel (o : Operands) (pp : Nat) (tail : Bool) (before after : Memory) (x0 y0 x y : Nat) : Pixel :=
  let w := o.w.toNat
  let h := o.h.toNat
  if o.src = o.dst ∧ (1 ≤ x ∧ x ≤ w ∧ 1 ≤ y ∧ y ≤ h) ∧ covered pp tail w x = true
      ∧ (y < y0 ∨ (y = y0 ∧ x < x0)) then
    cell after o.dst w x y
  else cell before o.src w x y

/-- The 3 × 3 block centred on cell (x, y) as the call that writes (x, y) sees it. -/
def seenBlock (o : Operands) (pp : Nat) (tail : Bool) (before after : Memory) (x y : Nat) : Block :=
  Block.ofFn fun dx dy =>
    seenPixel o pp tail before after (callStart pp o.w.toNat x) y ((x : Int) + dx).toNat ((y : Int) + dy).toNat

/-- The effect of a kernel pass on memory: `rel g b q` says that q is the output for block b, with g true
for a column of a group and false for a tail column; every byte outside the covered interior cells is
unchanged (40_command_lifecycle.md R121, R122). -/
def PassOutcome (o : Operands) (pp : Nat) (tail : Bool) (rel : Bool → Block → Pixel → Prop)
    (before after : Memory) : Prop :=
  (∀ x y, interior o.w.toNat o.h.toNat x y → covered pp tail o.w.toNat x = true →
    rel (grouped pp o.w.toNat x) (seenBlock o pp tail before after x y) (cell after o.dst o.w.toNat x y)) ∧
  ∀ a, (∀ x y, interior o.w.toNat o.h.toNat x y → covered pp tail o.w.toNat x = true →
      ¬ inCell o.dst o.w.toNat x y a) →
    after.read a = before.read a

/-! ## The invariant of the state -/

/-- The error that ISSUE reports for the registers' descriptor, `none` when it is accepted. -/
def regsError (p : Config.Params) (d : DescRegs) : Option ErrCode :=
  match decode d.toDescriptor with
  | .error _ => some .illegalCommand
  | .ok i => errorOf p.memBytes i

/-- The number of calls of the registers' command. -/
def regsCallCount (p : Config.Params) (d : DescRegs) : Nat :=
  match decode d.toDescriptor with
  | .error _ => 0
  | .ok i => callCount p i

/-- What every run keeps. -/
structure State.Inv (s : State) : Prop where
  /-- Memory is in its canonical form. -/
  memWf : s.mem.wf
  /-- Every listed byte exists (10_state.md R24). -/
  memBelow : s.mem.below s.params.memBytes
  /-- `ERR ≠ 0` exactly when `STATE = ERROR` (10_state.md R29). -/
  errIff : s.err ≠ .none ↔ s.state = .error
  /-- IDLE: nothing has been issued since reset (10_state.md R29, R35). -/
  idle : s.state = .idle → s.d = DescRegs.zero ∧ s.callIdx = 0
  /-- BUSY: a valid command is in progress, and CALL_IDX counts its calls (10_state.md R28, R29). -/
  busy : s.state = .busy → regsError s.params s.d = none ∧ s.callIdx.toNat ≤ regsCallCount s.params s.d
  /-- DONE: the last command ran all its calls (10_state.md R29). -/
  done : s.state = .done → regsError s.params s.d = none ∧ s.callIdx.toNat = regsCallCount s.params s.d
  /-- ERROR: the last command failed validation with ERR and ran no call (10_state.md R29,
  40_command_lifecycle.md R114). -/
  error : s.state = .error → regsError s.params s.d = some s.err ∧ s.callIdx = 0

/-- A run that never stops: no number of steps from `s` meets a fault or a refusal. -/
def SafeRun (s : State) : Prop := ∀ n, ∃ t, Host.Core.run Sys2Proof.core n s = .next t

end Sys2Proof.Machine
end

