-- ==== Sys2Proof/Certificates/Slice0/Obligations.lean ====
section
/-! DEFINITION. The statements for the provers. W and H of a command stand for `o.w.toNat` and `o.h.toNat`,
which an accepted command has positive. -/

open Sys2Proof Sys2Proof.Machine

/-! ## Encoding (30_encoding.md) -/

/-- Decode and encode agree: no bit of a well-formed command is dropped (R80 to R87). -/
def Obligations.DecodeUndoesEncode : Prop :=
  ∀ i : Instr, i.wellFormed = true → decode (encode i) = .ok i

/-- Each legal descriptor is the encoding of the one command it decodes to (R86: the decode is total, and
every value is exactly one command or illegal). -/
def Obligations.EncodeUndoesDecode : Prop :=
  ∀ (d : Descriptor) (i : Instr), decode d = .ok i → encode i = d ∧ i.wellFormed = true

/-- The decode algorithm of R87, over the bits of the descriptor. -/
def Obligations.DecodeFollowsTheAlgorithm : Prop :=
  ∀ d : Descriptor,
    let ctl : BitVec 32 := d.extractLsb' 0 32
    let op : BitVec 8 := ctl.extractLsb' 0 8
    let tail : Bool := ctl.getLsbD 8
    let ops : Operands :=
      { w := (d.extractLsb' 32 32).toInt, h := (d.extractLsb' 64 32).toInt
        src := (d.extractLsb' 96 32).toNat, len := (d.extractLsb' 128 32).toNat
        dst := (d.extractLsb' 160 32).toNat }
    (ctl.extractLsb' 9 23 ≠ 0 → ∃ e, decode d = .error e) ∧
    (op ∉ ([0x01, 0x02, 0x03, 0x10, 0x11, 0x12, 0x20, 0x21, 0x22] : List (BitVec 8)) →
      ∃ e, decode d = .error e) ∧
    (tail = true → op.extractLsb' 4 4 ≠ 2 → ∃ e, decode d = .error e) ∧
    (ctl.extractLsb' 9 23 = 0 → tail = false →
      (op = 0x01 → decode d = .ok (.pad ops)) ∧
      (op = 0x02 → decode d = .ok (.halo ops)) ∧
      (op = 0x03 → decode d = .ok (.strip ops)) ∧
      (op = 0x10 → decode d = .ok (.sblur ops)) ∧
      (op = 0x11 → decode d = .ok (.sgray ops)) ∧
      (op = 0x12 → decode d = .ok (.ssharp ops))) ∧
    (ctl.extractLsb' 9 23 = 0 →
      (op = 0x20 → decode d = .ok (.vblur tail ops)) ∧
      (op = 0x21 → decode d = .ok (.vgray tail ops)) ∧
      (op = 0x22 → decode d = .ok (.vsharp tail ops)))

/-- A descriptor is the command of a row of R84 exactly when `(word0 & mask) = match`, and illegal exactly
when word 0 is none of the twelve legal values (R84, R86). -/
def Obligations.DecodeIsTheMatchMaskTable : Prop :=
  ∀ d : Descriptor,
    (∀ c : Opcode, (∃ i, decode d = .ok i ∧ i.opcode = c) ↔
      d.extractLsb' 0 32 &&& c.maskWord = c.matchWord) ∧
    ((∃ e, decode d = .error e) ↔
      d.extractLsb' 0 32 ∉ ([0x001, 0x002, 0x003, 0x010, 0x011, 0x012, 0x020, 0x021, 0x022, 0x120, 0x121, 0x122] :
        List (BitVec 32)))

/-- A descriptor as 24 bytes: word 0 first, each word least significant byte first, with the example of
R81; the decoder of bytes reads the same command. -/
def Obligations.DescriptorBytesAreLittleEndian : Prop :=
  (∀ d : Descriptor,
    (Descriptor.bytes d).length = 24 ∧
    (∀ k j, k < 6 → j < 4 →
      (Descriptor.bytes d)[4 * k + j]? = some ((d.extractLsb' (32 * k) 32).extractLsb' (8 * j) 8)) ∧
    decodeBytes (Descriptor.bytes d) = decode d) ∧
  Descriptor.bytes (encode (.pad { w := 3, h := 2, src := 0, len := 24, dst := 0x100 })) =
    [0x01, 0x00, 0x00, 0x00, 0x03, 0x00, 0x00, 0x00, 0x02, 0x00, 0x00, 0x00, 0x00, 0x00, 0x00, 0x00,
      0x18, 0x00, 0x00, 0x00, 0x00, 0x01, 0x00, 0x00]

/-- A few words written out from R82, R84 and R89 decode to what they stand for. -/
def Obligations.SampleWordsDecode : Prop :=
  decode (Descriptor.ofWords 0x001 3 2 0 0x18 0x100) =
    .ok (.pad { w := 3, h := 2, src := 0, len := 24, dst := 256 }) ∧
  decode (Descriptor.ofWords 0x012 0xFFFFFFFF 2 0x100 0x50 0x200) =
    .ok (.ssharp { w := -1, h := 2, src := 256, len := 80, dst := 512 }) ∧
  decode (Descriptor.ofWords 0x121 5 1 0x100 0x54 0x200) =
    .ok (.vgray true { w := 5, h := 1, src := 256, len := 84, dst := 512 }) ∧
  decode (Descriptor.ofWords 0x221 4 1 0 0x48 0x100) = .error .reservedBits ∧
  decode (Descriptor.ofWords 0 0 0 0 0 0) = .error .unknownOpcode ∧
  decode (Descriptor.ofWords 0x110 1 1 0 0x24 0x40) = .error .tailOnNonVector

/-! ## Command lifecycle (40_command_lifecycle.md) -/

/-- ISSUE(d) when STATE is not BUSY: one step that latches the six words, sets CALL_IDX to 0 and either
starts the command or ends it with the first error, in the order IllegalCommand, InvalidDimensions,
BufferTooSmall, AllocationFailure; memory is not written (R110, R111, R112, R113, R223). -/
def Obligations.IssueLatchesAndValidates : Prop :=
  ∀ (s : State) (d : Descriptor) (rest : List Turn), s.inbox = .issue d :: rest → s.state ≠ .busy →
    let regs : DescRegs :=
      { ctl := d.extractLsb' 0 32, width := d.extractLsb' 32 32, height := d.extractLsb' 64 32
        srcBase := d.extractLsb' 96 32, srcLen := d.extractLsb' 128 32, dstBase := d.extractLsb' 160 32 }
    let err : Option ErrCode :=
      match decode d with
      | .error _ => some .illegalCommand
      | .ok i => errorOf s.params.memBytes i
    step s = .next
      { s with
        inbox := rest
        d := regs
        callIdx := 0
        state := if err = none then .busy else .error
        err := err.getD .none }

/-- Each of the nine commands that fails a check ends in ERROR with the code of the first failing check,
CALL_IDX 0, the descriptor kept in the registers, and nothing else changed: no call runs (R114, R224). -/
def Obligations.FailingCommandEndsInError : Prop :=
  ∀ (i : Instr) (s : State) (e : ErrCode), i.wellFormed = true → s.state ≠ .busy →
    errorOf s.params.memBytes i = some e →
    exec i s = .next { s with d := regsOf i, callIdx := 0, state := .error, err := e }

/-- R118: a BUSY engine performs its next call and adds 1 to CALL_IDX, or, after the last call, sets DONE;
from CALL_IDX 0 a command with n calls takes n + 1 steps. That a step with an empty inbox changes nothing while
the engine is not BUSY, where R118 enables no STEP, is the model's choice (log 5). -/
def Obligations.EngineTurnFollowsStep : Prop :=
  ∀ (s : State) (i : Instr), s.inbox = [] → decode s.d.toDescriptor = .ok i →
    errorOf s.params.memBytes i = none →
    let cs := (planOf s.params i).calls i.width i.height
    (s.state = .busy → ∀ c, cs[s.callIdx.toNat]? = some c →
      step s = .next { s with mem := c.run s.params s.d s.mem, callIdx := s.callIdx + 1 }) ∧
    (s.state = .busy → cs.length ≤ s.callIdx.toNat → step s = .next { s with state := .done }) ∧
    (s.state ≠ .busy → step s = .next s) ∧
    (s.state = .busy → s.callIdx = 0 →
      (∀ k, k ≤ cs.length → ∃ t : State, Host.Core.run Sys2Proof.core k s = .next t ∧ t.state = .busy) ∧
      ∃ t : State, Host.Core.run Sys2Proof.core (cs.length + 1) s = .next t ∧ t.state = .done)

/-- The call lists of R117, entry by entry: which call stands at which index, how many there are, and which
list is which command's. -/
def Obligations.CallListsAreTheLoopNests : Prop :=
  (∀ w h, (padCalls w h).length = w * h + h + 2 ∧
    (∀ x y, x < w → y < h → (padCalls w h)[y * w + x]? = some (.copyIn x y)) ∧
    (∀ y, y < h → (padCalls w h)[w * h + y]? = some (.hcol (y + 1))) ∧
    (padCalls w h)[w * h + h]? = some (.vrow 0 1) ∧
    (padCalls w h)[w * h + h + 1]? = some (.vrow (h + 1) h)) ∧
  (∀ h, (haloCalls h).length = h + 2 ∧
    (∀ y, y < h → (haloCalls h)[y]? = some (.hcol (y + 1))) ∧
    (haloCalls h)[h]? = some (.vrow 0 1) ∧ (haloCalls h)[h + 1]? = some (.vrow (h + 1) h)) ∧
  (∀ w h, (stripCalls w h).length = w * h ∧
    ∀ x y, x < w → y < h → (stripCalls w h)[y * w + x]? = some (.copyOut x y)) ∧
  (∀ k w h, (scalarCalls k w h).length = w * h ∧
    ∀ x y, x < w → y < h → (scalarCalls k w h)[y * w + x]? = some (.scall k (x + 1) (y + 1))) ∧
  (∀ k pp tail w h, 0 < pp →
    let row := w / pp + if tail then w % pp else 0
    (vectorCalls k pp tail w h).length = h * row ∧
    (∀ g y, g < w / pp → y < h → (vectorCalls k pp tail w h)[y * row + g]? = some (.vcall k (1 + g * pp) (y + 1))) ∧
    (tail = true → ∀ t y, t < w % pp → y < h →
      (vectorCalls k pp tail w h)[y * row + (w / pp + t)]? = some (.scall k (w / pp * pp + 1 + t) (y + 1)))) ∧
  ∀ (p : Config.Params) (o : Operands) (tail : Bool),
    (planOf p (.pad o)).calls = padCalls ∧
    (planOf p (.halo o)).calls = (fun _ h => haloCalls h) ∧
    (planOf p (.strip o)).calls = stripCalls ∧
    (planOf p (.sblur o)).calls = scalarCalls .blur ∧
    (planOf p (.sgray o)).calls = scalarCalls .gray ∧
    (planOf p (.ssharp o)).calls = scalarCalls .sharp ∧
    (planOf p (.vblur tail o)).calls = vectorCalls .blur 2 tail ∧
    (planOf p (.vgray tail o)).calls = vectorCalls .gray 4 tail ∧
    (planOf p (.vsharp tail o)).calls = vectorCalls .sharp p.pSharp.pixels tail

/-- The call counts of R119 and their bound: CALL_IDX never overflows 32 bits. -/
def Obligations.CallCountsAreBounded : Prop :=
  ∀ (p : Config.Params) (i : Instr), errorOf p.memBytes i = none →
    ((planOf p i).calls i.width i.height).length = callCount p i ∧
    callCount p i < (i.width + 2) * (i.height + 2) ∧
    (i.width + 2) * (i.height + 2) < 2 ^ 30

/-- The big-step form of R125: a whole command as one step ends in the state that ISSUE and then one turn of
the engine for each of its calls, and one more, end in; a command that fails validation is its ISSUE alone.
That the two grains are turns of an inbox is the model's form (logs 5 and 6). -/
def Obligations.CommandIsIssueThenItsCalls : Prop :=
  ∀ (s : State) (d : Descriptor) (rest : List Turn), s.inbox = .command d :: rest → s.state ≠ .busy →
    (∀ i, decode d = .ok i → errorOf s.params.memBytes i = none →
      step s = Host.Core.run Sys2Proof.core (callCount s.params i + 2)
        { s with inbox := .issue d :: (List.replicate (callCount s.params i + 1) .engine ++ rest) }) ∧
    (∀ i e, decode d = .ok i → errorOf s.params.memBytes i = some e →
      step s = step { s with inbox := .issue d :: rest }) ∧
    (∀ e, decode d = .error e → step s = step { s with inbox := .issue d :: rest })

/-- A step runs the decoded command: when the bytes of the next command decode to i, and the engine can take
it, step is exec of i on the state without that turn. -/
def Obligations.StepRunsTheDecodedCommand : Prop :=
  ∀ (s : State) (bs : List Byte) (i : Instr) (rest : List Turn), decodeBytes bs = .ok i →
    s.inbox = .command (BitVec.ofNat 192 (natOfBytes bs)) :: rest → s.state ≠ .busy →
    step s = exec i { s with inbox := rest }

/-- A word placed by `withFetchWord` is what the next step runs (log 11). -/
def Obligations.FetchWordRunsNext : Prop :=
  ∀ (s : State) (w : Nat) (i : Instr), decodeTableWord 192 w = some i →
    step (s.withFetchWord 192 w) = exec i { s with state := if s.state = .busy then .idle else s.state }

/-- Every command answers a next state in every state: nothing is refused and nothing faults. While BUSY that
state is the one it was given, the model's reading of a command that waits (log 7). -/
def Obligations.ExecAlwaysAnswers : Prop :=
  ∀ (i : Instr) (s : State), (∃ t, exec i s = .next t) ∧ (s.state = .busy → exec i s = .next s)

/-- While BUSY the host's ISSUE, HOST_READ and HOST_WRITE wait at the head of the inbox and the engine moves
as it would with an empty inbox (10_state.md R21, R22). -/
def Obligations.BusyHoldsHostActions : Prop :=
  ∀ (s t : State) (a : Turn) (rest : List Turn), s.inbox = a :: rest → s.state = .busy →
    ((∃ d, a = .issue d) ∨ (∃ d, a = .command d) ∨ (∃ x n, a = .hostRead x n) ∨ ∃ x bs, a = .hostWrite x bs) →
    step { s with inbox := [] } = .next t →
    step s = .next { t with inbox := a :: rest }

/-- From BUSY with a valid command and no action of the host pending, DONE is reached after the remaining
calls and one more step, and not before (40_command_lifecycle.md R119, R124; 70_reset_and_hazards.md R262). -/
def Obligations.BusyReachesDone : Prop :=
  ∀ s : State, s.Inv → s.state = .busy → s.inbox = [] →
    let n := regsCallCount s.params s.d - s.callIdx.toNat
    (∀ k, k ≤ n → ∃ t : State, Host.Core.run Sys2Proof.core k s = .next t ∧ t.state = .busy) ∧
    ∃ t : State, Host.Core.run Sys2Proof.core (n + 1) s = .next t ∧ t.state = .done ∧ t.d = s.d ∧ t.err = s.err ∧
      t.callIdx.toNat = regsCallCount s.params s.d

/-! ## Status, host accesses and reset (10_state.md, 60_exceptions.md, 70_reset_and_hazards.md) -/

/-- STATUS() is always enabled and returns the word of R30: [1:0] STATE, [3:2] 0, [6:4] ERR, [31:7] 0; nothing
but the reply changes. -/
def Obligations.StatusReturnsTheStatusWord : Prop :=
  ∀ (s : State) (rest : List Turn), s.inbox = .status :: rest →
    ∃ w : BitVec 32, step s = .next { s with inbox := rest, outbox := .status w :: s.outbox } ∧
      w.extractLsb' 0 2 = (match s.state with | .idle => 0 | .busy => 1 | .done => 2 | .error => 3 : BitVec 2) ∧
      w.extractLsb' 2 2 = 0 ∧
      w.extractLsb' 4 3 = (match s.err with
        | .none => 0 | .invalidDimensions => 1 | .bufferTooSmall => 2 | .allocationFailure => 3
        | .illegalCommand => 4 : BitVec 3) ∧
      w.extractLsb' 7 25 = 0

/-- HOST_READ and HOST_WRITE when STATE is not BUSY: an access inside memory returns or stores exactly its
bytes; any other is not accepted and nothing happens (R21; n ≥ 1 is R57, log 8). -/
def Obligations.HostAccessesMoveExactlyTheirBytes : Prop :=
  ∀ (s : State) (a : Nat) (rest : List Turn), s.state ≠ .busy →
    (∀ n, s.inbox = .hostRead a n :: rest →
      (1 ≤ n ∧ a + n ≤ s.params.memBytes →
        ∃ bs : List Byte, step s = .next { s with inbox := rest, outbox := .bytes bs :: s.outbox } ∧
          bs.length = n ∧ ∀ k, k < n → bs[k]? = some (s.mem.read (a + k))) ∧
      (¬ (1 ≤ n ∧ a + n ≤ s.params.memBytes) → step s = .next { s with inbox := rest })) ∧
    (∀ bs : List Byte, s.inbox = .hostWrite a bs :: rest →
      (1 ≤ bs.length ∧ a + bs.length ≤ s.params.memBytes →
        ∃ m : Memory, step s = .next { s with inbox := rest, mem := m } ∧
          (∀ k, k < bs.length → bs[k]? = some (m.read (a + k))) ∧
          ∀ x, x < a ∨ a + bs.length ≤ x → m.read x = s.mem.read x) ∧
      (¬ (1 ≤ bs.length ∧ a + bs.length ≤ s.params.memBytes) → step s = .next { s with inbox := rest }))

/-- RESET() when STATE is not BUSY: STATE IDLE, ERR 0, CALL_IDX 0, the six descriptor registers 0, IRQ low; no
byte of memory changes (R35, R250, R251). -/
def Obligations.ResetClearsTheRegisters : Prop :=
  ∀ (s : State) (rest : List Turn), s.inbox = .reset :: rest → s.state ≠ .busy →
    ∃ t, step s = .next t ∧ t.irq = false ∧
      t = { s with
        inbox := rest
        state := .idle
        err := .none
        callIdx := 0
        d := { ctl := 0, width := 0, height := 0, srcBase := 0, srcLen := 0, dstBase := 0 } }

/-- RESET() while BUSY: the registers as after any reset; every byte of the abandoned command's destination
region takes a free value, which nothing constrains (log 4); every byte outside it keeps its value (R251). -/
def Obligations.ResetWhileBusyLosesTheDestination : Prop :=
  ∀ (s : State) (i : Instr) (rest : List Turn), s.inbox = .reset :: rest → s.state = .busy →
    decode s.d.toDescriptor = .ok i →
    ∃ m : Memory,
      step s = .next
        { s with
          inbox := rest
          mem := m
          state := .idle
          err := .none
          callIdx := 0
          d := { ctl := 0, width := 0, height := 0, srcBase := 0, srcLen := 0, dstBase := 0 }
          freeCount := s.freeCount + 1 } ∧
      ∀ a, m.read a =
        if i.operands.dst ≤ a ∧ a < i.operands.dst + i.needDst i.width i.height then
          Config.freeByte s.freeCount a
        else s.mem.read a

/-- IRQ is high exactly in DONE and ERROR; it rises only in the completion STEP, a failing ISSUE or a whole
command, and falls only in an ISSUE that starts a valid command or at RESET (60_exceptions.md R226). -/
def Obligations.IrqRisesAndFallsWithCommands : Prop :=
  (∀ s : State, s.irq = true ↔ s.state = .done ∨ s.state = .error) ∧
  ∀ s t : State, step s = .next t →
    (s.irq = false → t.irq = true →
      (s.state = .busy ∧ t.state = .done) ∨
      (s.state ≠ .busy ∧ ∃ d rest, s.inbox = .issue d :: rest ∧ t.state = .error) ∨
      (s.state ≠ .busy ∧ ∃ d rest, s.inbox = .command d :: rest)) ∧
    (s.irq = true → t.irq = false →
      (∃ d rest, s.inbox = .issue d :: rest ∧ t.state = .busy) ∨
      ∃ rest, s.inbox = .reset :: rest)

/-! ## The machine as a whole -/

/-- Every step keeps the invariant of the state: canonical memory inside the address space, ERR ≠ 0 exactly in
ERROR, and what IDLE, BUSY, DONE and ERROR each say of the latched descriptor and CALL_IDX (R23 to R29). -/
def Obligations.StepKeepsTheInvariant : Prop :=
  ∀ s t : State, s.Inv → step s = .next t → t.Inv

/-- The reset state has the invariant. -/
def Obligations.ResetStateHasTheInvariant : Prop := State.reset.Inv

/-- From a state with the invariant no run faults or is refused: the fault of a BUSY engine without a valid
command is unreachable (R115; 93_implementation_defined.md: no stuck states). -/
def Obligations.InvariantRunsAreSafe : Prop :=
  ∀ s : State, s.Inv → SafeRun s

/-- STATE moves only as R29 says: IDLE, DONE and ERROR are left by a command or RESET, BUSY by the completion
STEP (to DONE, after the last call) or RESET, and BUSY is entered only by ISSUE. -/
def Obligations.StateMovesAsTabulated : Prop :=
  ∀ s t : State, step s = .next t → t.state ≠ s.state →
    (s.state = .busy →
      (t.state = .done ∧ t.mem = s.mem ∧ regsCallCount s.params s.d ≤ s.callIdx.toNat) ∨
      (t.state = .idle ∧ ∃ rest, s.inbox = .reset :: rest)) ∧
    (s.state ≠ .busy →
      (∃ d rest, s.inbox = .issue d :: rest ∧ (t.state = .busy ∨ t.state = .error)) ∨
      (∃ d rest, s.inbox = .command d :: rest ∧ (t.state = .done ∨ t.state = .error)) ∨
      (t.state = .idle ∧ ∃ rest, s.inbox = .reset :: rest))

/-- The descriptor registers and ERR change only in the step of an ISSUE that is enabled or of a RESET; no
access of the host and no STEP of the engine writes them (R26, R115). -/
def Obligations.DescriptorAndErrorChangeOnlyAtIssueOrReset : Prop :=
  ∀ s t : State, step s = .next t → (t.d ≠ s.d ∨ t.err ≠ s.err) →
    (s.state ≠ .busy ∧ ∃ d rest, s.inbox = .issue d :: rest ∨ s.inbox = .command d :: rest) ∨
    ∃ rest, s.inbox = .reset :: rest

/-- The parameters of the step relation do not change at run time (R34). -/
def Obligations.ParametersNeverChange : Prop :=
  ∀ s t : State, step s = .next t → t.params = s.params

/-- MemWrite stores its bytes at rising addresses and changes no other byte, MemRead returns what was stored,
the canonical form is kept, and memories that read alike are equal (00_scope.md R12; 20_memory.md R58, R61). -/
def Obligations.MemoryIsReadAsWritten : Prop :=
  (∀ (m : Memory) (a : Nat) (bs : List Byte),
    (m.writeBytes a bs).readBytes a bs.length = bs ∧
    (∀ x, x < a ∨ a + bs.length ≤ x → (m.writeBytes a bs).read x = m.read x) ∧
    (m.wf → (m.writeBytes a bs).wf)) ∧
  ∀ m m' : Memory, m.wf → m'.wf → (∀ a, m.read a = m'.read a) → m = m'

/-! ## Halo builder commands (41_padding.md) -/

/-- After PAD every interior cell is the source pixel as it was at issue, and the destination satisfies (I1)
and (I2); after HALO the interior is unchanged and (I1), (I2) hold. Both complete in DONE with their calls
counted and change no byte outside the destination region (R140, R144, R145, R147). -/
def Obligations.HaloBuilderPostcondition : Prop :=
  (∀ (o : Operands) (s : State), (Instr.pad o).wellFormed = true → s.state ≠ .busy →
    errorOf s.params.memBytes (.pad o) = none →
    ∃ m, exec (.pad o) s = .next (doneState s (.pad o) m) ∧
      (∀ x y, x < o.w.toNat → y < o.h.toNat →
        cell m o.dst o.w.toNat (x + 1) (y + 1) = s.mem.readPix (upx o.src o.w.toNat x y)) ∧
      PaddedBuffer m o.dst o.w.toNat o.h.toNat ∧
      ∀ a, a < o.dst ∨ o.dst + 4 * (o.w.toNat + 2) * (o.h.toNat + 2) ≤ a → m.read a = s.mem.read a) ∧
  (∀ (o : Operands) (s : State), (Instr.halo o).wellFormed = true → s.state ≠ .busy →
    errorOf s.params.memBytes (.halo o) = none →
    ∃ m, exec (.halo o) s = .next (doneState s (.halo o) m) ∧
      (∀ x y, interior o.w.toNat o.h.toNat x y → cell m o.dst o.w.toNat x y = cell s.mem o.dst o.w.toNat x y) ∧
      PaddedBuffer m o.dst o.w.toNat o.h.toNat ∧
      ∀ a, a < o.dst ∨ o.dst + 4 * (o.w.toNat + 2) * (o.h.toNat + 2) ≤ a → m.read a = s.mem.read a)

/-- STRIP completes, copies each interior cell to its place in the unpadded destination, and changes no byte
outside the 4WH bytes of the destination (R146). -/
def Obligations.StripCopiesTheInterior : Prop :=
  ∀ (o : Operands) (s : State), (Instr.strip o).wellFormed = true → s.state ≠ .busy →
    errorOf s.params.memBytes (.strip o) = none →
    ∃ m, exec (.strip o) s = .next (doneState s (.strip o) m) ∧
      (∀ x y, x < o.w.toNat → y < o.h.toNat →
        m.readPix (upx o.dst o.w.toNat x y) = cell s.mem o.src o.w.toNat (x + 1) (y + 1)) ∧
      ∀ a, a < o.dst ∨ o.dst + 4 * o.w.toNat * o.h.toNat ≤ a → m.read a = s.mem.read a

/-- HALO on a buffer that already is a PaddedBuffer changes no byte (R145). -/
def Obligations.HaloIsIdempotent : Prop :=
  ∀ (o : Operands) (s t : State), (Instr.halo o).wellFormed = true → s.state ≠ .busy →
    errorOf s.params.memBytes (.halo o) = none → PaddedBuffer s.mem o.dst o.w.toNat o.h.toNat →
    exec (.halo o) s = .next t → ∀ a, t.mem.read a = s.mem.read a

/-- HALO accepts any SRC_BASE and SRC_LEN, and they have no effect but to be latched (30_encoding.md R85). -/
def Obligations.HaloIgnoresItsSourceFields : Prop :=
  ∀ (o : Operands) (src len : Nat) (s : State),
    exec (.halo { o with src := src, len := len }) s =
      match exec (.halo o) s with
      | .next t =>
        if s.state = .busy then .next t
        else .next { t with d := { t.d with srcBase := BitVec.ofNat 32 src, srcLen := BitVec.ofNat 32 len } }
      | .fault f => .fault f
      | .refused r => .refused r

/-- PAD a → b, STRIP b → c, PAD c → d over pairwise disjoint regions: the bytes of c equal the bytes of a and
the bytes of d equal the bytes of b (R149). -/
def Obligations.PadStripRoundTrip : Prop :=
  ∀ (s s1 s2 s3 : State) (w h : Int) (la lb lc a b c d : Nat),
    let ub := 4 * w.toNat * h.toNat
    let pb := 4 * (w.toNat + 2) * (h.toNat + 2)
    let padAB : Instr := .pad { w := w, h := h, src := a, len := la, dst := b }
    let stripBC : Instr := .strip { w := w, h := h, src := b, len := lb, dst := c }
    let padCD : Instr := .pad { w := w, h := h, src := c, len := lc, dst := d }
    padAB.wellFormed = true → stripBC.wellFormed = true → padCD.wellFormed = true → s.state ≠ .busy →
    errorOf s.params.memBytes padAB = none → errorOf s.params.memBytes stripBC = none →
    errorOf s.params.memBytes padCD = none →
    (a + ub ≤ b ∨ b + pb ≤ a) → (a + ub ≤ c ∨ c + ub ≤ a) → (a + ub ≤ d ∨ d + pb ≤ a) →
    (b + pb ≤ c ∨ c + ub ≤ b) → (b + pb ≤ d ∨ d + pb ≤ b) → (c + ub ≤ d ∨ d + pb ≤ c) →
    exec padAB s = .next s1 → exec stripBC s1 = .next s2 → exec padCD s2 = .next s3 →
    (∀ k, k < ub → s3.mem.read (c + k) = s.mem.read (a + k)) ∧
    (∀ k, k < pb → s3.mem.read (d + k) = s1.mem.read (b + k)) ∧
    (∀ k, k < pb → s3.mem.read (b + k) = s1.mem.read (b + k))

/-! ## Scalar kernel commands (42_scalar_kernels.md). The statements hold disjoint and in place alike: which
pixels a call sees is `seenPixel` (70_reset_and_hazards.md R256). -/

/-- SBLUR completes; each channel of each interior cell is the floor of the nine-cell sum by 9, halo cells and
everything else are unchanged (R160 to R163). -/
def Obligations.SblurAveragesTheNeighbourhood : Prop :=
  ∀ (o : Operands) (s : State), (Instr.sblur o).wellFormed = true → s.state ≠ .busy →
    errorOf s.params.memBytes (.sblur o) = none →
    ∃ m, exec (.sblur o) s = .next (doneState s (.sblur o) m) ∧
      PassOutcome o 1 false (fun _ b q => ∀ c : Fin 4, (q.chan c).toNat =
        ((b.nw.chan c).toNat + (b.n.chan c).toNat + (b.ne.chan c).toNat
          + (b.w.chan c).toNat + (b.c.chan c).toNat + (b.e.chan c).toNat
          + (b.sw.chan c).toNat + (b.s.chan c).toNat + (b.se.chan c).toNat) / 9) s.mem m

/-- SGRAY completes; B, G and R of each interior cell are the luma of its centre pixel, A is kept (R164). -/
def Obligations.SgrayWritesTheLuma : Prop :=
  ∀ (o : Operands) (s : State), (Instr.sgray o).wellFormed = true → s.state ≠ .busy →
    errorOf s.params.memBytes (.sgray o) = none →
    ∃ m, exec (.sgray o) s = .next (doneState s (.sgray o) m) ∧
      PassOutcome o 1 false (fun _ b q =>
        q.b.toNat = (9 * b.c.b.toNat + 92 * b.c.g.toNat + 27 * b.c.r.toNat) / 128 ∧
        q.g = q.b ∧ q.r = q.b ∧ q.a = b.c.a) s.mem m

/-- SSHARP completes; each colour channel is 5 × centre less the four cross neighbours, clamped to 0..255, and
alpha is 255 (R165). -/
def Obligations.SsharpClampsTheCross : Prop :=
  ∀ (o : Operands) (s : State), (Instr.ssharp o).wellFormed = true → s.state ≠ .busy →
    errorOf s.params.memBytes (.ssharp o) = none →
    ∃ m, exec (.ssharp o) s = .next (doneState s (.ssharp o) m) ∧
      PassOutcome o 1 false (fun _ b q => q.a = 255 ∧ ∀ c : Fin 4, c ≠ 3 → ((q.chan c).toNat : Int) =
        max 0 (min 255 (5 * ((b.c.chan c).toNat : Int) - (b.e.chan c).toNat - (b.s.chan c).toNat
          - (b.w.chan c).toNat - (b.n.chan c).toNat))) s.mem m

/-- A uniform source (interior and halo all p), disjoint or in place: SBLUR gives p; SSHARP gives p with alpha
255; VBLUR gives p in every cell it writes, group or tail column, when RECIP9 = 7282, and in the group columns
each channel less one (0 stays 0) when RECIP9 = 7281 (42_scalar_kernels.md R167, 43_vector_kernels.md R191). -/
def Obligations.UniformImagesUnderTheKernels : Prop :=
  ∀ (o : Operands) (s : State) (p : Pixel), s.state ≠ .busy →
    (∀ x y, x ≤ o.w.toNat + 1 → y ≤ o.h.toNat + 1 → cell s.mem o.src o.w.toNat x y = p) →
    (∀ t, (Instr.sblur o).wellFormed = true → errorOf s.params.memBytes (.sblur o) = none →
      exec (.sblur o) s = .next t →
      ∀ x y, interior o.w.toNat o.h.toNat x y → cell t.mem o.dst o.w.toNat x y = p) ∧
    (∀ t, (Instr.ssharp o).wellFormed = true → errorOf s.params.memBytes (.ssharp o) = none →
      exec (.ssharp o) s = .next t →
      ∀ x y, interior o.w.toNat o.h.toNat x y → cell t.mem o.dst o.w.toNat x y = ⟨p.b, p.g, p.r, 255⟩) ∧
    (∀ tail t, (Instr.vblur tail o).wellFormed = true → errorOf s.params.memBytes (.vblur tail o) = none →
      s.params.recip9 = .r7282 → exec (.vblur tail o) s = .next t →
      ∀ x y, interior o.w.toNat o.h.toNat x y → covered 2 tail o.w.toNat x = true →
        cell t.mem o.dst o.w.toNat x y = p) ∧
    (∀ tail t, (Instr.vblur tail o).wellFormed = true → errorOf s.params.memBytes (.vblur tail o) = none →
      s.params.recip9 = .r7281 → exec (.vblur tail o) s = .next t →
      ∀ x y, interior o.w.toNat o.h.toNat x y → grouped 2 o.w.toNat x = true →
        ∀ c : Fin 4, ((cell t.mem o.dst o.w.toNat x y).chan c).toNat = (p.chan c).toNat - 1)

/-- Running SGRAY on a buffer that SGRAY produced changes no interior byte, and an in-place SGRAY gives the
interior of a double-buffered one (R168). -/
def Obligations.SgrayIsIdempotentAndImmuneInPlace : Prop :=
  (∀ (o : Operands) (len : Nat) (s t u : State), s.state ≠ .busy →
    let again : Operands := { o with src := o.dst, len := len }
    (Instr.sgray o).wellFormed = true → errorOf s.params.memBytes (.sgray o) = none →
    (Instr.sgray again).wellFormed = true → errorOf s.params.memBytes (.sgray again) = none →
    exec (.sgray o) s = .next t → exec (.sgray again) t = .next u →
    ∀ a, u.mem.read a = t.mem.read a) ∧
  (∀ (o : Operands) (s t u : State), s.state ≠ .busy →
    let inPlace : Operands := { o with dst := o.src }
    (Instr.sgray o).wellFormed = true → errorOf s.params.memBytes (.sgray o) = none →
    (Instr.sgray inPlace).wellFormed = true → errorOf s.params.memBytes (.sgray inPlace) = none →
    exec (.sgray o) s = .next t → exec (.sgray inPlace) s = .next u →
    ∀ x y, interior o.w.toNat o.h.toNat x y → cell u.mem o.src o.w.toNat x y = cell t.mem o.dst o.w.toNat x y)

/-! ## Vector kernel commands (43_vector_kernels.md) -/

/-- VBLUR completes; in the columns of its groups each channel is floor(sum × RECIP9 / 65536), in the tail
columns (TAIL = 1) the scalar blur, and everything else is unchanged (R184, R190). -/
def Obligations.VblurMultipliesByTheReciprocal : Prop :=
  ∀ (tail : Bool) (o : Operands) (s : State), (Instr.vblur tail o).wellFormed = true → s.state ≠ .busy →
    errorOf s.params.memBytes (.vblur tail o) = none →
    ∃ m, exec (.vblur tail o) s = .next (doneState s (.vblur tail o) m) ∧
      PassOutcome o 2 tail (fun g b q => ∀ c : Fin 4,
        let sum := (b.nw.chan c).toNat + (b.n.chan c).toNat + (b.ne.chan c).toNat
          + (b.w.chan c).toNat + (b.c.chan c).toNat + (b.e.chan c).toNat
          + (b.sw.chan c).toNat + (b.s.chan c).toNat + (b.se.chan c).toNat
        (q.chan c).toNat = if g then sum * s.params.recip9.value / 65536 else sum / 9) s.mem m

/-- VGRAY completes; B, G and R are the luma; A is the input alpha in tail columns and under PRESERVE, 255 in
the groups under FORCE255; everything else is unchanged (R184, R192). -/
def Obligations.VgrayWritesTheLuma : Prop :=
  ∀ (tail : Bool) (o : Operands) (s : State), (Instr.vgray tail o).wellFormed = true → s.state ≠ .busy →
    errorOf s.params.memBytes (.vgray tail o) = none →
    ∃ m, exec (.vgray tail o) s = .next (doneState s (.vgray tail o) m) ∧
      PassOutcome o 4 tail (fun g b q =>
        q.b.toNat = (9 * b.c.b.toNat + 92 * b.c.g.toNat + 27 * b.c.r.toNat) / 128 ∧ q.g = q.b ∧ q.r = q.b ∧
        q.a = if g = true ∧ s.params.grayAlpha = .force255 then 255 else b.c.a) s.mem m

/-- VSHARP completes, for each of the three group sizes; groups and tail columns get the clamped cross and
alpha 255, everything else is unchanged (R184, R194, R195). -/
def Obligations.VsharpClampsTheCross : Prop :=
  ∀ (tail : Bool) (o : Operands) (s : State), (Instr.vsharp tail o).wellFormed = true → s.state ≠ .busy →
    errorOf s.params.memBytes (.vsharp tail o) = none →
    ∃ m, exec (.vsharp tail o) s = .next (doneState s (.vsharp tail o) m) ∧
      PassOutcome o s.params.pSharp.pixels tail (fun _ b q => q.a = 255 ∧ ∀ c : Fin 4, c ≠ 3 →
        ((q.chan c).toNat : Int) =
          max 0 (min 255 (5 * ((b.c.chan c).toNat : Int) - (b.e.chan c).toNat - (b.s.chan c).toNat
            - (b.w.chan c).toNat - (b.n.chan c).toNat))) s.mem m

/-- The lane program of VBLUR computes blur_v of both its pixels (R182, R190, R197). -/
def Obligations.BlurLanesAreTheClosedForm : Prop :=
  ∀ (p : Config.Params) (d : DescRegs) (x y : Nat) (m : Memory), 1 ≤ x → 1 ≤ y →
    vectorBytes p d .blur x y m = (List.range 2).flatMap fun j =>
      (Pixel.ofFn fun c => BitVec.ofNat 8 ((sourceBlock d (x + j) y m).sum c * p.recip9.value / 65536)).bytes

/-- The lane program of VGRAY computes gray_v of its four pixels; under PRESERVE that is gray_s, bit for bit
(R182, R192, R193, R197). -/
def Obligations.GrayLanesAreTheClosedForm : Prop :=
  ∀ (p : Config.Params) (d : DescRegs) (x y : Nat) (m : Memory),
    vectorBytes p d .gray x y m = (List.range 4).flatMap fun j =>
      let q := grayS (m.readPix (px d.src d.w (x + j) y))
      ({ q with a := if p.grayAlpha = .force255 then 255 else q.a } : Pixel).bytes

/-- The lane program of VSHARP computes sharp_s of each of its P pixels, for every P (R182, R194, R195). -/
def Obligations.SharpLanesAreTheScalarSharpen : Prop :=
  ∀ (p : Config.Params) (d : DescRegs) (x y : Nat) (m : Memory), 1 ≤ x → 1 ≤ y →
    vectorBytes p d .sharp x y m = (List.range p.pSharp.pixels).flatMap fun j =>
      (sharpS (sourceBlock d (x + j) y m)).bytes

/-- On equal inputs (disjoint buffers) a VBLUR pass is never above the SBLUR pass and at most 1 below it, in
every channel of every cell it writes; with RECIP9 = 7282 it is equal; with 7281 it is less exactly in the
columns of its groups where the nine-cell sum is a positive multiple of 9 (R191; tail columns R184). -/
def Obligations.VblurIsWithinOneOfSblur : Prop :=
  ∀ (tail : Bool) (o : Operands) (s t u : State), (Instr.sblur o).wellFormed = true → s.state ≠ .busy →
    errorOf s.params.memBytes (.sblur o) = none → o.src ≠ o.dst →
    exec (.sblur o) s = .next t → exec (.vblur tail o) s = .next u →
    ∀ x y, interior o.w.toNat o.h.toNat x y → covered 2 tail o.w.toNat x = true → ∀ c : Fin 4,
      let sv := ((cell t.mem o.dst o.w.toNat x y).chan c).toNat
      let vv := ((cell u.mem o.dst o.w.toNat x y).chan c).toNat
      let sum := (Block.ofFn fun dx dy =>
        cell s.mem o.src o.w.toNat ((x : Int) + dx).toNat ((y : Int) + dy).toNat).sum c
      (s.params.recip9 = .r7282 → vv = sv) ∧
      (s.params.recip9 = .r7281 →
        vv = if grouped 2 o.w.toNat x = true ∧ 0 < sum ∧ sum % 9 = 0 then sv - 1 else sv) ∧
      vv ≤ sv ∧ sv ≤ vv + 1

/-- VGRAY.T under PRESERVE ends with the memory of SGRAY, byte for byte, in place or not (R193). -/
def Obligations.VgrayEqualsSgrayUnderPreserve : Prop :=
  ∀ (o : Operands) (s t u : State), (Instr.sgray o).wellFormed = true → s.state ≠ .busy →
    errorOf s.params.memBytes (.sgray o) = none → s.params.grayAlpha = .preserve →
    exec (.sgray o) s = .next t → exec (.vgray true o) s = .next u →
    ∀ a, u.mem.read a = t.mem.read a

/-- With P_SHARP = 1, VSHARP and SSHARP produce identical memory for identical descriptors apart from the
opcode, in place or not, with TAIL 0 or 1 (R195). -/
def Obligations.VsharpEqualsSsharpForGroupsOfOne : Prop :=
  ∀ (tail : Bool) (o : Operands) (s t u : State), (Instr.ssharp o).wellFormed = true → s.state ≠ .busy →
    errorOf s.params.memBytes (.ssharp o) = none → s.params.pSharp = .one →
    exec (.ssharp o) s = .next t → exec (.vsharp tail o) s = .next u →
    ∀ a, u.mem.read a = t.mem.read a

/-- Groups and tail columns (R184): when W is a multiple of P the two modes give the same memory; when W < P,
TAIL = 0 writes nothing and TAIL = 1 gives the memory of the scalar command. -/
def Obligations.TailModesAgreeAndDegenerate : Prop :=
  ∀ (o : Operands) (s : State) (v : Bool → Operands → Instr) (sc : Operands → Instr) (pp : Nat),
    (v = .vblur ∧ sc = .sblur ∧ pp = 2) ∨ (v = .vgray ∧ sc = .sgray ∧ pp = 4) ∨
      (v = .vsharp ∧ sc = .ssharp ∧ pp = s.params.pSharp.pixels) →
    o.wellFormed = true → s.state ≠ .busy → errorOf s.params.memBytes (sc o) = none →
    ∀ t0 t1 t2, exec (v false o) s = .next t0 → exec (v true o) s = .next t1 → exec (sc o) s = .next t2 →
      (o.w.toNat % pp = 0 → t0.mem = t1.mem) ∧
      (o.w.toNat < pp → t0.mem = s.mem ∧ t0.state = .done ∧ t0.callIdx = 0 ∧ t1.mem = t2.mem)

/-! ## Frames and independence across the commands -/

/-- Whatever a command does, it changes no byte outside its destination region, and no field but memory, the
descriptor registers, STATE, ERR and CALL_IDX (20_memory.md R54, 40_command_lifecycle.md R114, R125). -/
def Obligations.CommandsTouchOnlyTheirDestination : Prop :=
  ∀ (i : Instr) (s t : State), i.wellFormed = true → exec i s = .next t →
    (∀ a, a < i.operands.dst ∨ i.operands.dst + i.needDst i.width i.height ≤ a → t.mem.read a = s.mem.read a) ∧
    t = { s with mem := t.mem, d := t.d, state := t.state, err := t.err, callIdx := t.callIdx }

/-- A kernel command never writes a halo cell of its destination, and a vector command with TAIL = 0 never
writes a tail column (40_command_lifecycle.md R122, 43_vector_kernels.md R184). -/
def Obligations.KernelsKeepHaloAndTail : Prop :=
  ∀ (i : Instr) (s t : State), i.wellFormed = true → i.isKernel = true → exec i s = .next t →
    ∀ x y, x ≤ i.width + 1 → y ≤ i.height + 1 →
      ¬ (interior i.width i.height x y ∧ (i.tail = true ∨ x ≤ i.width / i.group s.params * i.group s.params)) →
      cell t.mem i.operands.dst i.width x y = cell s.mem i.operands.dst i.width x y

/-- Every call of an accepted command writes only inside its destination region, and what it leaves there
depends only on the bytes of its source and destination regions (20_memory.md R54). -/
def Obligations.CallsStayInTheirRegions : Prop :=
  ∀ (p : Config.Params) (i : Instr) (c : Call), i.wellFormed = true → errorOf p.memBytes i = none →
    c ∈ (planOf p i).calls i.width i.height →
    let inDst := fun a => i.operands.dst ≤ a ∧ a < i.operands.dst + i.needDst i.width i.height
    let inSrc := fun a => i.operands.src ≤ a ∧ a < i.operands.src + i.needSrc i.width i.height
    (∀ m a, ¬ inDst a → (c.run p (regsOf i) m).read a = m.read a) ∧
    ∀ m m' : Memory, (∀ a, inSrc a ∨ inDst a → m.read a = m'.read a) →
      ∀ a, inDst a → (c.run p (regsOf i) m).read a = (c.run p (regsOf i) m').read a

/-- A kernel pass over disjoint buffers is a function of its source buffer: two states whose memories agree on
the source region, whatever else they hold, end with the same pixel in every cell the pass writes
(40_command_lifecycle.md R123, 42_scalar_kernels.md R169). -/
def Obligations.KernelPassDependsOnSourceOnly : Prop :=
  ∀ (i : Instr) (s s' t t' : State), i.wellFormed = true → i.isKernel = true → i.operands.src ≠ i.operands.dst →
    s.state ≠ .busy → s'.state ≠ .busy → s.params = s'.params → errorOf s.params.memBytes i = none →
    (∀ a, i.operands.src ≤ a → a < i.operands.src + i.needSrc i.width i.height → s.mem.read a = s'.mem.read a) →
    exec i s = .next t → exec i s' = .next t' →
    ∀ x y, interior i.width i.height x y →
      (i.tail = true ∨ x ≤ i.width / i.group s.params * i.group s.params) →
      cell t.mem i.operands.dst i.width x y = cell t'.mem i.operands.dst i.width x y

/-- PAD's result does not depend on what the destination held, and HALO's does not depend on what the halo held
(41_padding.md R144, R145). -/
def Obligations.BuildersIgnoreOldHalo : Prop :=
  ∀ (o : Operands) (s s' t t' : State), s.state ≠ .busy → s'.state ≠ .busy → s.params = s'.params →
    ((Instr.pad o).wellFormed = true → errorOf s.params.memBytes (.pad o) = none →
      (∀ a, o.src ≤ a → a < o.src + 4 * o.w.toNat * o.h.toNat → s.mem.read a = s'.mem.read a) →
      exec (.pad o) s = .next t → exec (.pad o) s' = .next t' →
      ∀ a, o.dst ≤ a → a < o.dst + 4 * (o.w.toNat + 2) * (o.h.toNat + 2) → t.mem.read a = t'.mem.read a) ∧
    ((Instr.halo o).wellFormed = true → errorOf s.params.memBytes (.halo o) = none →
      (∀ x y, interior o.w.toNat o.h.toNat x y → cell s.mem o.dst o.w.toNat x y = cell s'.mem o.dst o.w.toNat x y) →
      exec (.halo o) s = .next t → exec (.halo o) s' = .next t' →
      ∀ a, o.dst ≤ a → a < o.dst + 4 * (o.w.toNat + 2) * (o.h.toNat + 2) → t.mem.read a = t'.mem.read a)
end

