-- ==== Sys2Proof/Laws/Config.lean ====
section
/-! SUPPORT. The numbers that the parameters with one legal value stand for (00_scope.md R8). -/

namespace Sys2Proof.Config

@[simp] theorem AddressWidth.bits_eq (a : AddressWidth) : a.bits = 32 := by cases a; rfl

@[simp] theorem VectorWidth.bits_eq (v : VectorWidth) : v.bits = 128 := by cases v; rfl

@[simp] theorem VectorWidth.lanes8_eq (v : VectorWidth) : v.lanes8 = 16 := by cases v; rfl

@[simp] theorem VectorWidth.lanes16_eq (v : VectorWidth) : v.lanes16 = 8 := by cases v; rfl

@[simp] theorem VectorWidth.lanes32_eq (v : VectorWidth) : v.lanes32 = 4 := by cases v; rfl

/-- `1 ≤ MEM_BYTES ≤ 2^ADDR_BITS`. -/
theorem Params.memBytes_range (p : Params) : 1 ≤ p.memBytes ∧ p.memBytes ≤ 2 ^ p.addrBits.bits := by
  have h : p.memTop.toNat < 2 ^ 32 := p.memTop.isLt
  simp only [memBytes, AddressWidth.bits_eq]
  omega

end Sys2Proof.Config
end

