-- ==== Sys2Proof/Laws/Memory.lean ====
section
/-! SUPPORT. Memory: reads after writes, the canonical form kept, and canonical memories that read alike
are equal. The read laws hold of every list, canonical or not. -/

namespace Sys2Proof.Machine

/-! ## One byte -/

@[simp] theorem Memory.read_nil (a : Nat) : Memory.read [] a = Memory.blank := rfl

theorem Memory.read_cons (k : Nat) (v : Byte) (m : Memory) (a : Nat) :
    Memory.read ((k, v) :: m) a = if k = a then v else Memory.read m a := rfl

/-- A memory that does not list an address reads as an unlisted byte there. -/
theorem Memory.read_unlisted (m : Memory) (a : Nat) (h : ∀ c ∈ m, c.1 ≠ a) : m.read a = Memory.blank := by
  induction m with
  | nil => rfl
  | cons c m ih =>
    obtain ⟨k, v⟩ := c
    rw [Memory.read_cons, if_neg (h (k, v) (by simp))]
    exact ih fun c hc => h c (by simp [hc])

theorem Memory.read_filter_other (m : Memory) (a b : Nat) (h : a ≠ b) :
    Memory.read (m.filter fun c => decide (c.1 ≠ a)) b = m.read b := by
  induction m with
  | nil => rfl
  | cons c m ih =>
    obtain ⟨k, v⟩ := c
    rw [List.filter_cons]
    split
    · rw [Memory.read_cons, Memory.read_cons, ih]
    · rename_i hk
      rw [ih, Memory.read_cons, if_neg (by simp only [decide_eq_true_eq, not_not] at hk; omega)]

theorem Memory.read_insert_same (m : Memory) (a : Nat) (v : Byte) (h : ∀ c ∈ m, c.1 ≠ a) :
    (Memory.insert a v m).read a = v := by
  induction m with
  | nil =>
    unfold Memory.insert
    split
    · rename_i hv; rw [hv]; rfl
    · simp [Memory.read_cons]
  | cons c m ih =>
    obtain ⟨k, w⟩ := c
    have hk : k ≠ a := h (k, w) (by simp)
    have ih := ih fun c hc => h c (by simp [hc])
    unfold Memory.insert
    split
    · rw [Memory.read_cons, if_neg hk, ih]
    · split
      · rename_i hv; rw [hv]; exact Memory.read_unlisted _ a h
      · simp [Memory.read_cons]

theorem Memory.read_insert_other (m : Memory) (a b : Nat) (v : Byte) (h : a ≠ b) :
    (Memory.insert a v m).read b = m.read b := by
  induction m with
  | nil =>
    unfold Memory.insert
    split
    · rfl
    · simp [Memory.read_cons, h]
  | cons c m ih =>
    obtain ⟨k, w⟩ := c
    unfold Memory.insert
    split
    · simp [Memory.read_cons, ih]
    · split
      · rfl
      · simp [Memory.read_cons, h]

/-- The byte written is the byte read. -/
@[simp] theorem Memory.read_write_same (m : Memory) (a : Nat) (v : Byte) : (m.write a v).read a = v :=
  Memory.read_insert_same _ a v fun c hc => by simpa using (List.mem_filter.1 hc).2

/-- A write leaves every other byte alone. -/
theorem Memory.read_write_other (m : Memory) (a b : Nat) (v : Byte) (h : a ≠ b) :
    (m.write a v).read b = m.read b := by
  unfold Memory.write
  rw [Memory.read_insert_other _ a b v h, Memory.read_filter_other m a b h]

theorem Memory.read_write (m : Memory) (a b : Nat) (v : Byte) :
    (m.write a v).read b = if a = b then v else m.read b := by
  by_cases h : a = b
  · subst h; simp
  · rw [if_neg h, Memory.read_write_other m a b v h]

/-! ## The canonical form -/

theorem Memory.mem_insert (m : Memory) (a : Nat) (v : Byte) (c : Host.Cell) (hc : c ∈ Memory.insert a v m) :
    c ∈ m ∨ (c = (a, v) ∧ v ≠ Memory.blank) := by
  induction m with
  | nil =>
    unfold Memory.insert at hc
    split at hc
    · simp at hc
    · exact .inr ⟨by simpa using hc, ‹_›⟩
  | cons e m ih =>
    obtain ⟨k, w⟩ := e
    unfold Memory.insert at hc
    split at hc
    · rcases List.mem_cons.1 hc with rfl | h
      · exact .inl (by simp)
      · rcases ih h with h | h
        · exact .inl (by simp [h])
        · exact .inr h
    · split at hc
      · exact .inl hc
      · rcases List.mem_cons.1 hc with h | h
        · exact .inr ⟨h, ‹_›⟩
        · exact .inl h

theorem Memory.insert_wf (m : Memory) (a : Nat) (v : Byte) (hm : m.wf) (h : ∀ c ∈ m, c.1 ≠ a) :
    (Memory.insert a v m).wf := by
  refine ⟨?_, ?_⟩
  · induction m with
    | nil => unfold Memory.insert; split <;> simp
    | cons e m ih =>
      obtain ⟨k, w⟩ := e
      have hk : k ≠ a := h (k, w) (by simp)
      have hp := List.pairwise_cons.1 hm.1
      have ih := ih ⟨hp.2, fun c hc => hm.2 c (by simp [hc])⟩ fun c hc => h c (by simp [hc])
      unfold Memory.insert
      split
      · rename_i hlt
        refine List.pairwise_cons.2 ⟨fun c hc => ?_, ih⟩
        rcases Memory.mem_insert m a v c hc with h | ⟨rfl, _⟩
        · exact hp.1 c h
        · exact hlt
      · split
        · exact hm.1
        · refine List.pairwise_cons.2 ⟨fun c hc => ?_, hm.1⟩
          rcases List.mem_cons.1 hc with rfl | hc
          · simp only; omega
          · have := hp.1 c hc
            simp only at this ⊢; omega
  · intro c hc
    rcases Memory.mem_insert m a v c hc with h | ⟨rfl, hv⟩
    · exact hm.2 c h
    · exact hv

theorem Memory.filter_wf (m : Memory) (f : Host.Cell → Bool) (hm : m.wf) : Memory.wf (m.filter f) :=
  ⟨hm.1.filter f, fun c hc => hm.2 c (List.mem_filter.1 hc).1⟩

/-- A write keeps the canonical form. -/
theorem Memory.write_wf (m : Memory) (a : Nat) (v : Byte) (hm : m.wf) : (m.write a v).wf :=
  Memory.insert_wf _ a v (Memory.filter_wf m _ hm) fun c hc => by simpa using (List.mem_filter.1 hc).2

/-- A write inside a bound lists nothing beyond it. -/
theorem Memory.write_below (m : Memory) (a : Nat) (v : Byte) (bound : Nat) (hm : m.below bound) (ha : a < bound) :
    (m.write a v).below bound := by
  intro c hc
  rcases Memory.mem_insert _ a v c hc with h | ⟨rfl, _⟩
  · exact hm c (List.mem_filter.1 h).1
  · exact ha

/-- Canonical memories that read alike at every address are equal. -/
theorem Memory.eq_of_read_eq (m m' : Memory) (hm : m.wf) (hm' : m'.wf) (h : ∀ a, m.read a = m'.read a) :
    m = m' := by
  induction m generalizing m' with
  | nil =>
    cases m' with
    | nil => rfl
    | cons e m' =>
      obtain ⟨k, v⟩ := e
      have := h k
      simp only [Memory.read_nil, Memory.read_cons, if_true] at this
      exact absurd this.symm (hm'.2 (k, v) (by simp))
  | cons c m ih =>
    obtain ⟨k, v⟩ := c
    have hv : v ≠ Memory.blank := hm.2 (k, v) (by simp)
    have hp := List.pairwise_cons.1 hm.1
    cases m' with
    | nil =>
      have := h k
      simp only [Memory.read_nil, Memory.read_cons, if_true] at this
      exact absurd this hv
    | cons e m' =>
      obtain ⟨k', v'⟩ := e
      have hv' : v' ≠ Memory.blank := hm'.2 (k', v') (by simp)
      have hp' := List.pairwise_cons.1 hm'.1
      have hk : k = k' := by
        rcases Nat.lt_trichotomy k k' with hlt | heq | hlt
        · exfalso
          have hr := h k
          rw [Memory.read_cons, if_pos rfl, Memory.read_cons, if_neg (by omega),
            Memory.read_unlisted m' k (fun c hc => by have := hp'.1 c hc; simp only at this; omega)] at hr
          exact hv hr
        · exact heq
        · exfalso
          have hr := h k'
          rw [Memory.read_cons, if_neg (by omega), Memory.read_cons, if_pos rfl,
            Memory.read_unlisted m k' (fun c hc => by have := hp.1 c hc; simp only at this; omega)] at hr
          exact hv' hr.symm
      subst hk
      have hvv : v = v' := by simpa [Memory.read_cons] using h k
      subst hvv
      have : m = m' := by
        refine ih m' ⟨hp.2, fun c hc => hm.2 c (by simp [hc])⟩ ⟨hp'.2, fun c hc => hm'.2 c (by simp [hc])⟩ ?_
        intro a
        by_cases ha : k = a
        · subst ha
          rw [Memory.read_unlisted m k (fun c hc => by have := hp.1 c hc; simp only at this; omega),
            Memory.read_unlisted m' k (fun c hc => by have := hp'.1 c hc; simp only at this; omega)]
        · simpa [Memory.read_cons, ha] using h a
      rw [this]

/-! ## Runs of bytes -/

@[simp] theorem Memory.writeBytes_nil (m : Memory) (a : Nat) : m.writeBytes a [] = m := rfl

theorem Memory.writeBytes_cons (m : Memory) (a : Nat) (b : Byte) (bs : List Byte) :
    m.writeBytes a (b :: bs) = (m.write a b).writeBytes (a + 1) bs := rfl

/-- Outside the written run every byte reads as before. -/
theorem Memory.read_writeBytes_outside (m : Memory) (a : Nat) (bs : List Byte) (x : Nat)
    (h : x < a ∨ a + bs.length ≤ x) : (m.writeBytes a bs).read x = m.read x := by
  induction bs generalizing m a with
  | nil => rfl
  | cons b bs ih =>
    simp only [List.length_cons] at h
    rw [Memory.writeBytes_cons, ih _ _ (by omega), Memory.read_write_other m a x b (by omega)]

/-- Byte k of the written run is the k-th byte written. -/
theorem Memory.read_writeBytes_inside (m : Memory) (a : Nat) (bs : List Byte) (k : Nat) (h : k < bs.length) :
    (m.writeBytes a bs).read (a + k) = bs[k] := by
  induction bs generalizing m a k with
  | nil => simp at h
  | cons b bs ih =>
    rw [Memory.writeBytes_cons]
    cases k with
    | zero =>
      rw [Memory.read_writeBytes_outside _ _ _ _ (by omega)]
      simp
    | succ k =>
      have := ih (m.write a b) (a + 1) k (by simpa using h)
      rw [show a + (k + 1) = a + 1 + k by omega, this]
      simp

/-- Everything a run of bytes does to a read. -/
theorem Memory.read_writeBytes (m : Memory) (a : Nat) (bs : List Byte) (x : Nat) :
    (m.writeBytes a bs).read x = if a ≤ x ∧ x < a + bs.length then bs.getD (x - a) 0 else m.read x := by
  split
  · rename_i h
    obtain ⟨k, rfl⟩ : ∃ k, x = a + k := ⟨x - a, by omega⟩
    have hk : k < bs.length := by omega
    rw [Memory.read_writeBytes_inside m a bs k hk, show a + k - a = k by omega]
    simp [List.getD, hk]
  · exact Memory.read_writeBytes_outside m a bs x (by omega)

theorem Memory.writeBytes_wf (m : Memory) (a : Nat) (bs : List Byte) (hm : m.wf) : (m.writeBytes a bs).wf := by
  induction bs generalizing m a with
  | nil => exact hm
  | cons b bs ih => exact ih _ _ (Memory.write_wf m a b hm)

theorem Memory.writeBytes_below (m : Memory) (a : Nat) (bs : List Byte) (bound : Nat) (hm : m.below bound)
    (h : a + bs.length ≤ bound) : (m.writeBytes a bs).below bound := by
  induction bs generalizing m a with
  | nil => exact hm
  | cons b bs ih =>
    simp only [List.length_cons] at h
    exact ih _ _ (Memory.write_below m a b bound hm (by omega)) (by omega)

@[simp] theorem Memory.length_readBytes (m : Memory) (a n : Nat) : (m.readBytes a n).length = n := by
  simp [Memory.readBytes]

theorem Memory.getElem_readBytes (m : Memory) (a n k : Nat) (h : k < (m.readBytes a n).length) :
    (m.readBytes a n)[k] = m.read (a + k) := by
  simp [Memory.readBytes]

/-! ## Pixels -/

@[simp] theorem Pixel.length_bytes (p : Pixel) : p.bytes.length = 4 := rfl

@[simp] theorem Pixel.chan_ofFn (f : Fin 4 → Byte) (c : Fin 4) : (Pixel.ofFn f).chan c = f c := by
  fin_cases c <;> rfl

theorem Pixel.ext_chan (p q : Pixel) (h : ∀ c, p.chan c = q.chan c) : p = q := by
  obtain ⟨b, g, r, a⟩ := p
  obtain ⟨b', g', r', a'⟩ := q
  have h0 : b = b' := h 0
  have h1 : g = g' := h 1
  have h2 : r = r' := h 2
  have h3 : a = a' := h 3
  rw [h0, h1, h2, h3]

@[simp] theorem Memory.chan_readPix (m : Memory) (a : Nat) (c : Fin 4) :
    (m.readPix a).chan c = m.read (a + c.val) := by
  fin_cases c <;> rfl

/-- The four bytes of a written pixel read back as that pixel. -/
@[simp] theorem Memory.readPix_writePix_same (m : Memory) (a : Nat) (p : Pixel) : (m.writePix a p).readPix a = p := by
  have h := fun k hk => Memory.read_writeBytes_inside m a p.bytes k hk
  have h0 := h 0 (by simp); have h1 := h 1 (by simp); have h2 := h 2 (by simp); have h3 := h 3 (by simp)
  simp only [Nat.add_zero] at h0
  unfold Memory.readPix Memory.writePix
  rw [h0, h1, h2, h3]
  rfl

theorem Memory.read_writePix_outside (m : Memory) (a : Nat) (p : Pixel) (x : Nat) (h : x < a ∨ a + 4 ≤ x) :
    (m.writePix a p).read x = m.read x :=
  Memory.read_writeBytes_outside m a p.bytes x h

theorem Memory.readPix_congr (m m' : Memory) (a : Nat) (h : ∀ x, a ≤ x → x < a + 4 → m.read x = m'.read x) :
    m.readPix a = m'.readPix a := by
  unfold Memory.readPix
  rw [h a (by omega) (by omega), h (a + 1) (by omega) (by omega), h (a + 2) (by omega) (by omega),
    h (a + 3) (by omega) (by omega)]

/-- A pixel that a run of bytes does not touch reads as before. -/
theorem Memory.readPix_writeBytes_outside (m : Memory) (a : Nat) (bs : List Byte) (x : Nat)
    (h : x + 4 ≤ a ∨ a + bs.length ≤ x) : (m.writeBytes a bs).readPix x = m.readPix x :=
  Memory.readPix_congr _ _ _ fun y _ _ => Memory.read_writeBytes_outside m a bs y (by omega)

end Sys2Proof.Machine
end

