-- ==== Sys2Proof/Laws/Lanes.lean ====
section
/-! SUPPORT. Lane primitives: how many lanes each gives, and what each gives on lanes in the ranges that the
kernels use (43_vector_kernels.md R197). -/

namespace Sys2Proof.Machine

/-! ## Lengths -/

@[simp] theorem length_widen8 (v : List Byte) : (widen8 v).length = v.length := by simp [widen8]

@[simp] theorem length_add16 (a b : List (BitVec 16)) : (add16 a b).length = min a.length b.length := by
  simp [add16]

@[simp] theorem length_sub16 (a b : List (BitVec 16)) : (sub16 a b).length = min a.length b.length := by
  simp [sub16]

@[simp] theorem length_mullo16 (a b : List (BitVec 16)) : (mullo16 a b).length = min a.length b.length := by
  simp [mullo16]

@[simp] theorem length_mulhiU16 (a b : List (BitVec 16)) : (mulhiU16 a b).length = min a.length b.length := by
  simp [mulhiU16]

@[simp] theorem length_packus16 (a b : List (BitVec 16)) : (packus16 a b).length = a.length + b.length := by
  simp [packus16]

@[simp] theorem length_packs32 (a b : List (BitVec 32)) : (packs32 a b).length = a.length + b.length := by
  simp [packs32]

@[simp] theorem length_sra32 (a : List (BitVec 32)) (n : Nat) : (sra32 a n).length = a.length := by simp [sra32]

@[simp] theorem length_or8 (a b : List Byte) : (or8 a b).length = min a.length b.length := by simp [or8]

@[simp] theorem length_and8 (a b : List Byte) : (and8 a b).length = min a.length b.length := by simp [and8]

@[simp] theorem length_lanes32to8 (v : List (BitVec 32)) : (lanes32to8 v).length = 4 * v.length := by
  induction v with
  | nil => rfl
  | cons a v ih => simp only [lanes32to8, List.length_cons, ih]; omega

/-- The constant vectors of R181 lane by lane. -/
theorem kLuma_eq (v : Config.VectorWidth) : kLuma v = [9, 92, 27, 0, 9, 92, 27, 0] := by cases v; rfl

theorem kAlpha_eq (v : Config.VectorWidth) : kAlpha v = [0, 0, 0, 255, 0, 0, 0, 255, 0, 0, 0, 255, 0, 0, 0, 255] := by
  cases v; rfl

theorem kRecip9_eq (v : Config.VectorWidth) (r : Config.Reciprocal) :
    kRecip9 v r = List.replicate 8 (BitVec.ofNat 16 r.value) := by cases v; rfl

@[simp] theorem length_kLuma (v : Config.VectorWidth) : (kLuma v).length = 8 := by rw [kLuma_eq]; rfl

@[simp] theorem length_kAlpha (v : Config.VectorWidth) : (kAlpha v).length = 16 := by rw [kAlpha_eq]; rfl

@[simp] theorem length_kFive (n : Nat) : (kFive n).length = n := by simp [kFive]

@[simp] theorem length_kRecip9 (v : Config.VectorWidth) (r : Config.Reciprocal) : (kRecip9 v r).length = 8 := by
  simp [kRecip9]

theorem length_madd16 (n : Nat) (a b : List (BitVec 16)) (ha : a.length = 2 * n) (hb : b.length = 2 * n) :
    (madd16 a b).length = n := by
  induction n generalizing a b with
  | zero => simp [List.length_eq_zero_iff.1 ha, madd16]
  | succ n ih =>
    match a, b, ha, hb with
    | a0 :: a1 :: as, b0 :: b1 :: bs, ha, hb =>
      simp only [List.length_cons] at ha hb
      simp only [madd16, List.length_cons, ih as bs (by omega) (by omega)]

theorem length_pairSums32 (n : Nat) (a : List (BitVec 32)) (ha : a.length = 2 * n) :
    (pairSums32 a).length = n := by
  induction n generalizing a with
  | zero => simp [List.length_eq_zero_iff.1 ha, pairSums32]
  | succ n ih =>
    match a, ha with
    | a0 :: a1 :: as, ha =>
      simp only [List.length_cons] at ha
      simp only [pairSums32, List.length_cons, ih as (by omega)]

/-- VBLUR writes 8 bytes. -/
theorem length_blurLanes (v : Config.VectorWidth) (r : Config.Reciprocal) (l0 l1 l2 : List Byte) (h0 : l0.length = 16)
    (h1 : l1.length = 16) (h2 : l2.length = 16) : (blurLanes v r l0 l1 l2).length = 8 := by
  simp [blurLanes, blurRow, h0, h1, h2, Config.channels, Config.pBlur]

/-- VGRAY writes 16 bytes. -/
theorem length_grayLanes (v : Config.VectorWidth) (ga : Config.GrayAlpha) (l : List Byte) (h : l.length = 16) :
    (grayLanes v ga l).length = 16 := by
  have h1 := length_madd16 4 (widen8 (l.take 8)) (kLuma v) (by simp [h]) (by simp)
  have h2 := length_madd16 4 (widen8 ((l.drop 8).take 8)) (kLuma v) (by simp [h]) (by simp)
  have h3 := length_pairSums32 2 _ h1
  have h4 := length_pairSums32 2 _ h2
  cases ga <;> simp [grayLanes, hadd32, repBgr, h3, h4, h, Config.pGray]

/-- VSHARP writes as many bytes as its centre group has, up to one vector. -/
theorem length_sharpLanes (v : Config.VectorWidth) (c e s w n : List Byte) (h : c.length ≤ 16) (he : e.length = c.length)
    (hs : s.length = c.length) (hw : w.length = c.length) (hn : n.length = c.length) :
    (sharpLanes v c e s w n).length = c.length := by
  simp only [sharpLanes, List.length_take, length_or8, length_packus16, length_sub16, length_mullo16,
    length_add16, length_widen8, length_kFive, length_kAlpha, he, hs, hw, hn]
  omega

theorem Config.SharpGroup.pixels_le (g : Config.SharpGroup) : 1 ≤ g.pixels ∧ g.pixels ≤ 4 := by
  cases g <;> decide

/-- A vector call writes 4 × P bytes (20_memory.md R57). -/
@[simp] theorem length_vectorBytes (p : Config.Params) (d : DescRegs) (k : Kernel) (x y : Nat) (m : Memory) :
    (vectorBytes p d k x y m).length = 4 * pixelsPerCall p k := by
  cases k with
  | blur => exact length_blurLanes _ _ _ _ _ (by simp) (by simp) (by simp)
  | gray => exact length_grayLanes _ _ _ (by simp)
  | sharp =>
    have := Config.SharpGroup.pixels_le p.pSharp
    simp only [vectorBytes, pixelsPerCall, Config.channels]
    rw [length_sharpLanes] <;> simp
    omega

/-! ## Values -/

/-- Clamping a value already in range changes nothing. -/
theorem clamp_of_range (n lo hi : Int) (h1 : lo ≤ n) (h2 : n ≤ hi) : clamp n lo hi = n := by
  unfold clamp; split
  · omega
  · split
    · omega
    · rfl

/-- A clamped value is in range. -/
theorem clamp_range (n lo hi : Int) (h : lo ≤ hi) : lo ≤ clamp n lo hi ∧ clamp n lo hi ≤ hi := by
  unfold clamp; split
  · omega
  · split <;> omega

/-- The clamp as a maximum and a minimum. -/
theorem clamp_eq (n lo hi : Int) (h : lo ≤ hi) : clamp n lo hi = max lo (min hi n) := by
  unfold clamp; split
  · omega
  · split <;> omega

/-- One lane of `packus16` when the lane holds the two's complement of n, n in the signed 16-bit range. -/
theorem packus_lane (n : Int) (h1 : -32768 ≤ n) (h2 : n ≤ 32767) :
    ((BitVec.ofInt 8 (clamp (BitVec.ofInt 16 n).toInt 0 255)).toNat : Int) = max 0 (min 255 n) := by
  have hn : (BitVec.ofInt 16 n).toInt = n := by
    rw [BitVec.toInt_ofInt]; exact Int.bmod_eq_of_le (by omega) (by omega)
  rw [hn, ← clamp_eq n 0 255 (by omega), BitVec.toNat_ofInt]
  have := clamp_range n 0 255 (by omega)
  omega

end Sys2Proof.Machine
end

