-- ==== Sys2Proof/Laws/Calls.lean ====
section
/-! SUPPORT. Calls: which bytes each call writes, that it changes no other byte, and what a list of calls
with disjoint writes does. -/

namespace Sys2Proof.Machine

/-! ## Cells of a padded-shape buffer -/

/-- Different cells of a padded-shape buffer do not share a byte. -/
theorem px_apart (base w x y x' y' : Nat) (hx : x ≤ w + 1) (hx' : x' ≤ w + 1) (h : x ≠ x' ∨ y ≠ y') :
    px base w x y + 4 ≤ px base w x' y' ∨ px base w x' y' + 4 ≤ px base w x y := by
  unfold px
  rcases Nat.lt_trichotomy y y' with hy | hy | hy
  · left
    have : (y + 1) * (w + 2) ≤ y' * (w + 2) := Nat.mul_le_mul_right _ hy
    rw [Nat.add_mul] at this; omega
  · subst hy; omega
  · right
    have : (y' + 1) * (w + 2) ≤ y * (w + 2) := Nat.mul_le_mul_right _ hy
    rw [Nat.add_mul] at this; omega

/-- Every cell lies inside its buffer (20_memory.md R52). -/
theorem px_inside (base w h x y : Nat) (hx : x ≤ w + 1) (hy : y ≤ h + 1) :
    base ≤ px base w x y ∧ px base w x y + 4 ≤ base + 4 * (w + 2) * (h + 2) := by
  unfold px
  refine ⟨by omega, ?_⟩
  have : (y + 1) * (w + 2) ≤ (h + 2) * (w + 2) := Nat.mul_le_mul_right _ (by omega)
  rw [Nat.add_mul] at this
  have e : 4 * (w + 2) * (h + 2) = 4 * ((h + 2) * (w + 2)) := by ring
  omega

/-- Different pixels of an unpadded buffer do not share a byte. -/
theorem upx_apart (base w x y x' y' : Nat) (hx : x < w) (hx' : x' < w) (h : x ≠ x' ∨ y ≠ y') :
    upx base w x y + 4 ≤ upx base w x' y' ∨ upx base w x' y' + 4 ≤ upx base w x y := by
  unfold upx
  rcases Nat.lt_trichotomy y y' with hy | hy | hy
  · left
    have : (y + 1) * w ≤ y' * w := Nat.mul_le_mul_right _ hy
    rw [Nat.add_mul] at this; omega
  · subst hy; omega
  · right
    have : (y' + 1) * w ≤ y * w := Nat.mul_le_mul_right _ hy
    rw [Nat.add_mul] at this; omega

/-- Every pixel lies inside its buffer (20_memory.md R51). -/
theorem upx_inside (base w h x y : Nat) (hx : x < w) (hy : y < h) :
    base ≤ upx base w x y ∧ upx base w x y + 4 ≤ base + 4 * w * h := by
  unfold upx
  refine ⟨by omega, ?_⟩
  have : (y + 1) * w ≤ h * w := Nat.mul_le_mul_right _ (by omega)
  rw [Nat.add_mul] at this
  have e : 4 * w * h = 4 * (h * w) := by ring
  omega

theorem px_succ (base w x y : Nat) : px base w (x + 1) y = px base w x y + 4 := by unfold px; omega

theorem px_add (base w x y j : Nat) : px base w (x + j) y = px base w x y + 4 * j := by unfold px; omega

/-- A byte of a padded-shape buffer lies in one of its cells. -/
theorem exists_cell (base w h a : Nat) (h1 : base ≤ a) (h2 : a < base + 4 * (w + 2) * (h + 2)) :
    ∃ x y, x ≤ w + 1 ∧ y ≤ h + 1 ∧ inCell base w x y a := by
  refine ⟨(a - base) / 4 % (w + 2), (a - base) / 4 / (w + 2), ?_, ?_, ?_⟩
  · have := Nat.mod_lt ((a - base) / 4) (show 0 < w + 2 by omega); omega
  · have e : 4 * (w + 2) * (h + 2) = 4 * ((w + 2) * (h + 2)) := by ring
    have : (a - base) / 4 / (w + 2) < h + 2 := Nat.div_lt_of_lt_mul (by omega)
    omega
  · unfold inCell px
    have := Nat.div_add_mod ((a - base) / 4) (w + 2)
    rw [Nat.mul_comm] at this
    omega

/-- A byte of an unpadded buffer lies in one of its pixels. -/
theorem exists_upixel (base w h a : Nat) (h1 : base ≤ a) (h2 : a < base + 4 * w * h) :
    ∃ x y, x < w ∧ y < h ∧ upx base w x y ≤ a ∧ a < upx base w x y + 4 := by
  have hw : 0 < w := by
    rcases Nat.eq_zero_or_pos w with h0 | h0
    · subst h0; simp at h2; omega
    · exact h0
  refine ⟨(a - base) / 4 % w, (a - base) / 4 / w, Nat.mod_lt _ hw, ?_, ?_⟩
  · have e : 4 * w * h = 4 * (w * h) := by ring
    exact Nat.div_lt_of_lt_mul (by omega)
  · unfold upx
    have := Nat.div_add_mod ((a - base) / 4) w
    rw [Nat.mul_comm] at this
    omega

/-! ## What one call writes -/

/-- The bytes that a call writes (40_command_lifecycle.md R116). -/
def Call.writes (p : Config.Params) (d : DescRegs) (c : Call) (a : Nat) : Prop :=
  match c with
  | .copyIn x y => inCell d.dst d.w (x + 1) (y + 1) a
  | .hcol y => inCell d.dst d.w 0 y a ∨ inCell d.dst d.w (d.w + 1) y a
  | .vrow yd _ => px d.dst d.w 0 yd ≤ a ∧ a < px d.dst d.w 0 yd + 4 * (d.w + 2)
  | .copyOut x y => upx d.dst d.w x y ≤ a ∧ a < upx d.dst d.w x y + 4
  | .scall _ x y => inCell d.dst d.w x y a
  | .vcall k x y => px d.dst d.w x y ≤ a ∧ a < px d.dst d.w x y + 4 * pixelsPerCall p k

/-- A call changes no byte but those it writes. -/
theorem Call.read_run_outside (p : Config.Params) (d : DescRegs) (c : Call) (m : Memory) (a : Nat)
    (h : ¬ c.writes p d a) : (c.run p d m).read a = m.read a := by
  cases c with
  | copyIn x y => exact Memory.read_writePix_outside _ _ _ _ (by simp only [Call.writes] at h; omega)
  | hcol y =>
    simp only [Call.writes] at h
    simp only [Call.run, callHcol]
    rw [Memory.read_writePix_outside _ _ _ _ (by omega), Memory.read_writePix_outside _ _ _ _ (by omega)]
  | vrow yd ys =>
    refine Memory.read_writeBytes_outside _ _ _ _ ?_
    simp only [Call.writes] at h
    rw [Memory.length_readBytes]; omega
  | copyOut x y => exact Memory.read_writePix_outside _ _ _ _ (by simp only [Call.writes] at h; omega)
  | scall k x y => exact Memory.read_writePix_outside _ _ _ _ (by simp only [Call.writes] at h; omega)
  | vcall k x y =>
    refine Memory.read_writeBytes_outside _ _ _ _ ?_
    simp only [Call.writes] at h
    rw [length_vectorBytes]; omega

/-- A call keeps the canonical form. -/
theorem Call.run_wf (p : Config.Params) (d : DescRegs) (c : Call) (m : Memory) (h : m.wf) : (c.run p d m).wf := by
  cases c with
  | hcol y => exact Memory.writeBytes_wf _ _ _ (Memory.writeBytes_wf _ _ _ h)
  | copyIn x y => exact Memory.writeBytes_wf _ _ _ h
  | vrow yd ys => exact Memory.writeBytes_wf _ _ _ h
  | copyOut x y => exact Memory.writeBytes_wf _ _ _ h
  | scall k x y => exact Memory.writeBytes_wf _ _ _ h
  | vcall k x y => exact Memory.writeBytes_wf _ _ _ h

/-! ## Lists of calls -/

theorem runCalls_append (p : Config.Params) (d : DescRegs) (cs cs' : List Call) (m : Memory) :
    runCalls p d (cs ++ cs') m = runCalls p d cs' (runCalls p d cs m) := by
  induction cs generalizing m with
  | nil => rfl
  | cons c cs ih => exact ih _

theorem runCalls_wf (p : Config.Params) (d : DescRegs) (cs : List Call) (m : Memory) (h : m.wf) :
    (runCalls p d cs m).wf := by
  induction cs generalizing m with
  | nil => exact h
  | cons c cs ih => exact ih _ (Call.run_wf p d c m h)

/-- A byte that no call of the list writes reads as before. -/
theorem read_runCalls_outside (p : Config.Params) (d : DescRegs) (cs : List Call) (m : Memory) (a : Nat)
    (h : ∀ c ∈ cs, ¬ c.writes p d a) : (runCalls p d cs m).read a = m.read a := by
  induction cs generalizing m with
  | nil => rfl
  | cons c cs ih =>
    rw [runCalls, ih _ fun c' hc' => h c' (by simp [hc']),
      Call.read_run_outside p d c m a (h c (by simp))]

/-- Everything about the place of one call in a list whose calls write disjoint bytes: the byte it writes
stays to the end; when it begins, a byte of an earlier call holds its final value and every other byte its
first (20_memory.md R61, 40_command_lifecycle.md R120). -/
theorem runCalls_at (p : Config.Params) (d : DescRegs) (pre post : List Call) (c : Call) (m : Memory)
    (hd : List.Pairwise (fun c c' => ∀ a, Call.writes p d c a → ¬ Call.writes p d c' a) (pre ++ c :: post)) :
    let mc := runCalls p d pre m
    let mf := runCalls p d (pre ++ c :: post) m
    (∀ a, c.writes p d a → mf.read a = (c.run p d mc).read a) ∧
    (∀ e ∈ pre, ∀ a, e.writes p d a → mc.read a = mf.read a) ∧
    (∀ a, (∀ e ∈ pre, ¬ e.writes p d a) → mc.read a = m.read a) := by
  obtain ⟨_, h2, h3⟩ := List.pairwise_append.1 hd
  have h2 := (List.pairwise_cons.1 h2).1
  refine ⟨?_, ?_, ?_⟩
  · intro a ha
    rw [runCalls_append, runCalls]
    exact read_runCalls_outside p d post _ a fun e he => h2 e he a ha
  · intro e he a ha
    rw [runCalls_append]
    exact (read_runCalls_outside p d (c :: post) _ a fun e' he' => h3 e he e' he' a ha).symm
  · intro a ha
    exact read_runCalls_outside p d pre m a ha

end Sys2Proof.Machine
end

