-- ==== Sys2Proof/Laws/Decode.lean ====
section
/-! SUPPORT. Words, registers and the descriptor: each word of a descriptor put together from six words, the
registers of an issued descriptor, and the numbers that a well-formed command's registers hold. -/

namespace Sys2Proof

theorem Descriptor.word_ofWords (w0 w1 w2 w3 w4 w5 : Word) :
    Descriptor.word 0 (Descriptor.ofWords w0 w1 w2 w3 w4 w5) = w0 ∧
    Descriptor.word 1 (Descriptor.ofWords w0 w1 w2 w3 w4 w5) = w1 ∧
    Descriptor.word 2 (Descriptor.ofWords w0 w1 w2 w3 w4 w5) = w2 ∧
    Descriptor.word 3 (Descriptor.ofWords w0 w1 w2 w3 w4 w5) = w3 ∧
    Descriptor.word 4 (Descriptor.ofWords w0 w1 w2 w3 w4 w5) = w4 ∧
    Descriptor.word 5 (Descriptor.ofWords w0 w1 w2 w3 w4 w5) = w5 := by
  unfold Descriptor.word Descriptor.ofWords
  refine ⟨?_, ?_, ?_, ?_, ?_, ?_⟩ <;>
  · apply BitVec.eq_of_getLsbD_eq
    intro j (hj : j < 32)
    simp only [BitVec.getLsbD_extractLsb', BitVec.getLsbD_append, Config.addrBits, hj, decide_true, Bool.true_and]
    repeat' split
    all_goals first | omega | exact congrArg _ (by omega)

/-- A descriptor is its six words. -/
theorem Descriptor.ofWords_word (d : Descriptor) :
    Descriptor.ofWords (Descriptor.word 0 d) (Descriptor.word 1 d) (Descriptor.word 2 d) (Descriptor.word 3 d)
      (Descriptor.word 4 d) (Descriptor.word 5 d) = d := by
  unfold Descriptor.word Descriptor.ofWords
  apply BitVec.eq_of_getLsbD_eq
  intro j hj
  simp only [BitVec.getLsbD_extractLsb', BitVec.getLsbD_append, Config.addrBits] at hj ⊢
  repeat' split
  all_goals
    rw [show decide (_ < 32) = true by simp only [decide_eq_true_eq]; omega, Bool.true_and]
    exact congrArg _ (by omega)

namespace Machine

@[simp] theorem DescRegs.toDescriptor_ofDescriptor (d : Descriptor) : (DescRegs.ofDescriptor d).toDescriptor = d :=
  Descriptor.ofWords_word d

/-- What the registers hold after a command is issued. -/
@[simp] theorem DescRegs.ofDescriptor_encode (i : Instr) : DescRegs.ofDescriptor (encode i) = regsOf i := by
  have h := Descriptor.word_ofWords i.ctl (BitVec.ofInt _ i.operands.w) (BitVec.ofInt _ i.operands.h)
    (BitVec.ofNat _ i.operands.src) (BitVec.ofNat _ i.operands.len) (BitVec.ofNat _ i.operands.dst)
  obtain ⟨h0, h1, h2, h3, h4, h5⟩ := h
  unfold DescRegs.ofDescriptor encode regsOf
  rw [h0, h1, h2, h3, h4, h5]
  rfl

theorem toInt_ofIntWord (n : Int) (h : fitsSignedWord n = true) : (BitVec.ofInt Config.addrBits n).toInt = n := by
  simp only [fitsSignedWord, Config.addrBits, Bool.and_eq_true, decide_eq_true_eq] at h
  rw [BitVec.toInt_ofInt, Config.addrBits]
  exact Int.bmod_eq_of_le (by omega) (by omega)

theorem toNat_ofNatWord (n : Nat) (h : fitsUnsignedWord n = true) : (BitVec.ofNat Config.addrBits n).toNat = n := by
  unfold fitsUnsignedWord at h
  simp only [decide_eq_true_eq] at h
  rw [BitVec.toNat_ofNat, Nat.mod_eq_of_lt h]

/-- The registers of a well-formed command stand for its operands. -/
theorem regsOf_operands (i : Instr) (h : i.wellFormed = true) :
    (regsOf i).wInt = i.operands.w ∧ (regsOf i).hInt = i.operands.h ∧ (regsOf i).src = i.operands.src ∧
    (regsOf i).len = i.operands.len ∧ (regsOf i).dst = i.operands.dst ∧ (regsOf i).w = i.width ∧
    (regsOf i).h = i.height := by
  unfold Instr.wellFormed Operands.wellFormed at h
  simp only [Bool.and_eq_true] at h
  obtain ⟨⟨⟨⟨hw, hh⟩, hs⟩, hl⟩, hd⟩ := h
  have e1 := toInt_ofIntWord _ hw
  have e2 := toInt_ofIntWord _ hh
  refine ⟨e1, e2, toNat_ofNatWord _ hs, toNat_ofNatWord _ hl, toNat_ofNatWord _ hd, ?_, ?_⟩
  · exact congrArg Int.toNat e1
  · exact congrArg Int.toNat e2

end Machine

end Sys2Proof
end

