-- ==== Sys2Proof/Laws/State.lean ====
section
/-! SUPPORT. One lemma per field per update of the state, so that no proof unfolds a record update. -/

namespace Sys2Proof.Machine

/-! ## latch -/

@[simp] theorem State.latch_mem (s : State) (d : Descriptor) : (s.latch d).mem = s.mem := rfl
@[simp] theorem State.latch_d (s : State) (d : Descriptor) : (s.latch d).d = DescRegs.ofDescriptor d := rfl
@[simp] theorem State.latch_state (s : State) (d : Descriptor) : (s.latch d).state = s.state := rfl
@[simp] theorem State.latch_err (s : State) (d : Descriptor) : (s.latch d).err = s.err := rfl
@[simp] theorem State.latch_callIdx (s : State) (d : Descriptor) : (s.latch d).callIdx = 0 := rfl
@[simp] theorem State.latch_params (s : State) (d : Descriptor) : (s.latch d).params = s.params := rfl
@[simp] theorem State.latch_inbox (s : State) (d : Descriptor) : (s.latch d).inbox = s.inbox := rfl
@[simp] theorem State.latch_outbox (s : State) (d : Descriptor) : (s.latch d).outbox = s.outbox := rfl
@[simp] theorem State.latch_freeCount (s : State) (d : Descriptor) : (s.latch d).freeCount = s.freeCount := rfl

/-! ## raiseError -/

@[simp] theorem State.raiseError_mem (s : State) (e : ErrCode) : (s.raiseError e).mem = s.mem := rfl
@[simp] theorem State.raiseError_d (s : State) (e : ErrCode) : (s.raiseError e).d = s.d := rfl
@[simp] theorem State.raiseError_state (s : State) (e : ErrCode) : (s.raiseError e).state = .error := rfl
@[simp] theorem State.raiseError_err (s : State) (e : ErrCode) : (s.raiseError e).err = e := rfl
@[simp] theorem State.raiseError_callIdx (s : State) (e : ErrCode) : (s.raiseError e).callIdx = 0 := rfl
@[simp] theorem State.raiseError_params (s : State) (e : ErrCode) : (s.raiseError e).params = s.params := rfl
@[simp] theorem State.raiseError_inbox (s : State) (e : ErrCode) : (s.raiseError e).inbox = s.inbox := rfl
@[simp] theorem State.raiseError_outbox (s : State) (e : ErrCode) : (s.raiseError e).outbox = s.outbox := rfl
@[simp] theorem State.raiseError_freeCount (s : State) (e : ErrCode) : (s.raiseError e).freeCount = s.freeCount := rfl

/-! ## start -/

@[simp] theorem State.start_mem (s : State) : s.start.mem = s.mem := rfl
@[simp] theorem State.start_d (s : State) : s.start.d = s.d := rfl
@[simp] theorem State.start_state (s : State) : s.start.state = .busy := rfl
@[simp] theorem State.start_err (s : State) : s.start.err = .none := rfl
@[simp] theorem State.start_callIdx (s : State) : s.start.callIdx = s.callIdx := rfl
@[simp] theorem State.start_params (s : State) : s.start.params = s.params := rfl
@[simp] theorem State.start_inbox (s : State) : s.start.inbox = s.inbox := rfl
@[simp] theorem State.start_outbox (s : State) : s.start.outbox = s.outbox := rfl
@[simp] theorem State.start_freeCount (s : State) : s.start.freeCount = s.freeCount := rfl

/-! ## hostStatus -/

@[simp] theorem hostStatus_mem (s : State) : (hostStatus s).mem = s.mem := rfl
@[simp] theorem hostStatus_d (s : State) : (hostStatus s).d = s.d := rfl
@[simp] theorem hostStatus_state (s : State) : (hostStatus s).state = s.state := rfl
@[simp] theorem hostStatus_err (s : State) : (hostStatus s).err = s.err := rfl
@[simp] theorem hostStatus_callIdx (s : State) : (hostStatus s).callIdx = s.callIdx := rfl
@[simp] theorem hostStatus_params (s : State) : (hostStatus s).params = s.params := rfl
@[simp] theorem hostStatus_inbox (s : State) : (hostStatus s).inbox = s.inbox := rfl
@[simp] theorem hostStatus_outbox (s : State) : (hostStatus s).outbox = .status s.statusWord :: s.outbox := rfl
@[simp] theorem hostStatus_freeCount (s : State) : (hostStatus s).freeCount = s.freeCount := rfl

/-! ## resetRegs and abandon -/

@[simp] theorem State.resetRegs_mem (s : State) : s.resetRegs.mem = s.mem := rfl
@[simp] theorem State.resetRegs_d (s : State) : s.resetRegs.d = DescRegs.zero := rfl
@[simp] theorem State.resetRegs_state (s : State) : s.resetRegs.state = .idle := rfl
@[simp] theorem State.resetRegs_err (s : State) : s.resetRegs.err = .none := rfl
@[simp] theorem State.resetRegs_callIdx (s : State) : s.resetRegs.callIdx = 0 := rfl
@[simp] theorem State.resetRegs_params (s : State) : s.resetRegs.params = s.params := rfl
@[simp] theorem State.resetRegs_inbox (s : State) : s.resetRegs.inbox = s.inbox := rfl
@[simp] theorem State.resetRegs_outbox (s : State) : s.resetRegs.outbox = s.outbox := rfl
@[simp] theorem State.resetRegs_freeCount (s : State) : s.resetRegs.freeCount = s.freeCount := rfl

@[simp] theorem State.abandon_d (s : State) (a n : Nat) : (s.abandon a n).d = s.d := rfl
@[simp] theorem State.abandon_state (s : State) (a n : Nat) : (s.abandon a n).state = s.state := rfl
@[simp] theorem State.abandon_err (s : State) (a n : Nat) : (s.abandon a n).err = s.err := rfl
@[simp] theorem State.abandon_callIdx (s : State) (a n : Nat) : (s.abandon a n).callIdx = s.callIdx := rfl
@[simp] theorem State.abandon_params (s : State) (a n : Nat) : (s.abandon a n).params = s.params := rfl
@[simp] theorem State.abandon_inbox (s : State) (a n : Nat) : (s.abandon a n).inbox = s.inbox := rfl
@[simp] theorem State.abandon_outbox (s : State) (a n : Nat) : (s.abandon a n).outbox = s.outbox := rfl
@[simp] theorem State.abandon_freeCount (s : State) (a n : Nat) :
    (s.abandon a n).freeCount = s.freeCount + 1 := rfl
@[simp] theorem State.abandon_mem (s : State) (a n : Nat) : (s.abandon a n).mem =
    s.mem.writeBytes a ((List.range n).map fun i => Config.freeByte s.freeCount (a + i)) := rfl

/-! ## hostRead and hostWrite -/

@[simp] theorem hostRead_mem (a n : Nat) (s : State) : (hostRead a n s).mem = s.mem := by
  unfold hostRead; split <;> rfl
@[simp] theorem hostRead_d (a n : Nat) (s : State) : (hostRead a n s).d = s.d := by
  unfold hostRead; split <;> rfl
@[simp] theorem hostRead_state (a n : Nat) (s : State) : (hostRead a n s).state = s.state := by
  unfold hostRead; split <;> rfl
@[simp] theorem hostRead_err (a n : Nat) (s : State) : (hostRead a n s).err = s.err := by
  unfold hostRead; split <;> rfl
@[simp] theorem hostRead_callIdx (a n : Nat) (s : State) : (hostRead a n s).callIdx = s.callIdx := by
  unfold hostRead; split <;> rfl
@[simp] theorem hostRead_params (a n : Nat) (s : State) : (hostRead a n s).params = s.params := by
  unfold hostRead; split <;> rfl
@[simp] theorem hostRead_inbox (a n : Nat) (s : State) : (hostRead a n s).inbox = s.inbox := by
  unfold hostRead; split <;> rfl

@[simp] theorem hostWrite_d (a : Nat) (bs : List Byte) (s : State) : (hostWrite a bs s).d = s.d := by
  unfold hostWrite; split <;> rfl
@[simp] theorem hostWrite_state (a : Nat) (bs : List Byte) (s : State) : (hostWrite a bs s).state = s.state := by
  unfold hostWrite; split <;> rfl
@[simp] theorem hostWrite_err (a : Nat) (bs : List Byte) (s : State) : (hostWrite a bs s).err = s.err := by
  unfold hostWrite; split <;> rfl
@[simp] theorem hostWrite_callIdx (a : Nat) (bs : List Byte) (s : State) :
    (hostWrite a bs s).callIdx = s.callIdx := by
  unfold hostWrite; split <;> rfl
@[simp] theorem hostWrite_params (a : Nat) (bs : List Byte) (s : State) :
    (hostWrite a bs s).params = s.params := by
  unfold hostWrite; split <;> rfl
@[simp] theorem hostWrite_inbox (a : Nat) (bs : List Byte) (s : State) : (hostWrite a bs s).inbox = s.inbox := by
  unfold hostWrite; split <;> rfl

/-- HOST_WRITE changes memory by one write inside it, or not at all. -/
theorem hostWrite_mem (a : Nat) (bs : List Byte) (s : State) :
    (hostWrite a bs s).mem = s.mem ∨
      (a + bs.length ≤ s.params.memBytes ∧ (hostWrite a bs s).mem = s.mem.writeBytes a bs) := by
  unfold hostWrite accessOk
  split
  · rename_i h
    simp only [Bool.and_eq_true, decide_eq_true_eq] at h
    exact .inr ⟨h.2, rfl⟩
  · exact .inl rfl

/-! ## hostReset -/

@[simp] theorem hostReset_d (s : State) : (hostReset s).d = DescRegs.zero := by
  unfold hostReset; split
  · split <;> rfl
  · rfl
@[simp] theorem hostReset_state (s : State) : (hostReset s).state = .idle := by
  unfold hostReset; split
  · split <;> rfl
  · rfl
@[simp] theorem hostReset_err (s : State) : (hostReset s).err = .none := by
  unfold hostReset; split
  · split <;> rfl
  · rfl
@[simp] theorem hostReset_callIdx (s : State) : (hostReset s).callIdx = 0 := by
  unfold hostReset; split
  · split <;> rfl
  · rfl
@[simp] theorem hostReset_params (s : State) : (hostReset s).params = s.params := by
  unfold hostReset; split
  · split <;> rfl
  · rfl
@[simp] theorem hostReset_inbox (s : State) : (hostReset s).inbox = s.inbox := by
  unfold hostReset; split
  · split <;> rfl
  · rfl

end Sys2Proof.Machine
end

