-- ==== Sys2Proof/Laws/Lifecycle.lean ====
section
/-! SUPPORT. The lifecycle: the checks over operands and over registers agree, everything ISSUE, a whole
command, the engine's turn and a step can do. -/

namespace Sys2Proof.Machine

/-! ## The checks -/

theorem planOf_regions (p : Config.Params) (i : Instr) (w h : Nat) :
    ((planOf p i).regions w h).needSrc = i.needSrc w h ∧ ((planOf p i).regions w h).needDst = i.needDst w h ∧
    ((planOf p i).regions w h).overlap =
      if i.hasSource then (if i.isKernel then .disjointOrInPlace else .disjoint) else .noSource := by
  cases i <;> exact ⟨rfl, rfl, rfl⟩

/-- The checks on the registers of a well-formed command are the checks on its operands. -/
theorem validate_regsOf (p : Config.Params) (i : Instr) (h : i.wellFormed = true) :
    validate p (regsOf i) (planOf p i) = errorOf p.memBytes i := by
  obtain ⟨hw, hh, hs, hl, hd, hw', hh'⟩ := regsOf_operands i h
  obtain ⟨r1, r2, r3⟩ := planOf_regions p i i.width i.height
  unfold validate errorOf sourceOk destinationOk dimensionsOk effLen regionsOverlap
  rw [hw', hh', hw, hh, hs, hl, hd, r1, r2, r3, Config.AddressWidth.bits_eq]
  by_cases c1 : i.operands.w ≤ 0 ∨ i.operands.h ≤ 0 ∨ 2 ^ 32 ≤ 4 * (i.operands.w + 2) * (i.operands.h + 2)
  · rw [if_pos c1, if_pos]
    simp only [Bool.and_eq_false_iff, decide_eq_false_iff_not, not_lt]
    tauto
  · rw [if_neg c1, if_neg (by
      simp only [Bool.and_eq_false_iff, decide_eq_false_iff_not, not_lt]
      tauto)]
    cases hsrc : i.hasSource <;> cases hk : i.isKernel <;>
      simp only [Bool.false_eq_true, if_true, if_false, false_and, true_and,
        not_false_eq_true, and_true, Bool.and_true, decide_eq_false_iff_not, not_le,
        Bool.and_eq_false_iff, Bool.or_eq_false_iff, Bool.not_eq_false', Bool.and_eq_true, decide_eq_true_eq]
    all_goals
      repeat' split
      all_goals first | rfl | (exfalso; tauto)

/-- The dimensions of an accepted command. -/
theorem dimensions_of_accepted (memBytes : Nat) (i : Instr) (h : errorOf memBytes i = none) :
    (i.width : Int) = i.operands.w ∧ (i.height : Int) = i.operands.h ∧ 1 ≤ i.width ∧ 1 ≤ i.height ∧
    4 * (i.width + 2) * (i.height + 2) < 2 ^ 32 := by
  unfold errorOf at h
  simp only at h
  split at h
  · cases h
  · rename_i c
    simp only [not_or, not_le] at c
    have e1 : (i.width : Int) = i.operands.w := Int.toNat_of_nonneg (by omega)
    have e2 : (i.height : Int) = i.operands.h := Int.toNat_of_nonneg (by omega)
    refine ⟨e1, e2, by omega, by omega, ?_⟩
    have := c.2.2
    rw [← e1, ← e2] at this
    exact_mod_cast this

/-- The regions of an accepted command (20_memory.md R54, R55). -/
theorem regions_of_accepted (memBytes : Nat) (i : Instr) (h : errorOf memBytes i = none) :
    i.operands.dst + i.needDst i.width i.height ≤ memBytes ∧
    (i.hasSource = true → i.operands.src + i.needSrc i.width i.height ≤ memBytes ∧
      (i.operands.src + i.needSrc i.width i.height ≤ i.operands.dst ∨
        i.operands.dst + i.needDst i.width i.height ≤ i.operands.src ∨
        (i.isKernel = true ∧ i.operands.src = i.operands.dst))) := by
  obtain ⟨_, _, w1, h1, _⟩ := dimensions_of_accepted memBytes i h
  have hnone : ∀ (P Q : Prop) [Decidable P] [Decidable Q] (e f : ErrCode) (r : Option ErrCode),
      (if P then some e else if Q then some f else r) = none → ¬ P ∧ ¬ Q ∧ r = none := by
    intro P Q _ _ e f r hr
    by_cases hP : P
    · rw [if_pos hP] at hr; cases hr
    · rw [if_neg hP] at hr
      by_cases hQ : Q
      · rw [if_pos hQ] at hr; cases hr
      · rw [if_neg hQ] at hr; exact ⟨hP, hQ, hr⟩
  obtain ⟨_, c2, hr⟩ := hnone _ _ _ _ _ h
  obtain ⟨c3, c4, _⟩ := hnone _ _ _ _ _ hr
  refine ⟨by omega, fun hs => ?_⟩
  have hpos : 0 < i.needSrc i.width i.height := by
    cases i with
    | halo o => cases hs
    | pad o => exact Nat.mul_pos (by omega) (by omega)
    | strip o => exact Nat.mul_pos (by omega) (by omega)
    | sblur o => exact Nat.mul_pos (by omega) (by omega)
    | sgray o => exact Nat.mul_pos (by omega) (by omega)
    | ssharp o => exact Nat.mul_pos (by omega) (by omega)
    | vblur t o => exact Nat.mul_pos (by omega) (by omega)
    | vgray t o => exact Nat.mul_pos (by omega) (by omega)
    | vsharp t o => exact Nat.mul_pos (by omega) (by omega)
  have c2 : ¬ (if memBytes ≤ i.operands.src then 0 else min i.operands.len (memBytes - i.operands.src)) <
      i.needSrc i.width i.height := fun hc => c2 ⟨hs, hc⟩
  have c4 := fun hc => c4 ⟨hs, hc⟩
  refine ⟨?_, ?_⟩
  · split at c2 <;> omega
  · by_cases hk : i.isKernel = true ∧ i.operands.src = i.operands.dst
    · exact .inr (.inr hk)
    · rcases Nat.lt_or_ge i.operands.src (i.operands.dst + i.needDst i.width i.height) with hlt | hge
      · rcases Nat.lt_or_ge i.operands.dst (i.operands.src + i.needSrc i.width i.height) with hlt' | hge'
        · exact absurd ⟨hlt, hlt', hk⟩ c4
        · exact .inl hge'
      · exact .inr (.inl hge)

/-! ## A whole command -/

theorem exec_eq_runCommand (i : Instr) (s : State) : exec i s = runCommand (encode i) (planOf s.params i) s := by
  cases i <;> rfl

/-- While BUSY a command waits (log 7). -/
theorem exec_of_busy (i : Instr) (s : State) (h : s.state = .busy) : exec i s = .next s := by
  rw [exec_eq_runCommand, runCommand, if_pos h]

/-- A command that fails a check ends in that error. -/
theorem exec_of_error (i : Instr) (s : State) (e : ErrCode) (hw : i.wellFormed = true) (h : s.state ≠ .busy)
    (he : errorOf s.params.memBytes i = some e) : exec i s = .next ((s.latch (encode i)).raiseError e) := by
  have hv := validate_regsOf s.params i hw
  rw [he] at hv
  rw [exec_eq_runCommand, runCommand, if_neg h]
  simp only [State.latch_d, State.latch_params, DescRegs.ofDescriptor_encode, hv]

/-- An accepted command runs all its calls. -/
theorem exec_of_accepted (i : Instr) (s : State) (hw : i.wellFormed = true) (h : s.state ≠ .busy)
    (he : errorOf s.params.memBytes i = none) :
    exec i s = .next { s with
      mem := runCalls s.params (regsOf i) ((planOf s.params i).calls i.width i.height) s.mem
      d := regsOf i
      state := .done
      err := .none
      callIdx := BitVec.ofNat 32 ((planOf s.params i).calls i.width i.height).length } := by
  obtain ⟨_, _, _, _, _, hw', hh'⟩ := regsOf_operands i hw
  have hv := validate_regsOf s.params i hw
  rw [he] at hv
  rw [exec_eq_runCommand, runCommand, if_neg h]
  simp only [State.latch_d, State.latch_params, DescRegs.ofDescriptor_encode, hv, hw', hh']
  rfl

/-! ## The engine's turn -/

/-- Everything the engine's turn can do (R118). -/
theorem engineTurn_cases (s t : State) (h : engineTurn s = .next t) :
    (s.state ≠ .busy ∧ t = s) ∨
    (s.state = .busy ∧ ∃ pl, s.validPlan? = some pl ∧
      ((∃ c, (pl.calls s.d.w s.d.h)[s.callIdx.toNat]? = some c ∧
          t = { s with mem := c.run s.params s.d s.mem, callIdx := s.callIdx + 1 }) ∨
        ((pl.calls s.d.w s.d.h).length ≤ s.callIdx.toNat ∧ t = { s with state := .done }))) := by
  unfold engineTurn at h
  split at h
  · rename_i hb
    split at h
    · rename_i pl hp
      refine .inr ⟨hb, pl, hp, ?_⟩
      simp only [Host.Outcome.next.injEq] at h
      subst h
      unfold stepPlan
      split
      · rename_i c hc; exact .inl ⟨c, hc, rfl⟩
      · rename_i hc; exact .inr ⟨by simpa using hc, rfl⟩
    · cases h
  · rename_i hb
    simp only [Host.Outcome.next.injEq] at h
    exact .inl ⟨hb, h.symm⟩

/-! ## A step -/

/-- Everything a step that answers a next state can do: one action of the host that is enabled, or the
engine's turn (10_state.md R21, R22). -/
theorem step_cases (s t : State) (h : step s = .next t) :
    (∃ d rest, s.inbox = .issue d :: rest ∧ s.state ≠ .busy ∧ t = issue d { s with inbox := rest }) ∨
    (∃ d rest, s.inbox = .command d :: rest ∧ s.state ≠ .busy ∧ commandTurn d { s with inbox := rest } = .next t) ∨
    (∃ a n rest, s.inbox = .hostRead a n :: rest ∧ s.state ≠ .busy ∧ t = hostRead a n { s with inbox := rest }) ∨
    (∃ a bs rest, s.inbox = .hostWrite a bs :: rest ∧ s.state ≠ .busy ∧
      t = hostWrite a bs { s with inbox := rest }) ∨
    (∃ rest, s.inbox = .status :: rest ∧ t = hostStatus { s with inbox := rest }) ∨
    (∃ rest, s.inbox = .reset :: rest ∧ t = hostReset { s with inbox := rest }) ∨
    (∃ rest, (s.inbox = rest ∨ s.inbox = .engine :: rest) ∧ engineTurn { s with inbox := rest } = .next t) := by
  have hself : ∀ r, s.inbox = r → { s with inbox := r } = s := by rintro r rfl; rfl
  unfold step at h
  split at h
  · rename_i hi
    exact .inr (.inr (.inr (.inr (.inr (.inr ⟨[], .inl hi, by rw [hself _ hi]; exact h⟩)))))
  · rename_i a rest hi
    have eng : engineTurn s = .next t →
        ∃ rest, (s.inbox = rest ∨ s.inbox = .engine :: rest) ∧ engineTurn { s with inbox := rest } = .next t :=
      fun he => ⟨s.inbox, .inl rfl, he⟩
    cases a with
    | issue d =>
      simp only at h
      split at h
      · exact .inr (.inr (.inr (.inr (.inr (.inr (eng h))))))
      · simp only [Host.Outcome.next.injEq] at h; exact .inl ⟨d, rest, hi, ‹_›, h.symm⟩
    | command d =>
      simp only at h
      split at h
      · exact .inr (.inr (.inr (.inr (.inr (.inr (eng h))))))
      · exact .inr (.inl ⟨d, rest, hi, ‹_›, h⟩)
    | hostRead a n =>
      simp only at h
      split at h
      · exact .inr (.inr (.inr (.inr (.inr (.inr (eng h))))))
      · simp only [Host.Outcome.next.injEq] at h; exact .inr (.inr (.inl ⟨a, n, rest, hi, ‹_›, h.symm⟩))
    | hostWrite a bs =>
      simp only at h
      split at h
      · exact .inr (.inr (.inr (.inr (.inr (.inr (eng h))))))
      · simp only [Host.Outcome.next.injEq] at h; exact .inr (.inr (.inr (.inl ⟨a, bs, rest, hi, ‹_›, h.symm⟩)))
    | status =>
      simp only [Host.Outcome.next.injEq] at h
      exact .inr (.inr (.inr (.inr (.inl ⟨rest, hi, h.symm⟩))))
    | reset =>
      simp only [Host.Outcome.next.injEq] at h
      exact .inr (.inr (.inr (.inr (.inr (.inl ⟨rest, hi, h.symm⟩)))))
    | engine => exact .inr (.inr (.inr (.inr (.inr (.inr ⟨rest, .inr hi, h⟩)))))

end Sys2Proof.Machine
end

