-- ==== Sys2Proof/Laws/Passes.lean ====
section
/-! SUPPORT. The call lists of R117 as lists in rising address order, and what a kernel pass has done to memory
when one of its calls begins (70_reset_and_hazards.md R256). -/

namespace Sys2Proof.Machine

/-! ## Row-major lists -/

/-- A row-major list is pairwise related when its rows are and every row is related to every later one. -/
theorem pairwise_rows (f : Nat → List Call) (r : Call → Call → Prop) (h : Nat)
    (hrow : ∀ y, y < h → (f y).Pairwise r)
    (hrows : ∀ y y', y < y' → y' < h → ∀ c ∈ f y, ∀ c' ∈ f y', r c c') :
    List.Pairwise r ((List.range h).flatMap f) := by
  rw [List.pairwise_flatMap]
  refine ⟨fun y hy => hrow y (List.mem_range.1 hy), ?_⟩
  refine List.Pairwise.imp_of_mem ?_ List.pairwise_lt_range
  intro y y' _ hy' hlt c hc c' hc'
  exact hrows y y' hlt (List.mem_range.1 hy') c hc c' hc'

theorem pairwise_range_map {α : Type} (f : Nat → α) (r : α → α → Prop) (n : Nat)
    (h : ∀ i j, i < j → j < n → r (f i) (f j)) : List.Pairwise r ((List.range n).map f) := by
  rw [List.pairwise_map]
  refine List.Pairwise.imp_of_mem ?_ List.pairwise_lt_range
  intro i j _ hj hlt
  exact h i j hlt (List.mem_range.1 hj)

/-- Every byte that `c` writes lies below every byte that `c'` writes. -/
def Call.under (p : Config.Params) (d : DescRegs) (c c' : Call) : Prop :=
  ∀ a a', c.writes p d a → c'.writes p d a' → a < a'

theorem Call.under_apart (p : Config.Params) (d : DescRegs) (cs : List Call)
    (h : List.Pairwise (Call.under p d) cs) :
    List.Pairwise (fun c c' => ∀ a, Call.writes p d c a → ¬ Call.writes p d c' a) cs :=
  h.imp fun hu a ha ha' => Nat.lt_irrefl _ (hu a a ha ha')

/-- In a list in rising address order, what memory holds when a call begins: a byte below its first that the
list writes has its final value, every other byte its first value. -/
theorem runCalls_rising (p : Config.Params) (d : DescRegs) (cs : List Call) (m : Memory) (c : Call) (start : Nat)
    (hs : List.Pairwise (Call.under p d) cs) (hc : c ∈ cs) (hstart : c.writes p d start)
    (hfirst : ∀ a, c.writes p d a → start ≤ a) :
    ∃ mc : Memory,
      (∀ a, c.writes p d a → (runCalls p d cs m).read a = (c.run p d mc).read a) ∧
      (∀ a, (∃ e ∈ cs, e.writes p d a) → a < start → mc.read a = (runCalls p d cs m).read a) ∧
      (∀ a, (¬ (∃ e ∈ cs, e.writes p d a) ∨ start ≤ a) → mc.read a = m.read a) := by
  obtain ⟨pre, post, rfl⟩ := List.append_of_mem hc
  obtain ⟨h1, h2, h3⟩ := runCalls_at p d pre post c m (Call.under_apart p d _ hs)
  obtain ⟨_, s2, s3⟩ := List.pairwise_append.1 hs
  have s2 := (List.pairwise_cons.1 s2).1
  refine ⟨runCalls p d pre m, h1, ?_, ?_⟩
  · rintro a ⟨e, he, hea⟩ hlt
    rcases List.mem_append.1 he with he | he
    · exact h2 e he a hea
    · rcases List.mem_cons.1 he with rfl | he
      · exact absurd (hfirst a hea) (by omega)
      · exact absurd (s2 e he start a hstart hea) (by omega)
  · intro a ha
    refine h3 a fun e he hea => ?_
    have hlt := s3 e he c (by simp) a start hea hstart
    rcases ha with ha | ha
    · exact ha ⟨e, by simp [he], hea⟩
    · omega

/-! ## Kernel passes -/

/-- Rows of groups and tail columns; `mk x y` is the call of the group that starts at column x. A scalar pass is
the case of one pixel per call. -/
def groupRow (mk : Nat → Nat → Call) (k : Kernel) (pp : Nat) (tail : Bool) (w y : Nat) : List Call :=
  (List.range (w / pp)).map (fun g => mk (1 + g * pp) y)
    ++ if tail then (List.range (w % pp)).map (fun t => Call.scall k (w / pp * pp + 1 + t) y) else []

def groupCalls (mk : Nat → Nat → Call) (k : Kernel) (pp : Nat) (tail : Bool) (w h : Nat) : List Call :=
  (List.range h).flatMap fun y => groupRow mk k pp tail w (y + 1)

theorem vectorCalls_eq (k : Kernel) (pp : Nat) (tail : Bool) (w h : Nat) :
    vectorCalls k pp tail w h = groupCalls (.vcall k) k pp tail w h := rfl

theorem scalarCalls_eq (k : Kernel) (w h : Nat) : scalarCalls k w h = groupCalls (.scall k) k 1 false w h := by
  simp [scalarCalls, groupCalls, groupRow, Nat.add_comm]

/-- A call of a pass: the group that starts at column x, or one tail column. -/
theorem mem_groupCalls (mk : Nat → Nat → Call) (k : Kernel) (pp : Nat) (tail : Bool) (w h : Nat) (c : Call) :
    c ∈ groupCalls mk k pp tail w h ↔ ∃ y, 1 ≤ y ∧ y ≤ h ∧
      ((∃ g, g < w / pp ∧ c = mk (1 + g * pp) y) ∨
        (tail = true ∧ ∃ t, t < w % pp ∧ c = .scall k (w / pp * pp + 1 + t) y)) := by
  unfold groupCalls groupRow
  simp only [List.mem_flatMap, List.mem_range, List.mem_append, List.mem_map]
  constructor
  · rintro ⟨y, hy, hc⟩
    refine ⟨y + 1, by omega, by omega, ?_⟩
    rcases hc with ⟨g, hg, rfl⟩ | hc
    · exact .inl ⟨g, hg, rfl⟩
    · right
      split at hc
      · obtain ⟨t, ht, rfl⟩ := List.mem_map.1 hc
        exact ⟨‹_›, t, List.mem_range.1 ht, rfl⟩
      · simp at hc
  · rintro ⟨y, h1, h2, hc⟩
    refine ⟨y - 1, by omega, ?_⟩
    rw [show y - 1 + 1 = y by omega]
    rcases hc with ⟨g, hg, rfl⟩ | ⟨ht, t, htl, rfl⟩
    · exact .inl ⟨g, hg, rfl⟩
    · right
      rw [if_pos ht]
      exact List.mem_map.2 ⟨t, List.mem_range.2 htl, rfl⟩

/-- The group call writes the cells of its group. -/
def WritesGroup (p : Config.Params) (d : DescRegs) (mk : Nat → Nat → Call) (pp : Nat) : Prop :=
  ∀ x y a, (mk x y).writes p d a ↔ px d.dst d.w x y ≤ a ∧ a < px d.dst d.w x y + 4 * pp

theorem writesGroup_scall (p : Config.Params) (d : DescRegs) (k : Kernel) : WritesGroup p d (.scall k) 1 :=
  fun _ _ _ => Iff.rfl

theorem writesGroup_vcall (p : Config.Params) (d : DescRegs) (k : Kernel) :
    WritesGroup p d (.vcall k) (pixelsPerCall p k) :=
  fun _ _ _ => Iff.rfl

theorem px_row_lt (base w x y x' y' n : Nat) (hx : x + n ≤ w + 2) (hy : y < y') :
    px base w x y + 4 * n ≤ px base w x' y' := by
  unfold px
  have : (y + 1) * (w + 2) ≤ y' * (w + 2) := Nat.mul_le_mul_right _ hy
  rw [Nat.add_mul] at this; omega

theorem group_end (w pp g : Nat) (hg : g < w / pp) : (g + 1) * pp ≤ w / pp * pp ∧ w / pp * pp ≤ w := by
  exact ⟨Nat.mul_le_mul_right _ hg, Nat.div_mul_le_self w pp⟩

/-- Every call of a pass writes cells of one interior row. -/
theorem groupCalls_span (p : Config.Params) (d : DescRegs) (mk : Nat → Nat → Call) (k : Kernel) (pp : Nat)
    (tail : Bool) (h : Nat) (hmk : WritesGroup p d mk pp) (c : Call) (hc : c ∈ groupCalls mk k pp tail d.w h) :
    ∃ x y n, 1 ≤ x ∧ x + n ≤ d.w + 1 ∧ 1 ≤ y ∧ y ≤ h ∧
      (∀ x', x ≤ x' → x' < x + n → covered pp tail d.w x' = true) ∧
      ∀ a, c.writes p d a ↔ px d.dst d.w x y ≤ a ∧ a < px d.dst d.w x y + 4 * n := by
  obtain ⟨y, h1, h2, ⟨g, hg, rfl⟩ | ⟨ht, t, htl, rfl⟩⟩ := (mem_groupCalls mk k pp tail d.w h c).1 hc
  · obtain ⟨e1, e2⟩ := group_end d.w pp g hg
    rw [Nat.add_mul] at e1
    refine ⟨1 + g * pp, y, pp, by omega, by omega, h1, h2, ?_, hmk _ _⟩
    intro x' _ hx'
    simp only [covered, grouped, Bool.or_eq_true, decide_eq_true_eq]
    right; omega
  · have := Nat.div_add_mod d.w pp
    rw [Nat.mul_comm] at this
    refine ⟨d.w / pp * pp + 1 + t, y, 1, by omega, by omega, h1, h2, ?_, fun a => Iff.rfl⟩
    intro x' _ _
    simp only [covered, ht, Bool.true_or]

/-- A pass writes in rising address order. -/
theorem groupCalls_rising (p : Config.Params) (d : DescRegs) (mk : Nat → Nat → Call) (k : Kernel) (pp : Nat)
    (tail : Bool) (h : Nat) (hmk : WritesGroup p d mk pp) :
    List.Pairwise (Call.under p d) (groupCalls mk k pp tail d.w h) := by
  have hsub : ∀ y, y < h → ∀ c ∈ groupRow mk k pp tail d.w (y + 1), ∃ x n, x + n ≤ d.w + 1 ∧
      ∀ a, c.writes p d a → px d.dst d.w x (y + 1) ≤ a ∧ a < px d.dst d.w x (y + 1) + 4 * n := by
    intro y hy c hc
    unfold groupRow at hc
    rcases List.mem_append.1 hc with hc | hc
    · obtain ⟨g, hg, rfl⟩ := List.mem_map.1 hc
      obtain ⟨e1, e2⟩ := group_end d.w pp g (List.mem_range.1 hg)
      rw [Nat.add_mul] at e1
      exact ⟨1 + g * pp, pp, by omega, fun a ha => (hmk _ _ a).1 ha⟩
    · split at hc
      · obtain ⟨t, ht, rfl⟩ := List.mem_map.1 hc
        have := List.mem_range.1 ht
        have := Nat.div_add_mod d.w pp
        rw [Nat.mul_comm] at this
        exact ⟨d.w / pp * pp + 1 + t, 1, by omega, fun a ha => ha⟩
      · simp at hc
  refine pairwise_rows _ _ h (fun y hy => ?_) ?_
  · unfold groupRow
    rw [List.pairwise_append]
    refine ⟨?_, ?_, ?_⟩
    · refine pairwise_range_map _ _ _ fun g g' hlt _ a a' ha ha' => ?_
      have ha := (hmk _ _ a).1 ha
      have ha' := (hmk _ _ a').1 ha'
      have : (g + 1) * pp ≤ g' * pp := Nat.mul_le_mul_right _ hlt
      rw [Nat.add_mul] at this
      unfold px at ha ha'
      omega
    · split
      · refine pairwise_range_map _ _ _ fun t t' hlt _ a a' ha ha' => ?_
        simp only [Call.writes, inCell, px] at ha ha'
        omega
      · exact List.Pairwise.nil
    · intro c hc c' hc' a a' ha ha'
      obtain ⟨g, hg, rfl⟩ := List.mem_map.1 hc
      obtain ⟨e1, e2⟩ := group_end d.w pp g (List.mem_range.1 hg)
      rw [Nat.add_mul] at e1
      have ha := (hmk _ _ a).1 ha
      split at hc'
      · obtain ⟨t, ht, rfl⟩ := List.mem_map.1 hc'
        simp only [Call.writes, inCell, px] at ha ha'
        omega
      · simp at hc'
  · intro y y' hlt hy' c hc c' hc' a a' ha ha'
    obtain ⟨x, n, hx, hw⟩ := hsub y (by omega) c hc
    obtain ⟨x', n', hx', hw'⟩ := hsub y' hy' c' hc'
    have := hw a ha
    have := hw' a' ha'
    have := px_row_lt d.dst d.w x (y + 1) x' (y' + 1) n (by omega) (by omega)
    omega

/-- The call of a pass that writes a covered interior cell. -/
theorem exists_groupCall (mk : Nat → Nat → Call) (k : Kernel) (pp : Nat) (tail : Bool) (w h x y : Nat)
    (hpp : 0 < pp) (hi : interior w h x y) (hc : covered pp tail w x = true) :
    (if grouped pp w x then mk (callStart pp w x) y else .scall k (callStart pp w x) y) ∈
      groupCalls mk k pp tail w h := by
  obtain ⟨x1, x2, y1, y2⟩ := hi
  rw [mem_groupCalls]
  refine ⟨y, y1, y2, ?_⟩
  by_cases hg : grouped pp w x = true
  · left
    rw [if_pos hg]
    unfold callStart
    rw [if_pos hg]
    simp only [grouped, decide_eq_true_eq] at hg
    refine ⟨(x - 1) / pp, ?_, by rw [Nat.add_comm]⟩
    rw [Nat.div_lt_iff_lt_mul hpp]; omega
  · right
    rw [if_neg hg]
    unfold callStart
    rw [if_neg hg]
    have ht : tail = true := by
      simp only [covered, Bool.or_eq_true] at hc
      tauto
    simp only [grouped, decide_eq_true_eq, not_le] at hg
    have := Nat.div_add_mod w pp
    rw [Nat.mul_comm] at this
    exact ⟨ht, x - (w / pp * pp + 1), by omega, by rw [show w / pp * pp + 1 + (x - (w / pp * pp + 1)) = x by omega]⟩

/-- A group that holds column x starts at or before x and ends after it. -/
theorem callStart_span (pp w x : Nat) (hpp : 0 < pp) (hx : 1 ≤ x) (hg : grouped pp w x = true) :
    1 ≤ callStart pp w x ∧ callStart pp w x ≤ x ∧ x < callStart pp w x + pp ∧ callStart pp w x + pp ≤ w + 1 := by
  unfold callStart
  rw [if_pos hg]
  simp only [grouped, decide_eq_true_eq] at hg
  have e1 := Nat.div_add_mod (x - 1) pp
  rw [Nat.mul_comm] at e1
  have e2 := Nat.mod_lt (x - 1) hpp
  have e3 : (x - 1) / pp < w / pp := by rw [Nat.div_lt_iff_lt_mul hpp]; omega
  have e4 := group_end w pp _ e3
  rw [Nat.add_mul] at e4
  omega

/-- The bytes that a pass writes are those of its covered interior cells (40_command_lifecycle.md R122). -/
theorem groupCalls_writes (p : Config.Params) (d : DescRegs) (mk : Nat → Nat → Call) (k : Kernel) (pp : Nat)
    (tail : Bool) (h : Nat) (hpp : 0 < pp) (hmk : WritesGroup p d mk pp) (a : Nat) :
    (∃ c ∈ groupCalls mk k pp tail d.w h, c.writes p d a) ↔
      ∃ x y, interior d.w h x y ∧ covered pp tail d.w x = true ∧ inCell d.dst d.w x y a := by
  constructor
  · rintro ⟨c, hc, ha⟩
    obtain ⟨x, y, n, x1, x2, y1, y2, hcov, hw⟩ := groupCalls_span p d mk k pp tail h hmk c hc
    have ha := (hw a).1 ha
    have e := px_add d.dst d.w x y ((a - px d.dst d.w x y) / 4)
    refine ⟨x + (a - px d.dst d.w x y) / 4, y, ⟨by omega, by omega, y1, y2⟩, hcov _ (by omega) (by omega), ?_⟩
    unfold inCell
    omega
  · rintro ⟨x, y, hi, hc, ha⟩
    refine ⟨_, exists_groupCall mk k pp tail d.w h x y hpp hi hc, ?_⟩
    unfold inCell at ha
    split
    · rename_i hg
      have e := callStart_span pp d.w x hpp hi.1 hg
      have e' := px_add d.dst d.w (callStart pp d.w x) y (x - callStart pp d.w x)
      rw [show callStart pp d.w x + (x - callStart pp d.w x) = x by omega] at e'
      rw [hmk]; omega
    · rename_i hg
      unfold callStart
      rw [if_neg hg]
      exact ha

/-- Cells of a buffer in address order are cells in row-major order. -/
theorem px_lt_iff (base w x y x' y' : Nat) (hx : x ≤ w + 1) (hx' : x' ≤ w + 1) :
    px base w x y < px base w x' y' ↔ y < y' ∨ (y = y' ∧ x < x') := by
  constructor
  · intro h
    rcases Nat.lt_trichotomy y y' with hy | hy | hy
    · exact .inl hy
    · subst hy; unfold px at h; exact .inr ⟨rfl, by omega⟩
    · have := px_row_lt base w x' y' x y 0 (by omega) hy; omega
  · rintro (hy | ⟨rfl, hx⟩)
    · have := px_row_lt base w x y x' y' 1 (by omega) hy; omega
    · unfold px; omega

/-- WHAT A KERNEL PASS DOES: for each covered interior cell (x, y), the memory mc that the call writing it
begins with. In mc a cell of the destination buffer is new exactly when the pass covers it and an earlier call
wrote it, and every byte outside the destination is untouched (R256). -/
theorem pass_at (p : Config.Params) (d : DescRegs) (mk : Nat → Nat → Call) (k : Kernel) (pp : Nat) (tail : Bool)
    (h : Nat) (m : Memory) (hpp : 0 < pp) (hmk : WritesGroup p d mk pp) (x y : Nat) (hi : interior d.w h x y)
    (hc : covered pp tail d.w x = true) :
    let mf := runCalls p d (groupCalls mk k pp tail d.w h) m
    let x0 := callStart pp d.w x
    ∃ mc : Memory,
      cell mf d.dst d.w x y =
        cell ((if grouped pp d.w x then mk x0 y else .scall k x0 y : Call).run p d mc) d.dst d.w x y ∧
      (∀ x' y', x' ≤ d.w + 1 → y' ≤ h + 1 → cell mc d.dst d.w x' y' =
        if interior d.w h x' y' ∧ covered pp tail d.w x' = true ∧ (y' < y ∨ (y' = y ∧ x' < x0)) then
          cell mf d.dst d.w x' y'
        else cell m d.dst d.w x' y') ∧
      (∀ a, a < d.dst ∨ d.dst + 4 * (d.w + 2) * (h + 2) ≤ a → mc.read a = m.read a) := by
  intro mf x0
  have hmem := exists_groupCall mk k pp tail d.w h x y hpp hi hc
  have hrise := groupCalls_rising p d mk k pp tail h hmk
  obtain ⟨x1, x2, y1, y2⟩ := hi
  have hx0 : x0 ≤ d.w + 1 := by
    change callStart pp d.w x ≤ _
    by_cases hg : grouped pp d.w x = true
    · have := callStart_span pp d.w x hpp x1 hg; omega
    · unfold callStart; rw [if_neg hg]; omega
  have hwr : ∀ a, (if grouped pp d.w x then mk x0 y else .scall k x0 y : Call).writes p d a →
      px d.dst d.w x0 y ≤ a := by
    intro a ha
    split at ha
    · exact ((hmk _ _ a).1 ha).1
    · exact ha.1
  have hst : (if grouped pp d.w x then mk x0 y else .scall k x0 y : Call).writes p d (px d.dst d.w x0 y) := by
    split
    · rw [hmk]; omega
    · exact ⟨Nat.le_refl _, by omega⟩
  obtain ⟨mc, r1, r2, r3⟩ := runCalls_rising p d _ m _ _ hrise hmem hst hwr
  have hw := groupCalls_writes p d mk k pp tail h hpp hmk
  refine ⟨mc, ?_, ?_, ?_⟩
  · refine Memory.readPix_congr _ _ _ fun a ha1 ha2 => r1 a ?_
    split
    · rename_i hg
      have e := callStart_span pp d.w x hpp x1 hg
      have e' := px_add d.dst d.w (callStart pp d.w x) y (x - callStart pp d.w x)
      rw [show callStart pp d.w x + (x - callStart pp d.w x) = x by omega] at e'
      rw [hmk]; omega
    · rename_i hg
      have e : callStart pp d.w x = x := by unfold callStart; rw [if_neg hg]
      rw [e]
      exact ⟨ha1, ha2⟩
  · intro x' y' hx' hy'
    have hlt := px_lt_iff d.dst d.w x' y' x0 y hx' hx0
    have hapart : px d.dst d.w x' y' < px d.dst d.w x0 y → px d.dst d.w x' y' + 4 ≤ px d.dst d.w x0 y := by
      intro hl
      have := px_apart d.dst d.w x' y' x0 y hx' hx0 (by have := hlt.1 hl; omega)
      omega
    split
    · rename_i hcond
      obtain ⟨hi', hc', hbefore⟩ := hcond
      have := hapart (hlt.2 hbefore)
      exact Memory.readPix_congr _ _ _ fun a ha1 ha2 => r2 a ((hw a).2 ⟨x', y', hi', hc', ha1, ha2⟩) (by omega)
    · rename_i hcond
      refine Memory.readPix_congr _ _ _ fun a ha1 ha2 => r3 a ?_
      by_cases hbefore : y' < y ∨ (y' = y ∧ x' < x0)
      · left
        rw [hw a]
        rintro ⟨x'', y'', hi'', hc'', ha''⟩
        have hsame : x'' = x' ∧ y'' = y' := by
          by_contra hne
          have := px_apart d.dst d.w x'' y'' x' y' (by have := hi''.2.1; omega) hx' (by omega)
          unfold inCell at ha''; omega
        obtain ⟨rfl, rfl⟩ := hsame
        exact hcond ⟨hi'', hc'', hbefore⟩
      · right
        have : ¬ px d.dst d.w x' y' < px d.dst d.w x0 y := fun hl => hbefore (hlt.1 hl)
        omega
  · intro a ha
    refine r3 a (.inl ?_)
    rw [hw a]
    rintro ⟨x', y', hi', _, ha'⟩
    have := px_inside d.dst d.w h x' y' (by have := hi'.2.1; omega) (by have := hi'.2.2.2; omega)
    unfold inCell at ha'; omega

/-- A kernel pass leaves every byte outside its covered interior cells alone. -/
theorem pass_outside (p : Config.Params) (d : DescRegs) (mk : Nat → Nat → Call) (k : Kernel) (pp : Nat)
    (tail : Bool) (h : Nat) (m : Memory) (hpp : 0 < pp) (hmk : WritesGroup p d mk pp) (a : Nat)
    (ha : ∀ x y, interior d.w h x y → covered pp tail d.w x = true → ¬ inCell d.dst d.w x y a) :
    (runCalls p d (groupCalls mk k pp tail d.w h) m).read a = m.read a := by
  refine read_runCalls_outside p d _ m a fun c hc hw => ?_
  obtain ⟨x, y, hi, hcov, hcell⟩ := (groupCalls_writes p d mk k pp tail h hpp hmk a).1 ⟨c, hc, hw⟩
  exact ha x y hi hcov hcell

end Sys2Proof.Machine
end

