-- ==== Sys2Proof/Laws/PerInstr.lean ====
section
/-! SUPPORT. Statements made for each command: word 0 of a command's descriptor is its row of 30_encoding.md
R84, `(word0 & mask) = match`, with bit 8 its TAIL. -/

namespace Sys2Proof.Laws.EncodeMatches

/-- What the family says of one command (30_encoding.md R82, R84). -/
def Statement (i : Instr) : Prop :=
  Descriptor.word 0 (encode i) &&& i.opcode.maskWord = i.opcode.matchWord ∧
  (Descriptor.word 0 (encode i)).getLsbD 8 = i.tail

/-- Word 0 of an encoded command is its control word. -/
theorem word_zero (i : Instr) : Descriptor.word 0 (encode i) = i.ctl := by
  unfold encode
  exact (Descriptor.word_ofWords _ _ _ _ _ _).1

/-- A row of R84 with TAIL = 0. -/
theorem row (c : Opcode) : (c.matchWord ||| 0) &&& c.maskWord = c.matchWord ∧ (c.matchWord ||| 0).getLsbD 8 = false := by
  cases c <;> decide

/-- A vector row of R84 with TAIL = 1. -/
theorem row_tail (c : Opcode) (h : c.maskWord = 0xFFFFFEFF) :
    (c.matchWord ||| 0x100) &&& c.maskWord = c.matchWord ∧ (c.matchWord ||| 0x100).getLsbD 8 = true := by
  cases c <;> revert h <;> decide

theorem pad (o : Operands) : Statement (.pad o) := by
  rw [Statement, word_zero]
  exact row .pad

theorem halo (o : Operands) : Statement (.halo o) := by
  rw [Statement, word_zero]
  exact row .halo

theorem strip (o : Operands) : Statement (.strip o) := by
  rw [Statement, word_zero]
  exact row .strip

theorem sblur (o : Operands) : Statement (.sblur o) := by
  rw [Statement, word_zero]
  exact row .sblur

theorem sgray (o : Operands) : Statement (.sgray o) := by
  rw [Statement, word_zero]
  exact row .sgray

theorem ssharp (o : Operands) : Statement (.ssharp o) := by
  rw [Statement, word_zero]
  exact row .ssharp

theorem vblur (tail : Bool) (o : Operands) : Statement (.vblur tail o) := by
  rw [Statement, word_zero]
  cases tail
  · exact row .vblur
  · exact row_tail .vblur rfl

theorem vgray (tail : Bool) (o : Operands) : Statement (.vgray tail o) := by
  rw [Statement, word_zero]
  cases tail
  · exact row .vgray
  · exact row_tail .vgray rfl

theorem vsharp (tail : Bool) (o : Operands) : Statement (.vsharp tail o) := by
  rw [Statement, word_zero]
  cases tail
  · exact row .vsharp
  · exact row_tail .vsharp rfl

end Sys2Proof.Laws.EncodeMatches
end

