-- ==== Sys2Proof/Tests/Slice0.lean ====
section
/-! SUPPORT. The author's tests: what `wellFormed` refuses, words written out from 30_encoding.md, one step of
each command against 95_test_vectors.md, and for each statement with hypotheses a witness that meets them. -/

namespace Sys2Proof.Tests

open Sys2Proof.Machine

/-! ## Helpers -/

/-- The reset state with another memory. -/
def onMemory (m : Memory) : State := { State.reset with mem := m }

/-- A memory that holds some bytes at an address and is unlisted elsewhere. -/
def place (a : Nat) (bs : List Byte) : Memory := Memory.writeBytes [] a bs

/-- Whether a step ends with a status word, a call count and some bytes at an address. -/
def endsWith (status : Word) (calls a : Nat) (bs : List Byte) : Host.Outcome State Fault Refusal → Bool
  | .next t => t.statusWord == status && t.callIdx.toNat == calls && t.mem.readBytes a bs.length == bs
  | .fault _ => false
  | .refused _ => false

/-- Whether a step ends in a next state. -/
def isNext : Host.Outcome State Fault Refusal → Bool
  | .next _ => true
  | .fault _ => false
  | .refused _ => false

/-- What a step that ends in a next state leaves. -/
theorem exists_next (r : Host.Outcome State Fault Refusal) (h : isNext r = true) : ∃ t, r = .next t := by
  cases r with
  | next t => exact ⟨t, rfl⟩
  | fault _ => exact Bool.noConfusion h
  | refused _ => exact Bool.noConfusion h

/-- The state that a step ends in. -/
def after : Host.Outcome State Fault Refusal → State
  | .next t => t
  | .fault _ => State.reset
  | .refused _ => State.reset

theorem eq_after (r : Host.Outcome State Fault Refusal) (h : isNext r = true) : r = .next (after r) := by
  cases r with
  | next t => rfl
  | fault _ => exact Bool.noConfusion h
  | refused _ => exact Bool.noConfusion h

/-- The unpadded image A of 95_test_vectors.md 3.1. -/
def imageA : List Byte :=
  [0x11, 0x51, 0x91, 0xF0, 0x12, 0x52, 0x92, 0xF1, 0x13, 0x53, 0x93, 0xF2] ++
    [0x21, 0x61, 0xA1, 0xF3, 0x22, 0x62, 0xA2, 0xF4, 0x23, 0x63, 0xA3, 0xF5]

/-- Rows 0 and 1 of the padded image A. -/
def rowA1 : List Byte :=
  [0x11, 0x51, 0x91, 0xF0, 0x11, 0x51, 0x91, 0xF0] ++
    [0x12, 0x52, 0x92, 0xF1, 0x13, 0x53, 0x93, 0xF2, 0x13, 0x53, 0x93, 0xF2]

/-- Rows 2 and 3 of the padded image A. -/
def rowA2 : List Byte :=
  [0x21, 0x61, 0xA1, 0xF3, 0x21, 0x61, 0xA1, 0xF3] ++
    [0x22, 0x62, 0xA2, 0xF4, 0x23, 0x63, 0xA3, 0xF5, 0x23, 0x63, 0xA3, 0xF5]

/-- The padded image A at 0x100. -/
def onA : State := onMemory (place 0x100 (rowA1 ++ rowA1 ++ rowA2 ++ rowA2))

/-- The operands of the vectors of 95_test_vectors.md 4: padded image A to 0x200. -/
def opA : Operands := { w := 3, h := 2, src := 0x100, len := 80, dst := 0x200 }

/-- The same in place (95_test_vectors.md 4.7). -/
def opInA : Operands := { opA with dst := 0x100 }

/-! ## Ill-formed commands are refused -/

theorem test_ill_formed_width : (Instr.pad { w := 2 ^ 31, h := 1, src := 0, len := 0, dst := 0 }).wellFormed = false := by
  decide

theorem test_ill_formed_width_low :
    (Instr.halo { w := -(2 ^ 31) - 1, h := 1, src := 0, len := 0, dst := 0 }).wellFormed = false := by decide

theorem test_ill_formed_height :
    (Instr.strip { w := 1, h := 2 ^ 31, src := 0, len := 0, dst := 0 }).wellFormed = false := by decide

theorem test_ill_formed_height_low :
    (Instr.sblur { w := 1, h := -(2 ^ 31) - 1, src := 0, len := 0, dst := 0 }).wellFormed = false := by decide

theorem test_ill_formed_src : (Instr.sgray { w := 1, h := 1, src := 2 ^ 32, len := 0, dst := 0 }).wellFormed = false := by
  decide

theorem test_ill_formed_len :
    (Instr.vblur true { w := 1, h := 1, src := 0, len := 2 ^ 32, dst := 0 }).wellFormed = false := by decide

theorem test_ill_formed_dst :
    (Instr.vsharp false { w := 1, h := 1, src := 0, len := 0, dst := 2 ^ 32 }).wellFormed = false := by decide

/-! ## Decoding: words written out from 30_encoding.md R82, R84 and the vectors of 95_test_vectors.md -/

theorem test_decode_pad : decode (Descriptor.ofWords 0x00000001 0x00000003 0x00000002 0x00000100 0x00000050 0x00000200) =
    .ok (.pad opA) := by decide

theorem test_decode_halo : decode (Descriptor.ofWords 0x00000002 0x00000003 0x00000002 0x00000100 0x00000050 0x00000200) =
    .ok (.halo opA) := by decide

theorem test_decode_strip : decode (Descriptor.ofWords 0x00000003 0x00000003 0x00000002 0x00000100 0x00000050 0x00000200) =
    .ok (.strip opA) := by decide

theorem test_decode_sblur : decode (Descriptor.ofWords 0x00000010 0x00000003 0x00000002 0x00000100 0x00000050 0x00000200) =
    .ok (.sblur opA) := by decide

theorem test_decode_sgray : decode (Descriptor.ofWords 0x00000011 0x00000003 0x00000002 0x00000100 0x00000050 0x00000200) =
    .ok (.sgray opA) := by decide

theorem test_decode_ssharp : decode (Descriptor.ofWords 0x00000012 0x00000003 0x00000002 0x00000100 0x00000050 0x00000200) =
    .ok (.ssharp opA) := by decide

theorem test_decode_vblur : decode (Descriptor.ofWords 0x00000020 0x00000003 0x00000002 0x00000100 0x00000050 0x00000200) =
    .ok (.vblur false opA) := by decide

theorem test_decode_vgray : decode (Descriptor.ofWords 0x00000021 0x00000003 0x00000002 0x00000100 0x00000050 0x00000200) =
    .ok (.vgray false opA) := by decide

theorem test_decode_vsharp : decode (Descriptor.ofWords 0x00000022 0x00000003 0x00000002 0x00000100 0x00000050 0x00000200) =
    .ok (.vsharp false opA) := by decide

theorem test_decode_vblur_tail : decode (Descriptor.ofWords 0x00000120 0x00000003 0x00000002 0x00000100 0x00000050 0x00000200) =
    .ok (.vblur true opA) := by decide

theorem test_decode_vgray_tail : decode (Descriptor.ofWords 0x00000121 0x00000003 0x00000002 0x00000100 0x00000050 0x00000200) =
    .ok (.vgray true opA) := by decide

theorem test_decode_vsharp_tail : decode (Descriptor.ofWords 0x00000122 0x00000003 0x00000002 0x00000100 0x00000050 0x00000200) =
    .ok (.vsharp true opA) := by decide

/-- The two's-complement width of R111's example: word 0xFFFFFFFF is -1; the unsigned words keep bit 31. -/
theorem test_decode_signs :
    decode (Descriptor.ofWords 0x00000001 0xFFFFFFFF 0x80000000 0xFFFFFFFF 0x80000000 0xFFFFFFF0) =
      .ok (.pad { w := -1, h := -2147483648, src := 4294967295, len := 2147483648, dst := 4294967280 }) := by
  decide

/-- Descriptors E2, E6, E7 and E8 of 95_test_vectors.md 6. -/
theorem test_decode_illegal :
    decode (Descriptor.ofWords 0x00000004 1 1 0 4 0x40) = .error .unknownOpcode ∧
    decode (Descriptor.ofWords 0x00000110 1 1 0 0x24 0x40) = .error .tailOnNonVector ∧
    decode (Descriptor.ofWords 0x00000221 4 1 0 0x48 0x100) = .error .reservedBits ∧
    decode (Descriptor.ofWords 0x80000001 1 1 0 4 0x40) = .error .reservedBits ∧
    decodeBytes [1] = .error .wrongLength := by decide

/-- The 24 bytes of R81's example. -/
theorem test_decode_bytes :
    decodeBytes ([0x01, 0x00, 0x00, 0x00, 0x03, 0x00, 0x00, 0x00, 0x02, 0x00, 0x00, 0x00] ++
        [0x00, 0x00, 0x00, 0x00, 0x18, 0x00, 0x00, 0x00, 0x00, 0x01, 0x00, 0x00]) =
      .ok (.pad { w := 3, h := 2, src := 0, len := 24, dst := 0x100 }) := by decide

/-- A word of the opcode table. -/
theorem test_decode_table_word :
    decodeTableWord 192 0x22 = some (.vsharp false { w := 0, h := 0, src := 0, len := 0, dst := 0 }) := by
  decide

/-- The textual form of R89. -/
theorem test_render :
    (Instr.halo { w := 3, h := 2, src := 7, len := 7, dst := 512 }).render = "HALO  w=3, h=2, dst=512" ∧
    (Instr.vblur true opA).render = "VBLUR.T  w=3, h=2, src=256, len=80, dst=512" := by decide

/-! ## One step of each command (95_test_vectors.md) -/

/-- Vector 3.1. -/
theorem test_pad :
    endsWith 2 10 0x100 (
    [0x11, 0x51, 0x91, 0xF0, 0x11, 0x51, 0x91, 0xF0, 0x12, 0x52, 0x92, 0xF1, 0x13, 0x53, 0x93, 0xF2, 0x13, 0x53, 0x93, 0xF2] ++
    [0x11, 0x51, 0x91, 0xF0, 0x11, 0x51, 0x91, 0xF0, 0x12, 0x52, 0x92, 0xF1, 0x13, 0x53, 0x93, 0xF2, 0x13, 0x53, 0x93, 0xF2] ++
    [0x21, 0x61, 0xA1, 0xF3, 0x21, 0x61, 0xA1, 0xF3, 0x22, 0x62, 0xA2, 0xF4, 0x23, 0x63, 0xA3, 0xF5, 0x23, 0x63, 0xA3, 0xF5] ++
    [0x21, 0x61, 0xA1, 0xF3, 0x21, 0x61, 0xA1, 0xF3, 0x22, 0x62, 0xA2, 0xF4, 0x23, 0x63, 0xA3, 0xF5, 0x23, 0x63, 0xA3, 0xF5]) (exec (.pad { w := 3, h := 2, src := 0, len := 24, dst := 0x100 }) (onMemory (place 0 imageA))) = true := by decide +kernel

/-- The state after vector 4.2 but for memory outside the buffer: the grey interior at 0x200, halo stale. -/
def onGray : State := onMemory (Memory.writeBytes (place 0x218 (
    [0x5A, 0x5A, 0x5A, 0xF0, 0x5B, 0x5B, 0x5B, 0xF1, 0x5C, 0x5C, 0x5C, 0xF2]))
    0x22C [0x6A, 0x6A, 0x6A, 0xF3, 0x6B, 0x6B, 0x6B, 0xF4, 0x6C, 0x6C, 0x6C, 0xF5])

/-- Vector 3.5. -/
theorem test_halo :
    endsWith 2 4 0x200 (
    [0x5A, 0x5A, 0x5A, 0xF0, 0x5A, 0x5A, 0x5A, 0xF0, 0x5B, 0x5B, 0x5B, 0xF1, 0x5C, 0x5C, 0x5C, 0xF2, 0x5C, 0x5C, 0x5C, 0xF2] ++
    [0x5A, 0x5A, 0x5A, 0xF0, 0x5A, 0x5A, 0x5A, 0xF0, 0x5B, 0x5B, 0x5B, 0xF1, 0x5C, 0x5C, 0x5C, 0xF2, 0x5C, 0x5C, 0x5C, 0xF2] ++
    [0x6A, 0x6A, 0x6A, 0xF3, 0x6A, 0x6A, 0x6A, 0xF3, 0x6B, 0x6B, 0x6B, 0xF4, 0x6C, 0x6C, 0x6C, 0xF5, 0x6C, 0x6C, 0x6C, 0xF5] ++
    [0x6A, 0x6A, 0x6A, 0xF3, 0x6A, 0x6A, 0x6A, 0xF3, 0x6B, 0x6B, 0x6B, 0xF4, 0x6C, 0x6C, 0x6C, 0xF5, 0x6C, 0x6C, 0x6C, 0xF5]) (exec (.halo { w := 3, h := 2, src := 0, len := 0, dst := 0x200 }) onGray) = true := by decide +kernel

/-- Vector 3.4. -/
theorem test_strip :
    endsWith 2 6 0x200 (
    [0x11, 0x51, 0x91, 0xF0, 0x12, 0x52, 0x92, 0xF1, 0x13, 0x53, 0x93, 0xF2] ++
    [0x21, 0x61, 0xA1, 0xF3, 0x22, 0x62, 0xA2, 0xF4, 0x23, 0x63, 0xA3, 0xF5, 0xEE]) (exec (.strip opA) onA) = true := by decide +kernel

/-- Vector 4.1; the halo of the destination stays EE. -/
theorem test_sblur :
    endsWith 2 6 0x214 (
    [0xEE, 0xEE, 0xEE, 0xEE, 0x16, 0x56, 0x96, 0xF1, 0x17, 0x57, 0x97, 0xF2, 0x18, 0x58, 0x98, 0xF2, 0xEE, 0xEE, 0xEE, 0xEE] ++
    [0xEE, 0xEE, 0xEE, 0xEE, 0x1C, 0x5C, 0x9C, 0xF2, 0x1C, 0x5C, 0x9C, 0xF3, 0x1D, 0x5D, 0x9D, 0xF3, 0xEE, 0xEE, 0xEE, 0xEE]) (exec (.sblur opA) onA) = true := by decide +kernel

/-- Vector 4.7, SBLUR. -/
theorem test_sblur_in_place :
    endsWith 2 6 0x114 (
    [0x11, 0x51, 0x91, 0xF0, 0x16, 0x56, 0x96, 0xF1, 0x17, 0x57, 0x97, 0xF2, 0x18, 0x58, 0x98, 0xF2, 0x13, 0x53, 0x93, 0xF2] ++
    [0x21, 0x61, 0xA1, 0xF3, 0x1D, 0x5D, 0x9D, 0xF2, 0x1D, 0x5D, 0x9D, 0xF3, 0x1D, 0x5D, 0x9D, 0xF3, 0x23, 0x63, 0xA3, 0xF5]) (exec (.sblur opInA) onA) = true := by decide +kernel

/-- Vector 4.2. -/
theorem test_sgray :
    endsWith 2 6 0x214 (
    [0xEE, 0xEE, 0xEE, 0xEE, 0x5A, 0x5A, 0x5A, 0xF0, 0x5B, 0x5B, 0x5B, 0xF1, 0x5C, 0x5C, 0x5C, 0xF2, 0xEE, 0xEE, 0xEE, 0xEE] ++
    [0xEE, 0xEE, 0xEE, 0xEE, 0x6A, 0x6A, 0x6A, 0xF3, 0x6B, 0x6B, 0x6B, 0xF4, 0x6C, 0x6C, 0x6C, 0xF5, 0xEE, 0xEE, 0xEE, 0xEE]) (exec (.sgray opA) onA) = true := by decide +kernel

/-- Vector 4.3. -/
theorem test_ssharp :
    endsWith 2 6 0x214 (
    [0xEE, 0xEE, 0xEE, 0xEE, 0x00, 0x40, 0x80, 0xFF, 0x02, 0x42, 0x82, 0xFF, 0x04, 0x44, 0x84, 0xFF, 0xEE, 0xEE, 0xEE, 0xEE] ++
    [0xEE, 0xEE, 0xEE, 0xEE, 0x30, 0x70, 0xB0, 0xFF, 0x32, 0x72, 0xB2, 0xFF, 0x34, 0x74, 0xB4, 0xFF, 0xEE, 0xEE, 0xEE, 0xEE]) (exec (.ssharp opA) onA) = true := by decide +kernel

/-- Vector 4.7, SSHARP. -/
theorem test_ssharp_in_place :
    endsWith 2 6 0x114 (
    [0x11, 0x51, 0x91, 0xF0, 0x00, 0x40, 0x80, 0xFF, 0x13, 0x53, 0x93, 0xFF, 0x03, 0x43, 0x83, 0xFF, 0x13, 0x53, 0x93, 0xF2] ++
    [0x21, 0x61, 0xA1, 0xF3, 0x41, 0x81, 0xC1, 0xFF, 0x11, 0x51, 0x91, 0xFF, 0x55, 0x95, 0xD5, 0xFF, 0x23, 0x63, 0xA3, 0xF5]) (exec (.ssharp opInA) onA) = true := by decide +kernel

/-- Vector 4.4, TAIL = 0: column 3 is not written. -/
theorem test_vblur :
    endsWith 2 2 0x214 (
    [0xEE, 0xEE, 0xEE, 0xEE, 0x16, 0x56, 0x96, 0xF1, 0x17, 0x57, 0x97, 0xF1, 0xEE, 0xEE, 0xEE, 0xEE, 0xEE, 0xEE, 0xEE, 0xEE] ++
    [0xEE, 0xEE, 0xEE, 0xEE, 0x1B, 0x5B, 0x9B, 0xF2, 0x1C, 0x5C, 0x9C, 0xF2, 0xEE, 0xEE, 0xEE, 0xEE, 0xEE, 0xEE, 0xEE, 0xEE]) (exec (.vblur false opA) onA) = true := by decide +kernel

/-- Vector 4.7, VBLUR.T. -/
theorem test_vblur_tail_in_place :
    endsWith 2 4 0x114 (
    [0x11, 0x51, 0x91, 0xF0, 0x16, 0x56, 0x96, 0xF1, 0x17, 0x57, 0x97, 0xF1, 0x18, 0x58, 0x98, 0xF2, 0x13, 0x53, 0x93, 0xF2] ++
    [0x21, 0x61, 0xA1, 0xF3, 0x1D, 0x5D, 0x9D, 0xF2, 0x1E, 0x5E, 0x9E, 0xF3, 0x1E, 0x5E, 0x9E, 0xF3, 0x23, 0x63, 0xA3, 0xF5]) (exec (.vblur true opInA) onA) = true := by decide +kernel

/-- The middle row of the padded buffer of vector 5.1 at 0x11C. -/
def onFive (ga : Config.GrayAlpha) : State :=
  { onMemory (place 0x11C (
    [0x0A, 0x14, 0x1E, 0x4D, 0x0A, 0x14, 0x1E, 0x4D, 0xFF, 0xFF, 0xFF, 0x00, 0x00, 0x00, 0x00, 0xFF] ++
    [0xFF, 0x00, 0x00, 0x01, 0x00, 0xFF, 0x00, 0x02, 0x00, 0xFF, 0x00, 0x02])) with
    params := { Config.Params.default with grayAlpha := ga } }

/-- Vector 5.1, PRESERVE, TAIL = 0: one group, the tail column stays EE. -/
theorem test_vgray_preserve :
    endsWith 2 1 0x21C (
    [0xEE, 0xEE, 0xEE, 0xEE, 0x15, 0x15, 0x15, 0x4D, 0xFF, 0xFF, 0xFF, 0x00, 0x00, 0x00, 0x00, 0xFF] ++
    [0x11, 0x11, 0x11, 0x01, 0xEE, 0xEE, 0xEE, 0xEE, 0xEE, 0xEE, 0xEE, 0xEE]) (exec (.vgray false { w := 5, h := 1, src := 0x100, len := 84, dst := 0x200 }) (onFive .preserve)) = true := by decide

/-- Vector 5.1, FORCE255, TAIL = 1: the tail column keeps its alpha. -/
theorem test_vgray_force :
    endsWith 2 2 0x21C (
    [0xEE, 0xEE, 0xEE, 0xEE, 0x15, 0x15, 0x15, 0xFF, 0xFF, 0xFF, 0xFF, 0xFF, 0x00, 0x00, 0x00, 0xFF] ++
    [0x11, 0x11, 0x11, 0xFF, 0xB7, 0xB7, 0xB7, 0x02, 0xEE, 0xEE, 0xEE, 0xEE]) (exec (.vgray true { w := 5, h := 1, src := 0x100, len := 84, dst := 0x200 }) (onFive .force255)) = true := by decide

/-- Vector 4.6, P_SHARP = 1. -/
theorem test_vsharp :
    endsWith 2 6 0x214 (
    [0xEE, 0xEE, 0xEE, 0xEE, 0x00, 0x40, 0x80, 0xFF, 0x02, 0x42, 0x82, 0xFF, 0x04, 0x44, 0x84, 0xFF, 0xEE, 0xEE, 0xEE, 0xEE] ++
    [0xEE, 0xEE, 0xEE, 0xEE, 0x30, 0x70, 0xB0, 0xFF, 0x32, 0x72, 0xB2, 0xFF, 0x34, 0x74, 0xB4, 0xFF, 0xEE, 0xEE, 0xEE, 0xEE]) (exec (.vsharp false opA) onA) = true := by decide +kernel

/-- Vector 4.7, VSHARP.T with P_SHARP = 2: pixel 1 of a group reads the old pixel 0. -/
theorem test_vsharp_two_in_place :
    endsWith 2 4 0x114 (
    [0x11, 0x51, 0x91, 0xF0, 0x00, 0x40, 0x80, 0xFF, 0x02, 0x42, 0x82, 0xFF, 0x14, 0x54, 0x94, 0xFF, 0x13, 0x53, 0x93, 0xF2] ++
    [0x21, 0x61, 0xA1, 0xF3, 0x41, 0x81, 0xC1, 0xFF, 0x42, 0x82, 0xC2, 0xFF, 0x13, 0x53, 0x93, 0xFF, 0x23, 0x63, 0xA3, 0xF5]) (exec (.vsharp true opInA) { onA with params := { Config.Params.default with pSharp := .two } }) = true := by decide +kernel

/-! ## The checks, call by call, the host (95_test_vectors.md 3.2, 6, 7.5) -/

/-- E14, E20, E25 and E28: the boundary of the dimension check, of the source and of the destination. -/
theorem test_errors :
    endsWith 0x23 0 0 [] (exec (.pad { w := 0x7FFE, h := 0x7FFD, src := 0, len := 0xFFFFFFFF, dst := 0 }) onA) = true ∧
    endsWith 0x13 0 0 [] (exec (.pad { w := 0x7FFE, h := 0x7FFE, src := 0, len := 0xFFFFFFFF, dst := 0 }) onA) = true ∧
    endsWith 0x33 0 0 [] (exec (.pad { w := 3, h := 2, src := 0, len := 24, dst := 0xFB4 }) onA) = true ∧
    endsWith 0x33 0 0 [] (exec (.sblur { opA with dst := 0x104 }) onA) = true := by decide

/-- Vector 3.2: ISSUE, then step 3 of the call by call run. -/
def mid (calls : Word) (m : Memory) : State :=
  { onMemory m with
    d := regsOf (.pad { w := 2, h := 1, src := 0, len := 8, dst := 0x40 }), state := .busy, callIdx := calls }

theorem test_engine_step :
    endsWith 1 3 0x50 ([0x01, 0x02, 0x03, 0x04, 0x01, 0x02, 0x03, 0x04] ++ [0x05, 0x06, 0x07, 0x08, 0x05, 0x06, 0x07, 0x08])
      (step (mid 2 (place 0x54 [0x01, 0x02, 0x03, 0x04, 0x05, 0x06, 0x07, 0x08]))) = true := by decide

theorem test_engine_completion : endsWith 2 5 0 [] (step (mid 5 [])) = true := by decide

/-- Program E: an illegal descriptor, by ISSUE. -/
theorem test_issue_illegal :
    endsWith 0x43 0 0 [] (step { State.reset with inbox := [.issue (Descriptor.ofWords 0 0 0 0 0 0)] }) = true := by
  decide

theorem test_host_write :
    endsWith 0 0 0xFFF [7] (step { State.reset with inbox := [.hostWrite 0xFFF [7]] }) = true := by decide

/-- The example of R191: sums 9 and 450 give 0 and 49 with RECIP9 = 7281, 1 and 50 with 7282. -/
theorem test_reciprocal :
    mulhiU16 [9, 450, 2295] (kRecip9 .v128 .r7281) = [0, 49, 254] ∧ mulhiU16 [9, 450, 2295] (kRecip9 .v128 .r7282) = [1, 50, 255] := by
  decide

/-- The example of R194: 0 less 1020 is the lane 0xFC04, packed to 0. -/
theorem test_sharp_lane : sub16 [0] [1020] = [0xFC04] ∧ packus16 [0xFC04] [1275] = [0, 255] := by decide

/-! ## Witnesses: for each statement with hypotheses, states and operands that meet them together -/

/-- A memory of 4 bytes of source and a padded 1 × 1 buffer of `01 02 03 04` at 0x40 (vector 3.3). -/
def tinyMem : Memory :=
  Memory.writeBytes (place 0 [1, 2, 3, 4]) 0x40 ((List.replicate 9 [1, 2, 3, 4]).flatten)

def tiny : State := onMemory tinyMem

/-- Operands of a command on the padded 1 × 1 buffer, to 0x80. -/
def tinyOp : Operands := { w := 1, h := 1, src := 0x40, len := 36, dst := 0x80 }

/-- The same in place. -/
def tinyIn : Operands := { tinyOp with dst := 0x40 }

/-- PAD of the pixel at 0. -/
def tinyPad : Operands := { w := 1, h := 1, src := 0, len := 4, dst := 0x40 }

/-- What most statements ask of a command and a state. -/
def Accepted (i : Instr) (s : State) : Prop :=
  i.wellFormed = true ∧ s.state ≠ .busy ∧ errorOf s.params.memBytes i = none

theorem accepted_of (i : Instr) (s : State)
    (h : (i.wellFormed && decide (s.state ≠ .busy) && decide (errorOf s.params.memBytes i = none)) = true) :
    Accepted i s := by
  simpa [Accepted, Bool.and_eq_true, and_assoc] using h

theorem uniform_tiny (x y : Nat) (hx : x ≤ 2) (hy : y ≤ 2) : cell tinyMem 0x40 1 x y = ⟨1, 2, 3, 4⟩ := by
  interval_cases x <;> interval_cases y <;> decide

/-! ### Encoding -/

/-- Every operand at an end of its range. -/
theorem witness_DecodeUndoesEncode :
    (Instr.vsharp true { w := -(2 ^ 31), h := 2 ^ 31 - 1, src := 2 ^ 32 - 1, len := 2 ^ 31, dst := 2 ^ 32 - 1 }).wellFormed
      = true := by decide

theorem witness_EncodeUndoesDecode : ∃ i, decode (Descriptor.ofWords 0x120 3 2 0x100 0x50 0x200) = .ok i :=
  ⟨_, test_decode_vblur_tail⟩

/-- A descriptor for each clause of R87: reserved bits, an unknown opcode, TAIL outside the vector family, and a
legal one with either TAIL. -/
theorem witness_DecodeFollowsTheAlgorithm :
    (Descriptor.ofWords 0x80000001 0 0 0 0 0).extractLsb' 9 23 ≠ 0 ∧
    (Descriptor.ofWords 0x23 0 0 0 0 0).extractLsb' 0 8 ∉
      ([0x01, 0x02, 0x03, 0x10, 0x11, 0x12, 0x20, 0x21, 0x22] : List (BitVec 8)) ∧
    ((Descriptor.ofWords 0x112 0 0 0 0 0).getLsbD 8 = true ∧
      (Descriptor.ofWords 0x112 0 0 0 0 0).extractLsb' 4 4 ≠ (2 : BitVec 4)) ∧
    ((Descriptor.ofWords 0x12 0 0 0 0 0).getLsbD 8 = false ∧
      (Descriptor.ofWords 0x12 0 0 0 0 0).extractLsb' 0 8 = (0x12 : BitVec 8)) ∧
    (Descriptor.ofWords 0x122 0 0 0 0 0).extractLsb' 9 23 = 0 ∧
    (Descriptor.ofWords 0x122 0 0 0 0 0).extractLsb' 0 8 = (0x22 : BitVec 8) := by decide

/-! ### Lifecycle -/

theorem witness_IssueLatchesAndValidates :
    ∃ (s : State) (d : Descriptor) (rest : List Turn), s.inbox = .issue d :: rest ∧ s.state ≠ .busy :=
  ⟨{ tiny with inbox := [.issue (encode (.sblur tinyOp)), .status] }, _, _, rfl, by decide⟩

/-- A command for each of the three codes that a legal command can end in. -/
theorem witness_FailingCommandEndsInError :
    ((Instr.pad { tinyPad with w := 0 }).wellFormed = true ∧ tiny.state ≠ .busy ∧
      errorOf tiny.params.memBytes (.pad { tinyPad with w := 0 }) = some .invalidDimensions) ∧
    ((Instr.strip { tinyOp with len := 35 }).wellFormed = true ∧
      errorOf tiny.params.memBytes (.strip { tinyOp with len := 35 }) = some .bufferTooSmall) ∧
    ((Instr.halo { tinyOp with dst := 4061 }).wellFormed = true ∧
      errorOf tiny.params.memBytes (.halo { tinyOp with dst := 4061 }) = some .allocationFailure) ∧
    (Instr.vblur true { tinyOp with dst := 0x44 }).wellFormed = true ∧
      errorOf tiny.params.memBytes (.vblur true { tinyOp with dst := 0x44 }) = some .allocationFailure := by decide

/-- A BUSY engine whose registers hold PAD of the pixel at 0, after some of its 4 calls. -/
def busyPad (calls : Word) : State := { tiny with d := regsOf (.pad tinyPad), state := .busy, callIdx := calls }

theorem busyPad_decodes (n : Word) : decode (busyPad n).d.toDescriptor = .ok (.pad tinyPad) := by
  show decode (regsOf (.pad tinyPad)).toDescriptor = .ok (.pad tinyPad)
  decide

/-- Each clause: a call left, no call left, not BUSY, BUSY at the start, and a command without calls. -/
theorem witness_EngineTurnFollowsStep :
    ((busyPad 3).inbox = [] ∧ decode (busyPad 3).d.toDescriptor = .ok (.pad tinyPad) ∧
      errorOf (busyPad 3).params.memBytes (.pad tinyPad) = none ∧ (busyPad 3).state = .busy ∧
      ((planOf (busyPad 3).params (.pad tinyPad)).calls 1 1)[(busyPad 3).callIdx.toNat]? = some (.vrow 2 1)) ∧
    ((busyPad 4).state = .busy ∧
      ((planOf (busyPad 4).params (.pad tinyPad)).calls 1 1).length ≤ (busyPad 4).callIdx.toNat) ∧
    ({ busyPad 4 with state := .done } : State).state ≠ .busy ∧
    ((busyPad 0).state = .busy ∧ (busyPad 0).callIdx = 0) ∧
    (planOf tiny.params (.vgray false tinyOp)).calls 1 1 = [] :=
  ⟨⟨rfl, busyPad_decodes 3, by decide, rfl, by decide⟩, ⟨rfl, by decide⟩, by decide,
    ⟨rfl, rfl⟩, by decide⟩

/-- The corners of the lists: the last source pixel, the last row, the last group and the last tail column. -/
theorem witness_CallListsAreTheLoopNests :
    (padCalls 3 2)[1 * 3 + 2]? = some (.copyIn 2 1) ∧ (padCalls 3 2)[3 * 2 + 1]? = some (.hcol 2) ∧
    (stripCalls 3 2)[5]? = some (.copyOut 2 1) ∧ (scalarCalls .gray 3 2)[5]? = some (.scall .gray 3 2) ∧
    0 < 2 ∧ (vectorCalls .blur 2 true 5 2)[1 * 3 + 1]? = some (.vcall .blur 3 2) ∧
    (vectorCalls .blur 2 true 5 2)[1 * 3 + (2 + 0)]? = some (.scall .blur 5 2) := by decide

theorem witness_CallCountsAreBounded :
    errorOf Config.Params.default.memBytes (.vsharp true opA) = none := by decide

/-- A valid command, one that fails a check, and an illegal descriptor. -/
theorem witness_CommandIsIssueThenItsCalls :
    (∃ (s : State) (d : Descriptor) (rest : List Turn), s.inbox = .command d :: rest ∧ s.state ≠ .busy ∧
      ∃ i, decode d = .ok i ∧ errorOf s.params.memBytes i = none) ∧
    (∃ (s : State) (d : Descriptor) (rest : List Turn), s.inbox = .command d :: rest ∧ s.state ≠ .busy ∧
      ∃ i e, decode d = .ok i ∧ errorOf s.params.memBytes i = some e) ∧
    ∃ (s : State) (d : Descriptor) (rest : List Turn), s.inbox = .command d :: rest ∧ s.state ≠ .busy ∧
      ∃ e, decode d = .error e :=
  ⟨⟨{ tiny with inbox := [.command (Descriptor.ofWords 0x20 3 2 0x100 0x50 0x200), .status] }, _, _, rfl, by decide, _,
      test_decode_vblur, by decide⟩,
    ⟨{ tiny with inbox := [.command (Descriptor.ofWords 1 3 2 0x100 0x50 0x200)], params := { tiny.params with memTop := 1 } },
      _, _, rfl, by decide, _, _, test_decode_pad,
      (by decide : errorOf 2 (.pad opA) = some .bufferTooSmall)⟩,
    ⟨{ tiny with inbox := [.command (Descriptor.ofWords 4 1 1 0 4 0x40)] }, _, _, rfl, by decide, _,
      test_decode_illegal.1⟩⟩

theorem witness_StepRunsTheDecodedCommand :
    ∃ (s : State) (bs : List Byte) (i : Instr) (rest : List Turn), decodeBytes bs = .ok i ∧
      s.inbox = .command (BitVec.ofNat 192 (natOfBytes bs)) :: rest ∧ s.state ≠ .busy :=
  ⟨{ tiny with inbox := [.command (BitVec.ofNat 192 (natOfBytes ([0x01, 0x00, 0x00, 0x00, 0x03, 0x00, 0x00, 0x00, 0x02, 0x00,
      0x00, 0x00] ++ [0x00, 0x00, 0x00, 0x00, 0x18, 0x00, 0x00, 0x00, 0x00, 0x01, 0x00, 0x00])))] }, _, _, _,
    test_decode_bytes, rfl, by decide⟩

theorem witness_FetchWordRunsNext : ∃ i, decodeTableWord 192 0x22 = some i := ⟨_, test_decode_table_word⟩

theorem witness_ExecAlwaysAnswers : ∃ s : State, s.state = .busy := ⟨busyPad 3, rfl⟩

/-- Each of the four actions, held by a BUSY engine that moves. -/
theorem witness_BusyHoldsHostActions :
    (∃ t, step { ({ busyPad 3 with inbox := [.hostRead 0 1] } : State) with inbox := [] } = .next t) ∧
    ({ busyPad 3 with inbox := [.hostRead 0 1] } : State).state = .busy ∧
    (∃ d, Turn.issue (encode (.sblur tinyOp)) = .issue d) ∧ (∃ d, Turn.command (encode (.sblur tinyOp)) = .command d) ∧
    (∃ x n, Turn.hostRead 0 1 = .hostRead x n) ∧ ∃ x bs, Turn.hostWrite 0 [1] = .hostWrite x bs :=
  ⟨exists_next _ (by decide), rfl, ⟨_, rfl⟩, ⟨_, rfl⟩, ⟨_, _, rfl⟩, ⟨_, _, rfl⟩⟩

theorem busyPad_inv : (busyPad 3).Inv where
  memWf := by decide
  memBelow := by decide
  errIff := by decide
  idle := by decide
  busy := by decide
  done := by decide
  error := by decide

theorem witness_BusyReachesDone : (busyPad 3).Inv ∧ (busyPad 3).state = .busy ∧ (busyPad 3).inbox = [] :=
  ⟨busyPad_inv, rfl, rfl⟩

/-! ### Status, host accesses, reset -/

theorem witness_StatusReturnsTheStatusWord :
    ∃ (s : State) (rest : List Turn), s.inbox = .status :: rest := ⟨{ busyPad 2 with inbox := [.status] }, _, rfl⟩

/-- The last byte of memory, one byte past it, and no byte, for a read and for a write. -/
theorem witness_HostAccessesMoveExactlyTheirBytes :
    tiny.state ≠ .busy ∧
    ({ tiny with inbox := [.hostRead 4095 1] } : State).inbox = [.hostRead 4095 1] ∧
    (1 ≤ 1 ∧ 4095 + 1 ≤ tiny.params.memBytes) ∧ ¬ (1 ≤ 1 ∧ 4096 + 1 ≤ tiny.params.memBytes) ∧
    ¬ (1 ≤ 0 ∧ 0 + 0 ≤ tiny.params.memBytes) ∧
    ({ tiny with inbox := [.hostWrite 4094 [1, 2]] } : State).inbox = [.hostWrite 4094 [1, 2]] ∧
    (1 ≤ ([1, 2] : List Byte).length ∧ 4094 + ([1, 2] : List Byte).length ≤ tiny.params.memBytes) ∧
    ¬ (1 ≤ ([1, 2] : List Byte).length ∧ 4095 + ([1, 2] : List Byte).length ≤ tiny.params.memBytes) ∧
    ¬ (1 ≤ ([] : List Byte).length ∧ 0 + ([] : List Byte).length ≤ tiny.params.memBytes) := by decide

theorem witness_ResetClearsTheRegisters :
    ∃ (s : State) (rest : List Turn), s.inbox = .reset :: rest ∧ s.state ≠ .busy :=
  ⟨{ busyPad 4 with inbox := [.reset], state := .done }, _, rfl, by decide⟩

theorem witness_ResetWhileBusyLosesTheDestination :
    ∃ (s : State) (i : Instr) (rest : List Turn), s.inbox = .reset :: rest ∧ s.state = .busy ∧
      decode s.d.toDescriptor = .ok i :=
  ⟨{ busyPad 2 with inbox := [.reset] }, _, _, rfl, rfl, busyPad_decodes 2⟩

/-- Rises by the completion STEP, falls at an ISSUE that starts a command. -/
theorem witness_IrqRisesAndFallsWithCommands :
    (∃ t, step (busyPad 4) = .next t ∧ (busyPad 4).irq = false ∧ t.irq = true) ∧
    ∃ s t, step s = .next t ∧ s.irq = true ∧ t.irq = false :=
  ⟨⟨_, rfl, by decide, by decide⟩,
    ⟨{ tiny with state := .done, inbox := [.issue (encode (.sblur tinyOp))] }, _, rfl, by decide, by decide⟩⟩

/-! ### The machine as a whole -/

theorem witness_StepKeepsTheInvariant : (busyPad 3).Inv ∧ ∃ t, step (busyPad 3) = .next t :=
  ⟨busyPad_inv, exists_next _ (by decide)⟩

theorem witness_InvariantRunsAreSafe : (busyPad 3).Inv := busyPad_inv

/-- STATE changes from BUSY and from another state. -/
theorem witness_StateMovesAsTabulated :
    (∃ t, step (busyPad 4) = .next t ∧ t.state ≠ (busyPad 4).state ∧ (busyPad 4).state = .busy) ∧
    ∃ s t, step s = .next t ∧ t.state ≠ s.state ∧ s.state ≠ .busy :=
  ⟨⟨_, rfl, by decide, rfl⟩,
    ⟨{ tiny with inbox := [.command (encode (.halo tinyOp))] }, _, rfl, by decide, by decide⟩⟩

theorem witness_DescriptorAndErrorChangeOnlyAtIssueOrReset :
    ∃ s t, step s = .next t ∧ (t.d ≠ s.d ∨ t.err ≠ s.err) :=
  ⟨{ tiny with inbox := [.issue (encode (.sblur { tinyOp with len := 1 }))] }, _, rfl, by decide⟩

theorem witness_ParametersNeverChange : ∃ t, step (busyPad 3) = .next t := exists_next _ (by decide)

/-- Canonical memories, and an address on either side of the bytes stored. -/
theorem witness_MemoryIsReadAsWritten :
    tinyMem.wf ∧ (place 5 [0xEE, 7]).wf ∧ (4 < 5 ∨ 5 + 2 ≤ 4) ∧ (7 < 5 ∨ 5 + 2 ≤ 7) := by decide

/-! ### Halo builder commands -/

theorem witness_HaloBuilderPostcondition : Accepted (.pad tinyPad) tiny ∧ Accepted (.halo tinyIn) tiny :=
  ⟨accepted_of _ _ (by decide), accepted_of _ _ (by decide)⟩

theorem witness_StripCopiesTheInterior : Accepted (.strip tinyOp) tiny := accepted_of _ _ (by decide)

theorem padded_tiny : PaddedBuffer tinyMem 0x40 1 1 where
  i1 := fun y h1 h2 => ⟨by rw [uniform_tiny 0 y (by omega) (by omega), uniform_tiny 1 y (by omega) (by omega)],
    by rw [uniform_tiny (1 + 1) y (by omega) (by omega), uniform_tiny 1 y (by omega) (by omega)]⟩
  i2 := fun x h => ⟨by rw [uniform_tiny x 0 (by omega) (by omega), uniform_tiny x 1 (by omega) (by omega)],
    by rw [uniform_tiny x (1 + 1) (by omega) (by omega), uniform_tiny x 1 (by omega) (by omega)]⟩

theorem witness_HaloIsIdempotent :
    Accepted (.halo tinyIn) tiny ∧ PaddedBuffer tiny.mem tinyIn.dst tinyIn.w.toNat tinyIn.h.toNat ∧
      ∃ t, exec (.halo tinyIn) tiny = .next t :=
  ⟨accepted_of _ _ (by decide), padded_tiny, exists_next _ (by decide)⟩

/-- a = 0, b = 0x40, c = 0x80, d = 0xC0. -/
theorem witness_PadStripRoundTrip :
    ∃ s1 s2 s3, Accepted (.pad tinyPad) tiny ∧ Accepted (.strip tinyOp) tiny ∧
      Accepted (.pad { tinyPad with src := 0x80, dst := 0xC0 }) tiny ∧
      (0 + 4 ≤ 0x40 ∨ 0x40 + 36 ≤ 0) ∧ (0 + 4 ≤ 0x80 ∨ 0x80 + 4 ≤ 0) ∧ (0 + 4 ≤ 0xC0 ∨ 0xC0 + 36 ≤ 0) ∧
      (0x40 + 36 ≤ 0x80 ∨ 0x80 + 4 ≤ 0x40) ∧ (0x40 + 36 ≤ 0xC0 ∨ 0xC0 + 36 ≤ 0x40) ∧
      (0x80 + 4 ≤ 0xC0 ∨ 0xC0 + 36 ≤ 0x80) ∧
      exec (.pad tinyPad) tiny = .next s1 ∧ exec (.strip tinyOp) s1 = .next s2 ∧
      exec (.pad { tinyPad with src := 0x80, dst := 0xC0 }) s2 = .next s3 := by
  refine ⟨_, _, _, accepted_of _ _ (by decide), accepted_of _ _ (by decide),
    accepted_of _ _ (by decide), by omega, by omega, by omega, by omega, by omega, by omega,
    eq_after _ (by decide), eq_after _ (by decide), eq_after _ (by decide)⟩

/-! ### Kernel commands -/

/-- Disjoint and in place. -/
theorem witness_SblurAveragesTheNeighbourhood : Accepted (.sblur opA) onA ∧ Accepted (.sblur opInA) onA :=
  ⟨accepted_of _ _ (by decide), accepted_of _ _ (by decide)⟩

theorem witness_SgrayWritesTheLuma : Accepted (.sgray opA) onA ∧ Accepted (.sgray opInA) onA :=
  ⟨accepted_of _ _ (by decide), accepted_of _ _ (by decide)⟩

theorem witness_SsharpClampsTheCross : Accepted (.ssharp opA) onA ∧ Accepted (.ssharp opInA) onA :=
  ⟨accepted_of _ _ (by decide), accepted_of _ _ (by decide)⟩

theorem witness_VblurMultipliesByTheReciprocal : Accepted (.vblur false opA) onA ∧ Accepted (.vblur true opInA) onA :=
  ⟨accepted_of _ _ (by decide), accepted_of _ _ (by decide)⟩

theorem witness_VgrayWritesTheLuma : Accepted (.vgray false opA) onA ∧ Accepted (.vgray true opInA) onA :=
  ⟨accepted_of _ _ (by decide), accepted_of _ _ (by decide)⟩

theorem witness_VsharpClampsTheCross : Accepted (.vsharp false opA) onA ∧ Accepted (.vsharp true opInA) onA :=
  ⟨accepted_of _ _ (by decide), accepted_of _ _ (by decide)⟩

/-- The uniform 1 × 1 buffer for the scalar clauses. -/
theorem witness_UniformImagesUnderTheKernels :
    (∀ x y, x ≤ tinyOp.w.toNat + 1 → y ≤ tinyOp.h.toNat + 1 → cell tiny.mem tinyOp.src tinyOp.w.toNat x y = ⟨1, 2, 3, 4⟩) ∧
    (Accepted (.sblur tinyOp) tiny ∧ ∃ t, exec (.sblur tinyOp) tiny = .next t) ∧
    (Accepted (.ssharp tinyOp) tiny ∧ ∃ t, exec (.ssharp tinyOp) tiny = .next t) ∧
    interior tinyOp.w.toNat tinyOp.h.toNat 1 1 :=
  ⟨uniform_tiny, ⟨accepted_of _ _ (by decide), exists_next _ (by decide)⟩,
    ⟨accepted_of _ _ (by decide), exists_next _ (by decide)⟩, by decide⟩

/-- A uniform 2 × 1 buffer of `01 02 03 04` at 0x40, for the vector clauses, under either reciprocal. -/
def wide (r : Config.Reciprocal) : State :=
  { onMemory (place 0x40 ((List.replicate 12 [1, 2, 3, 4]).flatten)) with params := { Config.Params.default with recip9 := r } }

def wideOp : Operands := { w := 2, h := 1, src := 0x40, len := 48, dst := 0x80 }

theorem uniform_wide (r : Config.Reciprocal) (x y : Nat) (hx : x ≤ 3) (hy : y ≤ 2) :
    cell (wide r).mem 0x40 2 x y = ⟨1, 2, 3, 4⟩ := by
  cases r <;> interval_cases x <;> interval_cases y <;> decide

theorem witness_UniformImagesUnderTheVectorKernels (r : Config.Reciprocal) :
    (∀ x y, x ≤ wideOp.w.toNat + 1 → y ≤ wideOp.h.toNat + 1 →
      cell (wide r).mem wideOp.src wideOp.w.toNat x y = ⟨1, 2, 3, 4⟩) ∧
    Accepted (.vblur false wideOp) (wide r) ∧ Accepted (.vblur false { wideOp with dst := 0x40 }) (wide r) ∧
    (wide r).params.recip9 = r ∧ (∃ t, exec (.vblur false wideOp) (wide r) = .next t) ∧
    (∃ t, exec (.vblur false { wideOp with dst := 0x40 }) (wide r) = .next t) ∧
    interior wideOp.w.toNat wideOp.h.toNat 2 1 ∧ covered 2 false wideOp.w.toNat 2 = true ∧
    grouped 2 wideOp.w.toNat 2 = true := by
  refine ⟨uniform_wide r, accepted_of _ _ ?_, accepted_of _ _ ?_, rfl, exists_next _ ?_, exists_next _ ?_, by decide,
    by decide, by decide⟩ <;>
  cases r <;> decide

/-- Both clauses: a second pass on the first one's result, and in place beside disjoint. -/
theorem witness_SgrayIsIdempotentAndImmuneInPlace :
    ∃ t u v, Accepted (.sgray tinyOp) tiny ∧ Accepted (.sgray { tinyOp with src := tinyOp.dst, len := 36 }) tiny ∧
      Accepted (.sgray { tinyOp with dst := tinyOp.src }) tiny ∧ exec (.sgray tinyOp) tiny = .next t ∧
      exec (.sgray { tinyOp with src := tinyOp.dst, len := 36 }) t = .next u ∧
      exec (.sgray { tinyOp with dst := tinyOp.src }) tiny = .next v := by
  exact ⟨_, _, _, accepted_of _ _ (by decide), accepted_of _ _ (by decide),
    accepted_of _ _ (by decide), eq_after _ (by decide), eq_after _ (by decide),
    eq_after _ (by decide)⟩

/-- The first interior cell, for BlurLanesAreTheClosedForm and SharpLanesAreTheScalarSharpen. -/
theorem witness_BlurLanesAreTheClosedForm : 1 ≤ 1 ∧ 1 ≤ 1 := by decide

/-- W = 3 has a group and a tail column. -/
theorem witness_VblurIsWithinOneOfSblur :
    Accepted (.sblur opA) onA ∧ opA.src ≠ opA.dst ∧ (∃ t, exec (.sblur opA) onA = .next t) ∧
      (∃ u, exec (.vblur true opA) onA = .next u) ∧ onA.params.recip9 = .r7281 ∧
      (interior opA.w.toNat opA.h.toNat 2 2 ∧ covered 2 true opA.w.toNat 2 = true ∧ grouped 2 opA.w.toNat 2 = true) ∧
      interior opA.w.toNat opA.h.toNat 3 2 ∧ covered 2 true opA.w.toNat 3 = true ∧ grouped 2 opA.w.toNat 3 = false :=
  ⟨accepted_of _ _ (by decide), by decide, exists_next _ (by decide), exists_next _ (by decide),
    rfl, by decide, by decide⟩

theorem witness_VgrayEqualsSgrayUnderPreserve :
    Accepted (.sgray opA) onA ∧ onA.params.grayAlpha = .preserve ∧ (∃ t, exec (.sgray opA) onA = .next t) ∧
      ∃ u, exec (.vgray true opA) onA = .next u :=
  ⟨accepted_of _ _ (by decide), rfl, exists_next _ (by decide), exists_next _ (by decide)⟩

theorem witness_VsharpEqualsSsharpForGroupsOfOne :
    Accepted (.ssharp opInA) onA ∧ onA.params.pSharp = .one ∧ (∃ t, exec (.ssharp opInA) onA = .next t) ∧
      ∃ u, exec (.vsharp true opInA) onA = .next u :=
  ⟨accepted_of _ _ (by decide), rfl, exists_next _ (by decide), exists_next _ (by decide)⟩

/-- W = 3: fewer columns than VGRAY's group, and a multiple of VSHARP's single column. -/
theorem witness_TailModesAgreeAndDegenerate :
    opA.wellFormed = true ∧ onA.state ≠ .busy ∧ errorOf onA.params.memBytes (.sgray opA) = none ∧
      errorOf onA.params.memBytes (.ssharp opA) = none ∧ opA.w.toNat < 4 ∧ opA.w.toNat % onA.params.pSharp.pixels = 0 ∧
      (∃ t, exec (.vgray false opA) onA = .next t) ∧ (∃ t, exec (.vgray true opA) onA = .next t) ∧
      (∃ t, exec (.sgray opA) onA = .next t) ∧ (∃ t, exec (.vsharp false opA) onA = .next t) ∧
      (∃ t, exec (.vsharp true opA) onA = .next t) ∧ ∃ t, exec (.ssharp opA) onA = .next t :=
  ⟨by decide, by decide, by decide, by decide, by decide, by decide, exists_next _ (by decide),
    exists_next _ (by decide), exists_next _ (by decide), exists_next _ (by decide),
    exists_next _ (by decide), exists_next _ (by decide)⟩

/-! ### Frames -/

/-- An accepted command, and the bytes on either side of its destination. -/
theorem witness_CommandsTouchOnlyTheirDestination :
    (Instr.strip tinyOp).wellFormed = true ∧ (∃ t, exec (.strip tinyOp) tiny = .next t) ∧
      (0x7F < tinyOp.dst ∨ tinyOp.dst + (Instr.strip tinyOp).needDst 1 1 ≤ 0x7F) ∧
      (0x84 < tinyOp.dst ∨ tinyOp.dst + (Instr.strip tinyOp).needDst 1 1 ≤ 0x84) :=
  ⟨by decide, exists_next _ (by decide), by decide, by decide⟩

/-- A halo cell, and a tail column with TAIL = 0. -/
theorem witness_KernelsKeepHaloAndTail :
    (Instr.vblur false opA).wellFormed = true ∧ (Instr.vblur false opA).isKernel = true ∧
      (∃ t, exec (.vblur false opA) onA = .next t) ∧
      ¬ (interior 3 2 0 1 ∧ ((Instr.vblur false opA).tail = true ∨ 0 ≤ 3 / (Instr.vblur false opA).group onA.params *
        (Instr.vblur false opA).group onA.params)) ∧
      ¬ (interior 3 2 3 1 ∧ ((Instr.vblur false opA).tail = true ∨ 3 ≤ 3 / (Instr.vblur false opA).group onA.params *
        (Instr.vblur false opA).group onA.params)) :=
  ⟨by decide, rfl, exists_next _ (by decide), by decide, by decide⟩

/-- Two memories that differ outside both regions. -/
theorem witness_CallsStayInTheirRegions :
    (Instr.sblur tinyOp).wellFormed = true ∧ errorOf tiny.params.memBytes (.sblur tinyOp) = none ∧
      Call.scall .blur 1 1 ∈ (planOf tiny.params (.sblur tinyOp)).calls 1 1 ∧
      ∃ m', m' ≠ tinyMem ∧ ∀ a, (0x40 ≤ a ∧ a < 0x40 + 36) ∨ (0x80 ≤ a ∧ a < 0x80 + 36) → tinyMem.read a = m'.read a := by
  refine ⟨by decide, by decide, by decide, tinyMem.write 0 9, by decide, ?_⟩
  intro a h
  exact (Memory.read_write_other tinyMem 0 a 9 (by omega)).symm

/-- Two states that agree on the source region and differ in the destination's halo. -/
theorem witness_KernelPassDependsOnSourceOnly :
    ∃ s', Accepted (.ssharp tinyOp) tiny ∧ Accepted (.ssharp tinyOp) s' ∧ (Instr.ssharp tinyOp).isKernel = true ∧
      tinyOp.src ≠ tinyOp.dst ∧ tiny.params = s'.params ∧ s'.mem ≠ tiny.mem ∧
      (∀ a, tinyOp.src ≤ a → a < tinyOp.src + (Instr.ssharp tinyOp).needSrc 1 1 → tiny.mem.read a = s'.mem.read a) ∧
      (∃ t, exec (.ssharp tinyOp) tiny = .next t) ∧ (∃ t, exec (.ssharp tinyOp) s' = .next t) ∧
      interior tinyOp.w.toNat tinyOp.h.toNat 1 1 := by
  refine ⟨onMemory (tinyMem.write 0x80 9), accepted_of _ _ (by decide), accepted_of _ _ (by decide), rfl,
    by decide, rfl, by decide, ?_, exists_next _ (by decide), exists_next _ (by decide), by decide⟩
  intro a h1 h2
  have h3 : a < 0x40 + 36 := h2
  exact (Memory.read_write_other tinyMem 0x80 a 9 (by omega)).symm

/-- Two states that differ in the old halo of the buffer at 0x40: same source pixel, same interior cell. -/
theorem witness_BuildersIgnoreOldHalo :
    ∃ s', Accepted (.pad tinyPad) tiny ∧ Accepted (.halo tinyIn) tiny ∧ s'.state ≠ .busy ∧ tiny.params = s'.params ∧
      s'.mem ≠ tiny.mem ∧ (∀ a, 0 ≤ a → a < 0 + 4 * 1 * 1 → tiny.mem.read a = s'.mem.read a) ∧
      (∀ x y, interior 1 1 x y → cell tiny.mem 0x40 1 x y = cell s'.mem 0x40 1 x y) ∧
      (∃ t, exec (.pad tinyPad) tiny = .next t) ∧ (∃ t, exec (.pad tinyPad) s' = .next t) ∧
      (∃ t, exec (.halo tinyIn) tiny = .next t) ∧ ∃ t, exec (.halo tinyIn) s' = .next t := by
  refine ⟨onMemory (tinyMem.write 0x40 9), accepted_of _ _ (by decide), accepted_of _ _ (by decide),
    by decide, rfl, by decide, ?_, ?_, exists_next _ (by decide), exists_next _ (by decide),
    exists_next _ (by decide), exists_next _ (by decide)⟩
  · intro a _ h
    exact (Memory.read_write_other tinyMem 0x40 a 9 (by omega)).symm
  · rintro x y ⟨h1, h2, h3, h4⟩
    obtain rfl : x = 1 := by omega
    obtain rfl : y = 1 := by omega
    decide

end Sys2Proof.Tests
end

section
/-! Memory is read as written (00_scope.md R12; 20_memory.md R58, R61): MemRead undoes MemWrite, and with the
laws of runs of bytes and of the canonical form above that settles O29. -/

namespace Sys2Proof.Machine

/-- MemRead(a, n) after MemWrite(a, n, v) is v (00_scope.md R12), byte by byte. -/
@[simp] theorem Memory.readBytes_writeBytes_same (m : Memory) (a : Nat) (bs : List Byte) :
    (m.writeBytes a bs).readBytes a bs.length = bs := by
  refine List.ext_getElem (Memory.length_readBytes _ _ _) fun k hread hk => ?_
  calc ((m.writeBytes a bs).readBytes a bs.length)[k]
      = (m.writeBytes a bs).read (a + k) := Memory.getElem_readBytes _ _ _ _ hread
    _ = bs[k] := Memory.read_writeBytes_inside m a bs k hk

/-- Settles O29, from the read-back of a run, its frame, the canonical form it keeps, and extensionality of
canonical memories. -/
theorem memoryIsReadAsWritten : Obligations.MemoryIsReadAsWritten :=
  ⟨fun m a bs =>
    ⟨Memory.readBytes_writeBytes_same m a bs, Memory.read_writeBytes_outside m a bs, Memory.writeBytes_wf m a bs⟩,
    Memory.eq_of_read_eq⟩

end Sys2Proof.Machine
end

section
/-! The decoder read backwards (30_encoding.md R82, R84, R87): what a legal descriptor says of its command, and
that the command encodes to the descriptor it was decoded from. -/

namespace Sys2Proof

/-! ## A command built from an opcode -/

@[simp] theorem Opcode.operands_build (t : Bool) (o : Operands) (c : Opcode) : (c.build t o).operands = o := by
  cases c <;> rfl

@[simp] theorem Opcode.opcode_build (t : Bool) (o : Operands) (c : Opcode) : (c.build t o).opcode = c := by
  cases c <;> rfl

/-- Only the vector family keeps TAIL (R82). -/
@[simp] theorem Opcode.tail_build (t : Bool) (o : Operands) (c : Opcode) :
    (c.build t o).tail = (t && decide (opFamily c.code = 2)) := by
  cases t <;> cases c <;> rfl

/-- The `match` word of a row of R84 is its `OP` byte. -/
theorem Opcode.matchWord_eq_code (c : Opcode) : c.matchWord = c.code.setWidth Config.addrBits := by
  cases c <;> rfl

theorem Opcode.code_of_ofCode? (b : BitVec 8) (c : Opcode) (h : Opcode.ofCode? b = some c) : c.code = b := by
  simpa using List.find?_some h

/-! ## The fields of CTL (R82) -/

/-- Without reserved bits, CTL is its `OP` byte and its TAIL bit. -/
theorem ctl_eq_fields (ctl : Word) (h : ctlReserved ctl = 0) :
    (ctlOp ctl).setWidth Config.addrBits ||| (if ctlTail ctl then 0x100 else 0) = ctl := by
  have hmask (j : Nat) : (0x100 : Word).getLsbD j = decide (8 = j) := by
    rw [show (0x100 : Word) = BitVec.twoPow 32 8 from rfl, BitVec.getLsbD_twoPow]
    rfl
  have hres (k : Nat) (hk : k < 23) : ctl.getLsbD (9 + k) = false := by
    have := congrArg (fun x : BitVec 23 => x.getLsbD k) h
    simpa [ctlReserved, hk] using this
  have htail (j : Nat) :
      (if ctlTail ctl then 0x100 else 0 : Word).getLsbD j = (ctl.getLsbD 8 && decide (8 = j)) := by
    unfold ctlTail
    cases ctl.getLsbD 8
    · simp
    · simp [← hmask]
  apply BitVec.eq_of_getLsbD_eq
  intro j (hj : j < 32)
  rw [BitVec.getLsbD_or, htail, BitVec.getLsbD_setWidth, ctlOp, BitVec.getLsbD_extractLsb']
  rcases Nat.lt_trichotomy j 8 with hlt | rfl | hgt
  · simp [hj, hlt, Nat.ne_of_gt hlt]
  · simp
  · obtain ⟨k, rfl⟩ : ∃ k, j = 9 + k := ⟨j - 9, by omega⟩
    simp [hres k (by omega), show ¬ 9 + k < 8 by omega, show ¬ 8 = 9 + k by omega]
/-! ## Decoding, then encoding -/

/-- Everything the decoder can accept (R87). -/
theorem decode_cases (d : Descriptor) (i : Instr) (h : decode d = .ok i) :
    ∃ c : Opcode, ctlReserved (Descriptor.word 0 d) = 0 ∧ c.code = ctlOp (Descriptor.word 0 d) ∧
      (ctlTail (Descriptor.word 0 d) = true → opFamily c.code = 2) ∧
      i = c.build (ctlTail (Descriptor.word 0 d)) (Descriptor.operands d) := by
  unfold decode at h
  simp only at h
  split at h
  · cases h
  · rename_i hres
    split at h
    · cases h
    · rename_i c hc
      have hcode := Opcode.code_of_ofCode? _ _ hc
      split at h
      · cases h
      · rename_i htail
        refine ⟨c, not_not.1 hres, hcode, fun ht => ?_, (Except.ok.inj h).symm⟩
        rw [hcode]
        exact not_not.1 fun hf => htail ⟨ht, hf⟩

/-- The operands of a decoded command fit their words (R83). -/
theorem wellFormed_of_decode (d : Descriptor) (i : Instr) (h : decode d = .ok i) : i.wellFormed = true := by
  obtain ⟨c, -, -, -, rfl⟩ := decode_cases d i h
  have signed (x : Word) : fitsSignedWord x.toInt = true := by
    have := x.le_toInt
    have := x.toInt_lt
    simp only [fitsSignedWord, Bool.and_eq_true, decide_eq_true_eq]
    omega
  have unsigned (x : Word) : fitsUnsignedWord x.toNat = true := decide_eq_true x.isLt
  simp [Instr.wellFormed, Operands.wellFormed, Descriptor.operands, signed, unsigned]

/-- A legal descriptor is the encoding of the command it decodes to. -/
theorem encode_of_decode (d : Descriptor) (i : Instr) (h : decode d = .ok i) : encode i = d := by
  obtain ⟨c, hres, hcode, htail, rfl⟩ := decode_cases d i h
  have hctl : (c.build (ctlTail (Descriptor.word 0 d)) (Descriptor.operands d)).ctl = Descriptor.word 0 d := by
    have hkept : (ctlTail (Descriptor.word 0 d) && decide (opFamily c.code = 2)) = ctlTail (Descriptor.word 0 d) := by
      simpa using htail
    rw [Instr.ctl, Opcode.opcode_build, Opcode.tail_build, hkept, Opcode.matchWord_eq_code, hcode]
    exact ctl_eq_fields _ hres
  rw [encode, hctl, Opcode.operands_build]
  simpa [Descriptor.operands] using Descriptor.ofWords_word d

namespace Machine

/-- Registers that hold a legal descriptor hold the words of its command. -/
theorem DescRegs.eq_regsOf (d : DescRegs) (i : Instr) (h : decode d.toDescriptor = .ok i) : d = regsOf i := by
  obtain ⟨h0, h1, h2, h3, h4, h5⟩ := Descriptor.word_ofWords d.ctl d.width d.height d.srcBase d.srcLen d.dstBase
  have hd : DescRegs.ofDescriptor d.toDescriptor = d := by
    unfold DescRegs.ofDescriptor DescRegs.toDescriptor
    rw [h0, h1, h2, h3, h4, h5]
  rw [← hd, ← encode_of_decode _ i h, DescRegs.ofDescriptor_encode]

end Machine

end Sys2Proof
end

section
/-! The call lists inside their regions (20_memory.md R54; 40_command_lifecycle.md R117, R119): how many calls a
command has, which bytes they write, and that they list no byte outside memory. -/

namespace Sys2Proof.Machine

/-! ## Canonical memory below a bound -/

/-- A listed byte of a canonical memory is what its address reads as. -/
theorem Memory.read_of_mem (m : Memory) (hm : m.wf) (c : Host.Cell) (hc : c ∈ m) : m.read c.1 = c.2 := by
  obtain ⟨hsorted, -⟩ := hm
  induction m with
  | nil => cases hc
  | cons e m ih =>
    obtain ⟨hhead, htail⟩ := List.pairwise_cons.1 hsorted
    rw [Memory.read_cons]
    rcases List.mem_cons.1 hc with rfl | hmem
    · simp
    · rw [if_neg (Nat.ne_of_lt (hhead c hmem)), ih hmem htail]

/-- A canonical memory lists nothing beyond a bound when it reads there like one that lists nothing there. -/
theorem Memory.below_of_read_eq (m m' : Memory) (bound : Nat) (hm : m.below bound) (hm' : m'.wf)
    (h : ∀ a, bound ≤ a → m'.read a = m.read a) : m'.below bound := by
  intro c hc
  by_contra hbeyond
  have hunlisted : m.read c.1 = Memory.blank := Memory.read_unlisted m c.1 fun e he heq => by
    have := hm e he
    omega
  refine hm'.2 c hc ?_
  rw [← Memory.read_of_mem m' hm' c hc, h c.1 (by omega), hunlisted]

/-! ## How many calls (R119) -/

/-- A row-major list of h rows of n calls has h × n calls. -/
theorem length_rows (f : Nat → List Call) (h n : Nat) (hrow : ∀ y, (f y).length = n) :
    ((List.range h).flatMap f).length = h * n := by
  simp [List.length_flatMap, hrow]

@[simp] theorem length_haloCalls (h : Nat) : (haloCalls h).length = h + 2 := by simp [haloCalls]

@[simp] theorem length_padCalls (w h : Nat) : (padCalls w h).length = w * h + h + 2 := by
  rw [padCalls, List.length_append, length_haloCalls, length_rows _ h w (by simp)]
  ring

@[simp] theorem length_stripCalls (w h : Nat) : (stripCalls w h).length = w * h := by
  rw [stripCalls, length_rows _ h w (by simp), Nat.mul_comm]

@[simp] theorem length_scalarCalls (k : Kernel) (w h : Nat) : (scalarCalls k w h).length = w * h := by
  rw [scalarCalls, length_rows _ h w (by simp), Nat.mul_comm]

@[simp] theorem length_vectorCalls (k : Kernel) (pp : Nat) (tail : Bool) (w h : Nat) :
    (vectorCalls k pp tail w h).length = h * (w / pp + if tail then w % pp else 0) :=
  length_rows _ h _ fun y => by cases tail <;> simp [vectorRow]

/-- The call list of a command has the calls of R119. -/
theorem length_calls (p : Config.Params) (i : Instr) :
    ((planOf p i).calls i.width i.height).length = callCount p i := by
  cases i with
  | pad o => exact length_padCalls _ _
  | halo o => exact length_haloCalls _
  | strip o => exact length_stripCalls _ _
  | sblur o => exact length_scalarCalls _ _ _
  | sgray o => exact length_scalarCalls _ _ _
  | ssharp o => exact length_scalarCalls _ _ _
  | vblur t o => exact length_vectorCalls _ _ _ _ _
  | vgray t o => exact length_vectorCalls _ _ _ _ _
  | vsharp t o => exact length_vectorCalls _ _ _ _ _

/-- A row of a vector command has at most as many calls as columns. -/
theorem vectorRow_calls_le (pp w : Nat) (tail : Bool) (hpp : 0 < pp) : w / pp + (if tail then w % pp else 0) ≤ w := by
  have hsplit := Nat.div_add_mod w pp
  have := Nat.le_mul_of_pos_left (w / pp) hpp
  split <;> omega

/-- Fewer calls than cells of the padded shape (R119). -/
theorem callCount_lt_cells (p : Config.Params) (i : Instr) : callCount p i < (i.width + 2) * (i.height + 2) := by
  have hcells : (i.width + 2) * (i.height + 2) = i.width * i.height + 2 * i.width + 2 * i.height + 4 := by ring
  have vector (pp : Nat) (tail : Bool) (hpp : 0 < pp) :
      i.height * (i.width / pp + if tail then i.width % pp else 0) ≤ i.width * i.height := by
    rw [Nat.mul_comm i.width]
    exact Nat.mul_le_mul_left _ (vectorRow_calls_le pp i.width tail hpp)
  rw [hcells]
  cases i with
  | pad o => simp only [callCount]; omega
  | halo o => simp only [callCount]; omega
  | strip o => simp only [callCount]; omega
  | sblur o => simp only [callCount]; omega
  | sgray o => simp only [callCount]; omega
  | ssharp o => simp only [callCount]; omega
  | vblur t o => exact Nat.lt_of_le_of_lt (vector 2 t (by omega)) (by omega)
  | vgray t o => exact Nat.lt_of_le_of_lt (vector 4 t (by omega)) (by omega)
  | vsharp t o =>
    exact Nat.lt_of_le_of_lt (vector _ t (Config.SharpGroup.pixels_le p.pSharp).1) (by omega)

/-- CALL_IDX of an accepted command never overflows (R119). -/
theorem callCount_lt_of_accepted (p : Config.Params) (i : Instr) (h : errorOf p.memBytes i = none) :
    callCount p i < 2 ^ 30 := by
  obtain ⟨-, -, -, -, hsize⟩ := dimensions_of_accepted p.memBytes i h
  have := callCount_lt_cells p i
  rw [Nat.mul_assoc] at hsize
  omega

/-! ## Which bytes (R54) -/

theorem mem_haloCalls (h : Nat) (c : Call) :
    c ∈ haloCalls h ↔ (∃ y, y < h ∧ c = .hcol (y + 1)) ∨ c = .vrow 0 1 ∨ c = .vrow (h + 1) h := by
  simp [haloCalls, eq_comm]

theorem mem_padCalls (w h : Nat) (c : Call) :
    c ∈ padCalls w h ↔ (∃ y x, y < h ∧ x < w ∧ c = .copyIn x y) ∨ c ∈ haloCalls h := by
  simp [padCalls, eq_comm]

theorem mem_stripCalls (w h : Nat) (c : Call) :
    c ∈ stripCalls w h ↔ ∃ y x, y < h ∧ x < w ∧ c = .copyOut x y := by
  simp [stripCalls, eq_comm]

/-- The calls of a list write only bytes of the region of `n` bytes at the destination. -/
def WritesWithin (p : Config.Params) (d : DescRegs) (cs : List Call) (n : Nat) : Prop :=
  ∀ c ∈ cs, ∀ a, c.writes p d a → d.dst ≤ a ∧ a < d.dst + n

theorem haloCalls_within (p : Config.Params) (d : DescRegs) (h : Nat) :
    WritesWithin p d (haloCalls h) (4 * (d.w + 2) * (h + 2)) := by
  intro c hc a ha
  have row (y : Nat) (hy : y ≤ h + 1) := px_inside d.dst d.w h 0 y (by omega) hy
  have last (y : Nat) (hy : y ≤ h + 1) := px_inside d.dst d.w h (d.w + 1) y (by omega) hy
  have width (y : Nat) : px d.dst d.w (d.w + 1) y = px d.dst d.w 0 y + 4 * (d.w + 1) := by
    simpa using px_add d.dst d.w 0 y (d.w + 1)
  rcases (mem_haloCalls h c).1 hc with ⟨y, hy, rfl⟩ | rfl | rfl
  · have := row (y + 1) (by omega)
    have := last (y + 1) (by omega)
    simp only [Call.writes, inCell] at ha
    omega
  · have := row 0 (by omega)
    have := last 0 (by omega)
    have := width 0
    simp only [Call.writes] at ha
    omega
  · have := row (h + 1) (by omega)
    have := last (h + 1) (by omega)
    have := width (h + 1)
    simp only [Call.writes] at ha
    omega

theorem padCalls_within (p : Config.Params) (d : DescRegs) (h : Nat) :
    WritesWithin p d (padCalls d.w h) (4 * (d.w + 2) * (h + 2)) := by
  intro c hc a ha
  rcases (mem_padCalls d.w h c).1 hc with ⟨y, x, hy, hx, rfl⟩ | hhalo
  · have := px_inside d.dst d.w h (x + 1) (y + 1) (by omega) (by omega)
    simp only [Call.writes, inCell] at ha
    omega
  · exact haloCalls_within p d h c hhalo a ha

theorem stripCalls_within (p : Config.Params) (d : DescRegs) (h : Nat) :
    WritesWithin p d (stripCalls d.w h) (4 * d.w * h) := by
  intro c hc a ha
  obtain ⟨y, x, hy, hx, rfl⟩ := (mem_stripCalls d.w h c).1 hc
  have := upx_inside d.dst d.w h x y hx hy
  simp only [Call.writes] at ha
  omega

theorem groupCalls_within (p : Config.Params) (d : DescRegs) (mk : Nat → Nat → Call) (k : Kernel) (pp : Nat)
    (tail : Bool) (h : Nat) (hmk : WritesGroup p d mk pp) :
    WritesWithin p d (groupCalls mk k pp tail d.w h) (4 * (d.w + 2) * (h + 2)) := by
  intro c hc a ha
  obtain ⟨x, y, n, -, hx, -, hy, -, hw⟩ := groupCalls_span p d mk k pp tail h hmk c hc
  obtain ⟨hfrom, hto⟩ := (hw a).1 ha
  have := px_inside d.dst d.w h x y (by omega) (by omega)
  have := px_inside d.dst d.w h (x + n) y hx (by omega)
  have := px_add d.dst d.w x y n
  omega

theorem scalarCalls_within (p : Config.Params) (d : DescRegs) (k : Kernel) (h : Nat) :
    WritesWithin p d (scalarCalls k d.w h) (4 * (d.w + 2) * (h + 2)) := by
  rw [scalarCalls_eq]
  exact groupCalls_within p d _ k 1 false h (writesGroup_scall p d k)

theorem vectorCalls_within (p : Config.Params) (d : DescRegs) (k : Kernel) (tail : Bool) (h : Nat) :
    WritesWithin p d (vectorCalls k (pixelsPerCall p k) tail d.w h) (4 * (d.w + 2) * (h + 2)) :=
  groupCalls_within p d _ k _ tail h (writesGroup_vcall p d k)

/-- Every call of a command writes inside its destination region. -/
theorem calls_within (p : Config.Params) (d : DescRegs) (i : Instr) (h : Nat) :
    WritesWithin p d ((planOf p i).calls d.w h) (i.needDst d.w h) := by
  cases i with
  | pad o => exact padCalls_within p d h
  | halo o => exact haloCalls_within p d h
  | strip o => exact stripCalls_within p d h
  | sblur o => exact scalarCalls_within p d .blur h
  | sgray o => exact scalarCalls_within p d .gray h
  | ssharp o => exact scalarCalls_within p d .sharp h
  | vblur t o => exact vectorCalls_within p d .blur t h
  | vgray t o => exact vectorCalls_within p d .gray t h
  | vsharp t o => exact vectorCalls_within p d .sharp t h

/-- Calls that write below a bound keep a canonical memory below it. -/
theorem runCalls_below (p : Config.Params) (d : DescRegs) (cs : List Call) (m : Memory) (bound : Nat) (hm : m.wf)
    (hb : m.below bound) (h : ∀ c ∈ cs, ∀ a, c.writes p d a → a < bound) : (runCalls p d cs m).below bound :=
  Memory.below_of_read_eq m _ bound hb (runCalls_wf p d cs m hm) fun a ha =>
    read_runCalls_outside p d cs m a fun c hc hw => Nat.not_lt.2 ha (h c hc a hw)

/-- Every call of an accepted command writes inside memory. -/
theorem calls_below_of_accepted (p : Config.Params) (i : Instr) (hw : i.wellFormed = true)
    (h : errorOf p.memBytes i = none) :
    ∀ c ∈ (planOf p i).calls i.width i.height, ∀ a, c.writes p (regsOf i) a → a < p.memBytes := by
  obtain ⟨-, -, -, -, hdst, hwidth, -⟩ := regsOf_operands i hw
  obtain ⟨hregion, -⟩ := regions_of_accepted p.memBytes i h
  have hwithin := calls_within p (regsOf i) i i.height
  rw [hwidth] at hwithin
  intro c hc a ha
  obtain ⟨-, hlt⟩ := hwithin c hc a ha
  omega

end Sys2Proof.Machine
end

section
/-! What each transition can do, said of the latched descriptor alone (40_command_lifecycle.md R110, R118, R125;
10_state.md R21): ISSUE, a whole command, and the engine's turn, with what each leaves unchanged. -/

namespace Sys2Proof.Machine

/-! ## The registers' command -/

theorem regsError_of_decode (p : Config.Params) (d : DescRegs) (i : Instr) (h : decode d.toDescriptor = .ok i) :
    regsError p d = errorOf p.memBytes i := by
  rw [regsError, h]

theorem regsError_of_illegal (p : Config.Params) (d : DescRegs) (e : DecodeError)
    (h : decode d.toDescriptor = .error e) : regsError p d = some .illegalCommand := by
  rw [regsError, h]

theorem regsCallCount_of_decode (p : Config.Params) (d : DescRegs) (i : Instr)
    (h : decode d.toDescriptor = .ok i) : regsCallCount p d = callCount p i := by
  rw [regsCallCount, h]

/-- The registers hold an accepted command exactly when they decode to one. -/
theorem regsError_eq_none_iff (p : Config.Params) (d : DescRegs) :
    regsError p d = none ↔ ∃ i, decode d.toDescriptor = .ok i ∧ errorOf p.memBytes i = none := by
  cases hd : decode d.toDescriptor with
  | error e => simp [regsError_of_illegal p d e hd]
  | ok i => simp [regsError_of_decode p d i hd]

theorem errorOf_ne_some_none (memBytes : Nat) (i : Instr) : errorOf memBytes i ≠ some .none := by
  unfold errorOf
  simp only
  repeat' split
  all_goals simp

/-- A failed check has a code other than 0 (60_exceptions.md R220). -/
theorem regsError_ne_some_none (p : Config.Params) (d : DescRegs) : regsError p d ≠ some .none := by
  cases hd : decode d.toDescriptor with
  | error e => rw [regsError_of_illegal p d e hd]; simp
  | ok i => rw [regsError_of_decode p d i hd]; exact errorOf_ne_some_none _ i

/-- The checks on the registers of a legal descriptor are the checks on the operands of its command. -/
theorem validate_of_decode (p : Config.Params) (d : DescRegs) (i : Instr) (h : decode d.toDescriptor = .ok i) :
    validate p d (planOf p i) = errorOf p.memBytes i := by
  rw [DescRegs.eq_regsOf d i h]
  exact validate_regsOf p i (wellFormed_of_decode _ i h)

/-- A plan that the registers determine is the plan of an accepted command. -/
theorem validPlan?_eq_some (s : State) (pl : Plan) (h : s.validPlan? = some pl) :
    ∃ i, decode s.d.toDescriptor = .ok i ∧ errorOf s.params.memBytes i = none ∧ pl = planOf s.params i := by
  unfold State.validPlan? planOfRegs at h
  cases hd : decode s.d.toDescriptor with
  | error e => simp [hd] at h
  | ok i =>
    simp only [hd, validate_of_decode _ _ i hd] at h
    split at h
    · rename_i he
      exact ⟨i, rfl, he, (Option.some.inj h).symm⟩
    · cases h

/-! ## ISSUE (R110) -/

/-- ISSUE of a descriptor that fails a check is the error of R114. -/
theorem issue_of_error (d : Descriptor) (s : State) (e : ErrCode)
    (h : regsError s.params (DescRegs.ofDescriptor d) = some e) : issue d s = (s.latch d).raiseError e := by
  unfold issue
  cases hd : decode d with
  | error x =>
    rw [regsError_of_illegal _ _ x (by simpa using hd)] at h
    rw [← Option.some.inj h]
  | ok i =>
    have hregs : decode (DescRegs.ofDescriptor d).toDescriptor = .ok i := by simpa using hd
    rw [regsError_of_decode _ _ i hregs] at h
    simp only [issuePlan, State.latch_params, State.latch_d, validate_of_decode _ _ i hregs, h]

/-- ISSUE of a descriptor that passes every check starts its command. -/
theorem issue_of_accepted (d : Descriptor) (s : State)
    (h : regsError s.params (DescRegs.ofDescriptor d) = none) : issue d s = (s.latch d).start := by
  unfold issue
  cases hd : decode d with
  | error x =>
    rw [regsError_of_illegal _ _ x (by simpa using hd)] at h
    cases h
  | ok i =>
    have hregs : decode (DescRegs.ofDescriptor d).toDescriptor = .ok i := by simpa using hd
    rw [regsError_of_decode _ _ i hregs] at h
    simp only [issuePlan, State.latch_params, State.latch_d, validate_of_decode _ _ i hregs, h]

/-- ISSUE ends in BUSY or in ERROR (10_state.md R29). -/
theorem issue_state (d : Descriptor) (s : State) : (issue d s).state = .busy ∨ (issue d s).state = .error := by
  cases h : regsError s.params (DescRegs.ofDescriptor d) with
  | none => exact .inl (by rw [issue_of_accepted d s h, State.start_state])
  | some e => exact .inr (by rw [issue_of_error d s e h, State.raiseError_state])

@[simp] theorem issue_params (d : Descriptor) (s : State) : (issue d s).params = s.params := by
  cases h : regsError s.params (DescRegs.ofDescriptor d) with
  | none => rw [issue_of_accepted d s h, State.start_params, State.latch_params]
  | some e => rw [issue_of_error d s e h, State.raiseError_params, State.latch_params]

/-! ## A whole command (R125) -/

@[simp] theorem doneState_mem (s : State) (i : Instr) (m : Memory) : (doneState s i m).mem = m := rfl
@[simp] theorem doneState_d (s : State) (i : Instr) (m : Memory) : (doneState s i m).d = regsOf i := rfl
@[simp] theorem doneState_state (s : State) (i : Instr) (m : Memory) : (doneState s i m).state = .done := rfl
@[simp] theorem doneState_err (s : State) (i : Instr) (m : Memory) : (doneState s i m).err = .none := rfl
@[simp] theorem doneState_callIdx (s : State) (i : Instr) (m : Memory) :
    (doneState s i m).callIdx = BitVec.ofNat 32 (callCount s.params i) := rfl
@[simp] theorem doneState_params (s : State) (i : Instr) (m : Memory) : (doneState s i m).params = s.params := rfl

/-- Everything a whole command can do outside BUSY: fail a check, or run all its calls. -/
theorem commandTurn_cases (d : Descriptor) (s t : State) (hb : s.state ≠ .busy) (h : commandTurn d s = .next t) :
    (∃ e, regsError s.params (DescRegs.ofDescriptor d) = some e ∧ t = (s.latch d).raiseError e) ∨
    (∃ i, decode d = .ok i ∧ errorOf s.params.memBytes i = none ∧
      t = doneState s i (runCalls s.params (regsOf i) ((planOf s.params i).calls i.width i.height) s.mem)) := by
  unfold commandTurn at h
  cases hd : decode d with
  | error x =>
    simp only [hd, Host.Outcome.next.injEq] at h
    exact .inl ⟨_, regsError_of_illegal _ _ x (by simpa using hd), h.symm⟩
  | ok i =>
    have hw := wellFormed_of_decode d i hd
    simp only [hd] at h
    cases he : errorOf s.params.memBytes i with
    | some e =>
      rw [exec_of_error i s e hw hb he, encode_of_decode d i hd, Host.Outcome.next.injEq] at h
      exact .inl ⟨e, by rw [regsError_of_decode _ _ i (by simpa using hd), he], h.symm⟩
    | none =>
      rw [exec_of_accepted i s hw hb he, length_calls, Host.Outcome.next.injEq] at h
      exact .inr ⟨i, rfl, he, h.symm⟩

/-- A whole command ends in DONE or in ERROR (10_state.md R29). -/
theorem commandTurn_state (d : Descriptor) (s t : State) (hb : s.state ≠ .busy) (h : commandTurn d s = .next t) :
    t.state = .done ∨ t.state = .error := by
  rcases commandTurn_cases d s t hb h with ⟨e, -, rfl⟩ | ⟨i, -, -, rfl⟩
  · exact .inr (State.raiseError_state _ e)
  · exact .inl (doneState_state s i _)

theorem commandTurn_params (d : Descriptor) (s t : State) (hb : s.state ≠ .busy) (h : commandTurn d s = .next t) :
    t.params = s.params := by
  rcases commandTurn_cases d s t hb h with ⟨e, -, rfl⟩ | ⟨i, -, -, rfl⟩
  · rw [State.raiseError_params, State.latch_params]
  · exact doneState_params s i _

/-! ## The engine's turn (R118) -/

/-- Everything a BUSY engine can do: perform the next call of the latched command, or, after the last, complete. -/
theorem engineTurn_busy_cases (s t : State) (hb : s.state = .busy) (h : engineTurn s = .next t) :
    ∃ i, decode s.d.toDescriptor = .ok i ∧ errorOf s.params.memBytes i = none ∧
      ((s.callIdx.toNat < callCount s.params i ∧ ∃ c ∈ (planOf s.params i).calls i.width i.height,
          t = { s with mem := c.run s.params s.d s.mem, callIdx := s.callIdx + 1 }) ∨
        (callCount s.params i ≤ s.callIdx.toNat ∧ t = { s with state := .done })) := by
  rcases engineTurn_cases s t h with ⟨hidle, -⟩ | ⟨-, pl, hpl, hmove⟩
  · exact absurd hb hidle
  · obtain ⟨i, hd, he, rfl⟩ := validPlan?_eq_some s pl hpl
    obtain ⟨-, -, -, -, -, hwidth, hheight⟩ := regsOf_operands i (wellFormed_of_decode _ i hd)
    rw [← DescRegs.eq_regsOf s.d i hd] at hwidth hheight
    rw [hwidth, hheight] at hmove
    refine ⟨i, hd, he, ?_⟩
    rcases hmove with ⟨c, hc, ht⟩ | ⟨hlast, ht⟩
    · obtain ⟨hlt, -⟩ := List.getElem?_eq_some_iff.1 hc
      exact .inl ⟨length_calls s.params i ▸ hlt, c, List.mem_of_getElem? hc, ht⟩
    · exact .inr ⟨length_calls s.params i ▸ hlast, ht⟩

/-- No STEP writes the descriptor registers, ERR or a parameter (10_state.md R26, R34; R115). -/
theorem engineTurn_frame (s t : State) (h : engineTurn s = .next t) :
    t.d = s.d ∧ t.err = s.err ∧ t.params = s.params := by
  rcases engineTurn_cases s t h with ⟨-, rfl⟩ | ⟨-, pl, -, ⟨c, -, rfl⟩ | ⟨-, rfl⟩⟩
  · exact ⟨rfl, rfl, rfl⟩
  · exact ⟨rfl, rfl, rfl⟩
  · exact ⟨rfl, rfl, rfl⟩

/-- The engine does not look at the inbox. -/
theorem engineTurn_withInbox (s t : State) (r : List Turn) (h : engineTurn s = .next t) :
    engineTurn { s with inbox := r } = .next { t with inbox := r } := by
  have hplan : ({ s with inbox := r } : State).validPlan? = s.validPlan? := rfl
  have hstep (pl : Plan) : stepPlan pl { s with inbox := r } = { stepPlan pl s with inbox := r } := by
    simp only [stepPlan]
    split <;> rfl
  unfold engineTurn at h ⊢
  rw [hplan]
  split at h
  · rename_i hb
    rw [if_pos hb]
    split at h
    · rename_i pl hpl
      simp only [Host.Outcome.next.injEq] at h
      simp only [hstep, h]
    · cases h
  · rename_i hb
    simp only [Host.Outcome.next.injEq] at h
    rw [if_neg hb, h]

/-! ## RESET (70_reset_and_hazards.md R250, R251) -/

theorem hostReset_of_not_busy (s : State) (h : s.state ≠ .busy) : hostReset s = s.resetRegs := if_neg h

/-- RESET while BUSY writes free bytes over the destination region of the latched command. -/
theorem hostReset_mem_of_busy (s : State) (i : Instr) (hb : s.state = .busy)
    (hd : decode s.d.toDescriptor = .ok i) :
    (hostReset s).mem = s.mem.writeBytes s.d.dst
      ((List.range (i.needDst i.width i.height)).map fun k => Config.freeByte s.freeCount (s.d.dst + k)) := by
  obtain ⟨-, -, -, -, -, hwidth, hheight⟩ := regsOf_operands i (wellFormed_of_decode _ i hd)
  rw [← DescRegs.eq_regsOf s.d i hd] at hwidth hheight
  obtain ⟨-, hneed, -⟩ := planOf_regions s.params i i.width i.height
  have hplan : planOfRegs s.params s.d = some (planOf s.params i) := by rw [planOfRegs, hd]
  rw [hostReset, if_pos hb, hplan]
  simp only [State.resetRegs_mem, State.abandon_mem, hwidth, hheight, hneed]

/-! ## One step, by the turn at the head of the inbox (10_state.md R21, R22) -/

/-- The host's action waits while STATE is BUSY (R21). -/
def Turn.heldWhileBusy : Turn → Bool
  | .issue _ => true
  | .command _ => true
  | .hostRead _ _ => true
  | .hostWrite _ _ => true
  | .status => false
  | .reset => false
  | .engine => false

theorem step_of_empty (s : State) (h : s.inbox = []) : step s = engineTurn s := by
  rw [step, h]

theorem step_of_held (s : State) (a : Turn) (rest : List Turn) (h : s.inbox = a :: rest) (hb : s.state = .busy)
    (ha : a.heldWhileBusy = true) : step s = engineTurn s := by
  rw [step, h]
  cases a with
  | issue d => exact if_pos hb
  | command d => exact if_pos hb
  | hostRead x n => exact if_pos hb
  | hostWrite x bs => exact if_pos hb
  | status => cases ha
  | reset => cases ha
  | engine => cases ha

theorem step_of_status (s : State) (rest : List Turn) (h : s.inbox = .status :: rest) :
    step s = .next (hostStatus { s with inbox := rest }) := by
  rw [step, h]

theorem step_of_reset (s : State) (rest : List Turn) (h : s.inbox = .reset :: rest) :
    step s = .next (hostReset { s with inbox := rest }) := by
  rw [step, h]

theorem step_of_hostRead (s : State) (a n : Nat) (rest : List Turn) (h : s.inbox = .hostRead a n :: rest)
    (hb : s.state ≠ .busy) : step s = .next (hostRead a n { s with inbox := rest }) := by
  rw [step, h]
  exact if_neg hb

theorem step_of_hostWrite (s : State) (a : Nat) (bs : List Byte) (rest : List Turn)
    (h : s.inbox = .hostWrite a bs :: rest) (hb : s.state ≠ .busy) :
    step s = .next (hostWrite a bs { s with inbox := rest }) := by
  rw [step, h]
  exact if_neg hb

end Sys2Proof.Machine
end

section
/-! The invariant of the state (10_state.md R23 to R29): one introduction rule per value of STATE, each transition
keeps it, and with that O23 and O24. -/

namespace Sys2Proof.Machine

/-! ## Introduction, one rule per value of STATE -/

theorem State.Inv.of_idle {s : State} (hwf : s.mem.wf) (hbelow : s.mem.below s.params.memBytes)
    (hstate : s.state = .idle) (herr : s.err = .none) (hd : s.d = DescRegs.zero) (hidx : s.callIdx = 0) : s.Inv where
  memWf := hwf
  memBelow := hbelow
  errIff := by simp [hstate, herr]
  idle _ := ⟨hd, hidx⟩
  busy h := by simp [hstate] at h
  done h := by simp [hstate] at h
  error h := by simp [hstate] at h

theorem State.Inv.of_busy {s : State} (hwf : s.mem.wf) (hbelow : s.mem.below s.params.memBytes)
    (hstate : s.state = .busy) (herr : s.err = .none) (hvalid : regsError s.params s.d = none)
    (hidx : s.callIdx.toNat ≤ regsCallCount s.params s.d) : s.Inv where
  memWf := hwf
  memBelow := hbelow
  errIff := by simp [hstate, herr]
  idle h := by simp [hstate] at h
  busy _ := ⟨hvalid, hidx⟩
  done h := by simp [hstate] at h
  error h := by simp [hstate] at h

theorem State.Inv.of_done {s : State} (hwf : s.mem.wf) (hbelow : s.mem.below s.params.memBytes)
    (hstate : s.state = .done) (herr : s.err = .none) (hvalid : regsError s.params s.d = none)
    (hidx : s.callIdx.toNat = regsCallCount s.params s.d) : s.Inv where
  memWf := hwf
  memBelow := hbelow
  errIff := by simp [hstate, herr]
  idle h := by simp [hstate] at h
  busy h := by simp [hstate] at h
  done _ := ⟨hvalid, hidx⟩
  error h := by simp [hstate] at h

/-- ERR ≠ 0 needs no premise: a failed check has a code other than 0. -/
theorem State.Inv.of_error {s : State} (hwf : s.mem.wf) (hbelow : s.mem.below s.params.memBytes)
    (hstate : s.state = .error) (hfails : regsError s.params s.d = some s.err) (hidx : s.callIdx = 0) : s.Inv where
  memWf := hwf
  memBelow := hbelow
  errIff := by
    have : s.err ≠ .none := fun h => regsError_ne_some_none s.params s.d (h ▸ hfails)
    simp [hstate, this]
  idle h := by simp [hstate] at h
  busy h := by simp [hstate] at h
  done h := by simp [hstate] at h
  error _ := ⟨hfails, hidx⟩

/-- The invariant speaks of memory and, beside it, of the registers and the parameters only. -/
theorem State.Inv.of_same_registers {s t : State} (h : s.Inv) (hwf : t.mem.wf)
    (hbelow : t.mem.below s.params.memBytes) (hd : t.d = s.d) (hstate : t.state = s.state) (herr : t.err = s.err)
    (hidx : t.callIdx = s.callIdx) (hparams : t.params = s.params) : t.Inv where
  memWf := hwf
  memBelow := by rw [hparams]; exact hbelow
  errIff := by rw [herr, hstate]; exact h.errIff
  idle := by rw [hstate, hd, hidx]; exact h.idle
  busy := by rw [hstate, hparams, hd, hidx]; exact h.busy
  done := by rw [hstate, hparams, hd, hidx]; exact h.done
  error := by rw [hstate, hparams, hd, herr, hidx]; exact h.error

/-! ## Each transition -/

theorem State.Inv.withInbox {s : State} (h : s.Inv) (r : List Turn) : ({ s with inbox := r } : State).Inv :=
  State.Inv.of_same_registers h h.memWf h.memBelow rfl rfl rfl rfl rfl

theorem State.Inv.hostStatus {s : State} (h : s.Inv) : (hostStatus s).Inv :=
  State.Inv.of_same_registers h h.memWf h.memBelow rfl rfl rfl rfl rfl

theorem State.Inv.hostRead {s : State} (h : s.Inv) (a n : Nat) : (hostRead a n s).Inv :=
  State.Inv.of_same_registers h (by simpa using h.memWf) (by simpa using h.memBelow)
    (hostRead_d a n s) (hostRead_state a n s) (hostRead_err a n s) (hostRead_callIdx a n s) (hostRead_params a n s)

theorem State.Inv.hostWrite {s : State} (h : s.Inv) (a : Nat) (bs : List Byte) : (hostWrite a bs s).Inv := by
  have hmem : (Machine.hostWrite a bs s).mem.wf ∧ (Machine.hostWrite a bs s).mem.below s.params.memBytes := by
    rcases hostWrite_mem a bs s with hm | ⟨hinside, hm⟩ <;> rw [hm]
    · exact ⟨h.memWf, h.memBelow⟩
    · exact ⟨Memory.writeBytes_wf _ _ _ h.memWf, Memory.writeBytes_below _ _ _ _ h.memBelow hinside⟩
  exact State.Inv.of_same_registers h hmem.1 hmem.2
    (hostWrite_d a bs s) (hostWrite_state a bs s) (hostWrite_err a bs s) (hostWrite_callIdx a bs s)
    (hostWrite_params a bs s)

/-- TAKING AN ERROR after the latch (R114). -/
theorem State.Inv.raiseError_latch {s : State} (h : s.Inv) (d : Descriptor) (e : ErrCode)
    (he : regsError s.params (DescRegs.ofDescriptor d) = some e) : ((s.latch d).raiseError e).Inv :=
  State.Inv.of_error h.memWf h.memBelow rfl he rfl

theorem State.Inv.issue {s : State} (h : s.Inv) (d : Descriptor) : (issue d s).Inv := by
  cases he : regsError s.params (DescRegs.ofDescriptor d) with
  | some e =>
    rw [issue_of_error d s e he]
    exact h.raiseError_latch d e he
  | none =>
    rw [issue_of_accepted d s he]
    exact State.Inv.of_busy h.memWf h.memBelow rfl rfl he (Nat.zero_le _)

theorem State.Inv.commandTurn {s t : State} (h : s.Inv) (d : Descriptor) (hb : s.state ≠ .busy)
    (hc : commandTurn d s = .next t) : t.Inv := by
  rcases commandTurn_cases d s t hb hc with ⟨e, he, rfl⟩ | ⟨i, hd, he, rfl⟩
  · exact h.raiseError_latch d e he
  · have hw := wellFormed_of_decode d i hd
    have hregs : decode (regsOf i).toDescriptor = .ok i := by
      rw [← DescRegs.ofDescriptor_encode, DescRegs.toDescriptor_ofDescriptor, encode_of_decode d i hd, hd]
    have hcount := callCount_lt_of_accepted s.params i he
    refine State.Inv.of_done (runCalls_wf _ _ _ _ h.memWf)
      (runCalls_below _ _ _ _ _ h.memWf h.memBelow (calls_below_of_accepted s.params i hw he)) rfl rfl ?_ ?_
    · rw [doneState_params, doneState_d, regsError_of_decode _ _ i hregs, he]
    · rw [doneState_params, doneState_d, regsCallCount_of_decode _ _ i hregs, doneState_callIdx, BitVec.toNat_ofNat,
        Nat.mod_eq_of_lt (hcount.trans (by decide))]

theorem State.Inv.engineTurn {s t : State} (h : s.Inv) (he : engineTurn s = .next t) : t.Inv := by
  by_cases hb : s.state = .busy
  · obtain ⟨hvalid, hidx⟩ := h.busy hb
    have hnone : s.err = .none := by
      by_contra hne
      exact absurd (h.errIff.1 hne) (by simp [hb])
    obtain ⟨i, hd, hacc, ⟨hlt, c, hc, rfl⟩ | ⟨hlast, rfl⟩⟩ := engineTurn_busy_cases s t hb he
    · have hregs := DescRegs.eq_regsOf s.d i hd
      have hcount := callCount_lt_of_accepted s.params i hacc
      have hbelow : (runCalls s.params s.d [c] s.mem).below s.params.memBytes := by
        refine runCalls_below _ _ _ _ _ h.memWf h.memBelow fun c' hc' a ha => ?_
        rw [List.mem_singleton.1 hc', hregs] at ha
        exact calls_below_of_accepted s.params i (wellFormed_of_decode _ i hd) hacc c hc a ha
      refine State.Inv.of_busy (Call.run_wf _ _ c _ h.memWf) hbelow hb hnone hvalid ?_
      have hnext : (s.callIdx + 1).toNat = s.callIdx.toNat + 1 :=
        BitVec.toNat_add_of_lt (show s.callIdx.toNat + 1 < 2 ^ 32 by omega)
      simp only [regsCallCount_of_decode _ _ i hd, hnext]
      omega
    · refine State.Inv.of_done h.memWf h.memBelow rfl hnone hvalid (Nat.le_antisymm hidx ?_)
      rw [regsCallCount_of_decode _ _ i hd]
      exact hlast
  · rcases engineTurn_cases s t he with ⟨-, rfl⟩ | ⟨hbusy, -⟩
    · exact h
    · exact absurd hbusy hb

theorem State.Inv.hostReset {s : State} (h : s.Inv) : (hostReset s).Inv := by
  have hmem : (Machine.hostReset s).mem.wf ∧ (Machine.hostReset s).mem.below s.params.memBytes := by
    by_cases hb : s.state = .busy
    · obtain ⟨i, hd, hacc⟩ := (regsError_eq_none_iff s.params s.d).1 (h.busy hb).1
      obtain ⟨-, -, -, -, hdst, -, -⟩ := regsOf_operands i (wellFormed_of_decode _ i hd)
      rw [← DescRegs.eq_regsOf s.d i hd] at hdst
      obtain ⟨hinside, -⟩ := regions_of_accepted s.params.memBytes i hacc
      rw [hostReset_mem_of_busy s i hb hd]
      refine ⟨Memory.writeBytes_wf _ _ _ h.memWf, Memory.writeBytes_below _ _ _ _ h.memBelow ?_⟩
      rw [List.length_map, List.length_range, hdst]
      exact hinside
    · rw [hostReset_of_not_busy s hb]
      exact ⟨h.memWf, h.memBelow⟩
  exact State.Inv.of_idle hmem.1 (by rw [hostReset_params]; exact hmem.2) (hostReset_state s) (hostReset_err s)
    (hostReset_d s) (hostReset_callIdx s)

/-! ## The machine -/

/-- Settles O23, by the case of the turn: each transition keeps the invariant. -/
theorem stepKeepsTheInvariant : Obligations.StepKeepsTheInvariant := by
  intro s t h hstep
  have h' (r : List Turn) := h.withInbox r
  rcases step_cases s t hstep with ⟨d, rest, -, -, rfl⟩ | ⟨d, rest, -, hb, hc⟩ | ⟨a, n, rest, -, -, rfl⟩ |
    ⟨a, bs, rest, -, -, rfl⟩ | ⟨rest, -, rfl⟩ | ⟨rest, -, rfl⟩ | ⟨rest, -, he⟩
  · exact (h' rest).issue d
  · exact (h' rest).commandTurn d hb hc
  · exact (h' rest).hostRead a n
  · exact (h' rest).hostWrite a bs
  · exact (h' rest).hostStatus
  · exact (h' rest).hostReset
  · exact (h' rest).engineTurn he

/-- Settles O24: nothing is listed and every register is 0. -/
theorem resetStateHasTheInvariant : Obligations.ResetStateHasTheInvariant :=
  State.Inv.of_idle ⟨List.Pairwise.nil, by simp [State.reset]⟩ (by simp [State.reset]) rfl rfl rfl rfl

end Sys2Proof.Machine
end

section
/-! The state, the host's accesses and RESET as 10_state.md tells of them: which fields each turn changes, and what
it leaves unchanged (R21, R22, R26, R29, R30, R34, R35). -/

namespace Sys2Proof.Machine

/-! ## Host accesses (R21) -/

/-- An access is accepted when it has a byte and lies inside memory (R21; 20_memory.md R57). -/
theorem accessOk_iff (s : State) (a n : Nat) : accessOk s a n = true ↔ 1 ≤ n ∧ a + n ≤ s.params.memBytes := by
  simp [accessOk, Nat.succ_le_iff]

theorem hostRead_of_accepted (a n : Nat) (s : State) (h : 1 ≤ n ∧ a + n ≤ s.params.memBytes) :
    hostRead a n s = { s with outbox := .bytes (s.mem.readBytes a n) :: s.outbox } :=
  if_pos ((accessOk_iff s a n).2 h)

theorem hostRead_of_rejected (a n : Nat) (s : State) (h : ¬ (1 ≤ n ∧ a + n ≤ s.params.memBytes)) :
    hostRead a n s = s :=
  if_neg fun hok => h ((accessOk_iff s a n).1 hok)

theorem hostWrite_of_accepted (a : Nat) (bs : List Byte) (s : State)
    (h : 1 ≤ bs.length ∧ a + bs.length ≤ s.params.memBytes) :
    hostWrite a bs s = { s with mem := s.mem.writeBytes a bs } :=
  if_pos ((accessOk_iff s a bs.length).2 h)

theorem hostWrite_of_rejected (a : Nat) (bs : List Byte) (s : State)
    (h : ¬ (1 ≤ bs.length ∧ a + bs.length ≤ s.params.memBytes)) : hostWrite a bs s = s :=
  if_neg fun hok => h ((accessOk_iff s a bs.length).1 hok)

/-- Settles O19: an accepted access is one MemRead or one MemWrite of its bytes, any other does nothing. -/
theorem hostAccessesMoveExactlyTheirBytes : Obligations.HostAccessesMoveExactlyTheirBytes := by
  intro s a rest hb
  refine ⟨fun n hin => ⟨fun hok => ?_, fun hbad => ?_⟩, fun bs hin => ⟨fun hok => ?_, fun hbad => ?_⟩⟩
  · refine ⟨s.mem.readBytes a n, ?_, Memory.length_readBytes s.mem a n, fun k hk => ?_⟩
    · rw [step_of_hostRead s a n rest hin hb,
        hostRead_of_accepted a n { s with inbox := rest } hok]
    · rw [← Memory.length_readBytes s.mem a n] at hk
      rw [List.getElem?_eq_getElem hk, Memory.getElem_readBytes]
  · rw [step_of_hostRead s a n rest hin hb,
        hostRead_of_rejected a n { s with inbox := rest } hbad]
  · refine ⟨s.mem.writeBytes a bs, ?_, fun k hk => ?_, Memory.read_writeBytes_outside s.mem a bs⟩
    · rw [step_of_hostWrite s a bs rest hin hb,
        hostWrite_of_accepted a bs { s with inbox := rest } hok]
    · rw [List.getElem?_eq_getElem hk, Memory.read_writeBytes_inside s.mem a bs k hk]
  · rw [step_of_hostWrite s a bs rest hin hb,
        hostWrite_of_rejected a bs { s with inbox := rest } hbad]

/-! ## What changes STATE, the registers and the parameters -/

/-- Settles O26, by the case of the turn: only ISSUE, a whole command, the completion STEP and RESET move STATE. -/
theorem stateMovesAsTabulated : Obligations.StateMovesAsTabulated := by
  intro s t hstep hmoved
  rcases step_cases s t hstep with ⟨d, rest, hin, hb, rfl⟩ | ⟨d, rest, hin, hb, hc⟩ | ⟨a, n, rest, -, -, rfl⟩ |
    ⟨a, bs, rest, -, -, rfl⟩ | ⟨rest, -, rfl⟩ | ⟨rest, hin, rfl⟩ | ⟨rest, -, he⟩
  · exact ⟨fun hbusy => absurd hbusy hb, fun _ => .inl ⟨d, rest, hin, issue_state d _⟩⟩
  · have hends := commandTurn_state d { s with inbox := rest } t hb hc
    exact ⟨fun hbusy => absurd hbusy hb, fun _ => .inr (.inl ⟨d, rest, hin, hends⟩)⟩
  · exact absurd (hostRead_state a n _) hmoved
  · exact absurd (hostWrite_state a bs _) hmoved
  · exact absurd (hostStatus_state _) hmoved
  · have hidle := hostReset_state { s with inbox := rest }
    exact ⟨fun _ => .inr ⟨hidle, rest, hin⟩, fun _ => .inr (.inr ⟨hidle, rest, hin⟩)⟩
  · by_cases hb : s.state = .busy
    · refine ⟨fun _ => .inl ?_, fun hidle => absurd hb hidle⟩
      obtain ⟨i, hd, -, ⟨-, c, -, rfl⟩ | ⟨hlast, rfl⟩⟩ := engineTurn_busy_cases { s with inbox := rest } t hb he
      · exact absurd rfl hmoved
      · exact ⟨rfl, rfl, regsCallCount_of_decode s.params s.d i hd ▸ hlast⟩
    · rcases engineTurn_cases _ t he with ⟨-, rfl⟩ | ⟨hbusy, -⟩
      · exact absurd rfl hmoved
      · exact absurd hbusy hb

/-- Settles O27, by the case of the turn: the accesses, STATUS and the engine keep the registers and ERR. -/
theorem descriptorAndErrorChangeOnlyAtIssueOrReset : Obligations.DescriptorAndErrorChangeOnlyAtIssueOrReset := by
  intro s t hstep hchanged
  have kept (hd : t.d = s.d) (he : t.err = s.err) : False := hchanged.elim (absurd hd) (absurd he)
  rcases step_cases s t hstep with ⟨d, rest, hin, hb, -⟩ | ⟨d, rest, hin, hb, -⟩ | ⟨a, n, rest, -, -, rfl⟩ |
    ⟨a, bs, rest, -, -, rfl⟩ | ⟨rest, -, rfl⟩ | ⟨rest, hin, -⟩ | ⟨rest, -, he⟩
  · exact .inl ⟨hb, d, rest, .inl hin⟩
  · exact .inl ⟨hb, d, rest, .inr hin⟩
  · exact (kept (hostRead_d a n _) (hostRead_err a n _)).elim
  · exact (kept (hostWrite_d a bs _) (hostWrite_err a bs _)).elim
  · exact (kept (hostStatus_d _) (hostStatus_err _)).elim
  · exact .inr ⟨rest, hin⟩
  · obtain ⟨hd, herr, -⟩ := engineTurn_frame _ t he
    exact (kept hd herr).elim

/-- Settles O28, by the case of the turn. -/
theorem parametersNeverChange : Obligations.ParametersNeverChange := by
  intro s t hstep
  rcases step_cases s t hstep with ⟨d, rest, -, -, rfl⟩ | ⟨d, rest, -, hb, hc⟩ | ⟨a, n, rest, -, -, rfl⟩ |
    ⟨a, bs, rest, -, -, rfl⟩ | ⟨rest, -, rfl⟩ | ⟨rest, -, rfl⟩ | ⟨rest, -, he⟩
  · exact issue_params d _
  · exact commandTurn_params d { s with inbox := rest } t hb hc
  · exact hostRead_params a n _
  · exact hostWrite_params a bs _
  · exact hostStatus_params _
  · exact hostReset_params _
  · obtain ⟨-, -, hparams⟩ := engineTurn_frame _ t he
    exact hparams

/-! ## The turns of the host -/

/-- Settles O16: a held action leaves the step to the engine, which does not look at the inbox. -/
theorem busyHoldsHostActions : Obligations.BusyHoldsHostActions := by
  intro s t a rest hin hb haction hstep
  have hheld : a.heldWhileBusy = true := by
    rcases haction with ⟨d, rfl⟩ | ⟨d, rfl⟩ | ⟨x, n, rfl⟩ | ⟨x, bs, rfl⟩ <;> rfl
  have hself : { ({ s with inbox := [] } : State) with inbox := a :: rest } = s := by rw [← hin]
  rw [step_of_empty _ rfl] at hstep
  rw [step_of_held s a rest hin hb hheld, ← engineTurn_withInbox _ t (a :: rest) hstep, hself]

/-- The four fields of a word put together as the status word is (R30). -/
theorem extractLsb'_statusFields (z : BitVec 25) (e : BitVec 3) (r st : BitVec 2) :
    (z ++ e ++ r ++ st).extractLsb' 0 2 = st ∧ (z ++ e ++ r ++ st).extractLsb' 2 2 = r ∧
    (z ++ e ++ r ++ st).extractLsb' 4 3 = e ∧ (z ++ e ++ r ++ st).extractLsb' 7 25 = z := by
  have hst : (z ++ e ++ r ++ st).extractLsb' 0 2 = st := BitVec.extractLsb'_append_eq_right
  refine ⟨hst, ?_, ?_, ?_⟩
  · rw [BitVec.extractLsb'_append_eq_of_le (by omega)]
    exact BitVec.extractLsb'_append_eq_right
  · rw [BitVec.extractLsb'_append_eq_of_le (by omega), BitVec.extractLsb'_append_eq_of_le (by omega)]
    exact BitVec.extractLsb'_append_eq_right
  · rw [BitVec.extractLsb'_append_eq_of_le (by omega), BitVec.extractLsb'_append_eq_of_le (by omega)]
    exact BitVec.extractLsb'_append_eq_left

/-- Settles O18, by the fields of the status word. -/
theorem statusReturnsTheStatusWord : Obligations.StatusReturnsTheStatusWord := by
  intro s rest hin
  obtain ⟨hstate, hzero, herr, hhigh⟩ := extractLsb'_statusFields 0 s.err.code 0 s.state.code
  exact ⟨s.statusWord, step_of_status s rest hin, hstate, hzero, herr, hhigh⟩

/-- Settles O20: outside BUSY, RESET is the clearing of the registers. -/
theorem resetClearsTheRegisters : Obligations.ResetClearsTheRegisters := by
  intro s rest hin hb
  refine ⟨_, step_of_reset s rest hin, ?_, hostReset_of_not_busy _ hb⟩
  rw [State.irq, hostReset_state]

end Sys2Proof.Machine
end

section
/-! Which bytes a call reads (20_memory.md R54; 40_command_lifecycle.md R116, R120): what a call leaves in memory
depends on those bytes alone, and every call of a command finds them in the command's source and destination
regions. -/

namespace Sys2Proof.Machine

/-! ## Memories that agree where they are read -/

theorem Memory.readBytes_congr (m m' : Memory) (a n : Nat) (h : ∀ x, a ≤ x → x < a + n → m.read x = m'.read x) :
    m.readBytes a n = m'.readBytes a n :=
  List.map_congr_left fun k hk => by
    have := List.mem_range.1 hk
    exact h (a + k) (by omega) (by omega)

/-- The same run written over two memories: a byte they agree on still reads alike. -/
theorem Memory.read_writeBytes_congr (m m' : Memory) (a : Nat) (bs : List Byte) (x : Nat)
    (h : m.read x = m'.read x) : (m.writeBytes a bs).read x = (m'.writeBytes a bs).read x := by
  rw [Memory.read_writeBytes, Memory.read_writeBytes, h]

theorem Block.ofFn_congr (f g : Int → Int → Pixel)
    (h : ∀ dx dy, -1 ≤ dx → dx ≤ 1 → -1 ≤ dy → dy ≤ 1 → f dx dy = g dx dy) : Block.ofFn f = Block.ofFn g := by
  simp (disch := decide) only [Block.ofFn, h]

/-! ## What one call reads -/

/-- The byte at `a` lies in one of the source cells around the `n` cells that begin at (x, y): their own row and
the rows above and below, from one column to the west of them to one column to the east. -/
def aroundSource (d : DescRegs) (n x y a : Nat) : Prop :=
  ∃ x' y', x - 1 ≤ x' ∧ x' < x - 1 + (n + 2) ∧ y - 1 ≤ y' ∧ y' ≤ y + 1 ∧ inCell d.src d.w x' y' a

/-- The bytes that a call may read (40_command_lifecycle.md R116). -/
def Call.reads (p : Config.Params) (d : DescRegs) (c : Call) (a : Nat) : Prop :=
  match c with
  | .copyIn x y => upx d.src d.w x y ≤ a ∧ a < upx d.src d.w x y + 4
  | .hcol y => inCell d.dst d.w 1 y a ∨ inCell d.dst d.w d.w y a
  | .vrow _ ys => px d.dst d.w 0 ys ≤ a ∧ a < px d.dst d.w 0 ys + 4 * (d.w + 2)
  | .copyOut x y => inCell d.src d.w (x + 1) (y + 1) a
  | .scall _ x y => aroundSource d 1 x y a
  | .vcall k x y => aroundSource d (pixelsPerCall p k) x y a

section Agreement

variable {d : DescRegs} {n x y : Nat} {m m' : Memory} (h : ∀ a, aroundSource d n x y a → m.read a = m'.read a)
include h

/-- A run of whole cells around the source cells reads alike in memories that agree there. -/
theorem readBytes_aroundSource (gx gy k : Nat) (hwest : x - 1 ≤ gx) (heast : gx + k ≤ x - 1 + (n + 2))
    (hnorth : y - 1 ≤ gy) (hsouth : gy ≤ y + 1) :
    m.readBytes (px d.src d.w gx gy) (4 * k) = m'.readBytes (px d.src d.w gx gy) (4 * k) := by
  refine Memory.readBytes_congr _ _ _ _ fun a hfrom hto => h a ?_
  have := px_add d.src d.w gx gy ((a - px d.src d.w gx gy) / 4)
  exact ⟨gx + (a - px d.src d.w gx gy) / 4, gy, by omega, by omega, hnorth, hsouth, by omega, by omega⟩

/-- The bytes that a vector call writes depend on the source cells around its group. -/
theorem vectorBytes_congr (p : Config.Params) (k : Kernel) (hn : n = pixelsPerCall p k) :
    vectorBytes p d k x y m = vectorBytes p d k x y m' := by
  subst hn
  have run := readBytes_aroundSource h
  cases k with
  | blur =>
    have row (gy : Nat) := run (x - 1) gy 4 (by omega) (by simp [pixelsPerCall, Config.pBlur])
    simp only [vectorBytes, Config.VectorWidth.lanes8_eq]
    rw [row (y - 1) (by omega) (by omega), row y (by omega) (by omega), row (y + 1) (by omega) (by omega)]
  | gray =>
    have row := run x y 4 (by omega) (by simp only [pixelsPerCall, Config.pGray]; omega) (by omega) (by omega)
    simp only [vectorBytes, Config.VectorWidth.lanes8_eq]
    rw [row]
  | sharp =>
    have group (gx gy : Nat) := run gx gy p.pSharp.pixels
    simp only [pixelsPerCall] at group
    simp only [vectorBytes, Config.channels]
    rw [group x y (by omega) (by omega) (by omega) (by omega),
      group (x + 1) y (by omega) (by omega) (by omega) (by omega),
      group x (y + 1) (by omega) (by omega) (by omega) (by omega),
      group (x - 1) y (by omega) (by omega) (by omega) (by omega),
      group x (y - 1) (by omega) (by omega) (by omega) (by omega)]

end Agreement

/-- The neighbourhood of a source cell reads alike in memories that agree around it. -/
theorem sourceBlock_congr (d : DescRegs) (x y : Nat) (m m' : Memory)
    (h : ∀ a, aroundSource d 1 x y a → m.read a = m'.read a) : sourceBlock d x y m = sourceBlock d x y m' :=
  Block.ofFn_congr _ _ fun dx dy _ _ _ _ => Memory.readPix_congr _ _ _ fun a hfrom hto =>
    h a ⟨_, _, by omega, by omega, by omega, by omega, hfrom, hto⟩

/-- What a call leaves at a byte depends on that byte and on the bytes it reads. -/
theorem Call.read_run_congr (p : Config.Params) (d : DescRegs) (c : Call) (m m' : Memory) (a : Nat)
    (hreads : ∀ b, c.reads p d b → m.read b = m'.read b) (ha : m.read a = m'.read a) :
    (c.run p d m).read a = (c.run p d m').read a := by
  cases c with
  | copyIn x y =>
    simp only [Call.run, callCopyIn]
    rw [Memory.readPix_congr m m' _ fun b hfrom hto => hreads b ⟨hfrom, hto⟩]
    exact Memory.read_writeBytes_congr _ _ _ _ _ ha
  | hcol y =>
    simp only [Call.run, callHcol]
    rw [Memory.readPix_congr m m' (px d.dst d.w 1 y) fun b hfrom hto => hreads b (.inl ⟨hfrom, hto⟩),
      Memory.readPix_congr m m' (px d.dst d.w d.w y) fun b hfrom hto => hreads b (.inr ⟨hfrom, hto⟩)]
    exact Memory.read_writeBytes_congr _ _ _ _ _ (Memory.read_writeBytes_congr _ _ _ _ _ ha)
  | vrow yd ys =>
    simp only [Call.run, callVrow]
    rw [Memory.readBytes_congr m m' _ _ fun b hfrom hto => hreads b ⟨hfrom, hto⟩]
    exact Memory.read_writeBytes_congr _ _ _ _ _ ha
  | copyOut x y =>
    simp only [Call.run, callCopyOut]
    rw [Memory.readPix_congr m m' _ fun b hfrom hto => hreads b ⟨hfrom, hto⟩]
    exact Memory.read_writeBytes_congr _ _ _ _ _ ha
  | scall k x y =>
    simp only [Call.run, callScalar]
    rw [sourceBlock_congr d x y m m' hreads]
    exact Memory.read_writeBytes_congr _ _ _ _ _ ha
  | vcall k x y =>
    simp only [Call.run, callVector]
    rw [vectorBytes_congr hreads p k rfl]
    exact Memory.read_writeBytes_congr _ _ _ _ _ ha

/-! ## The call lists read inside their regions -/

/-- The calls of a list read only bytes of the region of `nSrc` bytes at the source and of the region of `nDst`
bytes at the destination. -/
def ReadsWithin (p : Config.Params) (d : DescRegs) (cs : List Call) (nSrc nDst : Nat) : Prop :=
  ∀ c ∈ cs, ∀ a, c.reads p d a → (d.src ≤ a ∧ a < d.src + nSrc) ∨ (d.dst ≤ a ∧ a < d.dst + nDst)

theorem haloCalls_readWithin (p : Config.Params) (d : DescRegs) (h nSrc : Nat) :
    ReadsWithin p d (haloCalls h) nSrc (4 * (d.w + 2) * (h + 2)) := by
  intro c hc a ha
  have row (ys : Nat) (hys : ys ≤ h + 1) (hrow : px d.dst d.w 0 ys ≤ a ∧ a < px d.dst d.w 0 ys + 4 * (d.w + 2)) :
      d.dst ≤ a ∧ a < d.dst + 4 * (d.w + 2) * (h + 2) := by
    have := px_inside d.dst d.w h 0 ys (by omega) hys
    have := px_inside d.dst d.w h (0 + (d.w + 1)) ys (by omega) hys
    have := px_add d.dst d.w 0 ys (d.w + 1)
    omega
  rcases (mem_haloCalls h c).1 hc with ⟨y, hy, rfl⟩ | rfl | rfl
  · have := px_inside d.dst d.w h 1 (y + 1) (by omega) (by omega)
    have := px_inside d.dst d.w h d.w (y + 1) (by omega) (by omega)
    simp only [Call.reads, inCell] at ha
    omega
  · exact .inr (row 1 (by omega) ha)
  · exact .inr (row h (by omega) ha)

theorem padCalls_readWithin (p : Config.Params) (d : DescRegs) (h : Nat) :
    ReadsWithin p d (padCalls d.w h) (4 * d.w * h) (4 * (d.w + 2) * (h + 2)) := by
  intro c hc a ha
  rcases (mem_padCalls d.w h c).1 hc with ⟨y, x, hy, hx, rfl⟩ | hhalo
  · have := upx_inside d.src d.w h x y hx hy
    simp only [Call.reads] at ha
    omega
  · exact haloCalls_readWithin p d h _ c hhalo a ha

theorem stripCalls_readWithin (p : Config.Params) (d : DescRegs) (h nDst : Nat) :
    ReadsWithin p d (stripCalls d.w h) (4 * (d.w + 2) * (h + 2)) nDst := by
  intro c hc a ha
  obtain ⟨y, x, hy, hx, rfl⟩ := (mem_stripCalls d.w h c).1 hc
  have := px_inside d.src d.w h (x + 1) (y + 1) (by omega) (by omega)
  simp only [Call.reads, inCell] at ha
  omega

/-- The cells around a run of interior cells lie inside the source buffer. -/
theorem aroundSource_inside (d : DescRegs) (h n x y a : Nat) (hx : 1 ≤ x) (hend : x + n ≤ d.w + 1) (hy : y ≤ h)
    (ha : aroundSource d n x y a) : d.src ≤ a ∧ a < d.src + 4 * (d.w + 2) * (h + 2) := by
  obtain ⟨x', y', -, heast, -, hsouth, hcell⟩ := ha
  have := px_inside d.src d.w h x' y' (by omega) (by omega)
  omega

theorem groupCalls_readWithin (p : Config.Params) (d : DescRegs) (mk : Nat → Nat → Call) (k : Kernel) (pp : Nat)
    (tail : Bool) (h nDst : Nat) (hmk : ∀ x y a, (mk x y).reads p d a → aroundSource d pp x y a) :
    ReadsWithin p d (groupCalls mk k pp tail d.w h) (4 * (d.w + 2) * (h + 2)) nDst := by
  intro c hc a ha
  left
  obtain ⟨y, -, hy, ⟨g, hg, rfl⟩ | ⟨-, t, ht, rfl⟩⟩ := (mem_groupCalls mk k pp tail d.w h c).1 hc
  · obtain ⟨hgroup, hgroups⟩ := group_end d.w pp g hg
    rw [Nat.succ_mul] at hgroup
    exact aroundSource_inside d h pp _ y a (by omega) (by omega) hy (hmk _ _ a ha)
  · have := Nat.div_add_mod' d.w pp
    exact aroundSource_inside d h 1 _ y a (by omega) (by omega) hy ha

theorem scalarCalls_readWithin (p : Config.Params) (d : DescRegs) (k : Kernel) (h nDst : Nat) :
    ReadsWithin p d (scalarCalls k d.w h) (4 * (d.w + 2) * (h + 2)) nDst := by
  rw [scalarCalls_eq]
  exact groupCalls_readWithin p d _ k 1 false h nDst fun _ _ _ ha => ha

theorem vectorCalls_readWithin (p : Config.Params) (d : DescRegs) (k : Kernel) (tail : Bool) (h nDst : Nat) :
    ReadsWithin p d (vectorCalls k (pixelsPerCall p k) tail d.w h) (4 * (d.w + 2) * (h + 2)) nDst :=
  groupCalls_readWithin p d _ k _ tail h nDst fun _ _ _ ha => ha

/-- Every call of a command reads inside its source and destination regions. -/
theorem calls_readWithin (p : Config.Params) (d : DescRegs) (i : Instr) (h : Nat) :
    ReadsWithin p d ((planOf p i).calls d.w h) (i.needSrc d.w h) (i.needDst d.w h) := by
  cases i with
  | pad o => exact padCalls_readWithin p d h
  | halo o => exact haloCalls_readWithin p d h 0
  | strip o => exact stripCalls_readWithin p d h _
  | sblur o => exact scalarCalls_readWithin p d .blur h _
  | sgray o => exact scalarCalls_readWithin p d .gray h _
  | ssharp o => exact scalarCalls_readWithin p d .sharp h _
  | vblur t o => exact vectorCalls_readWithin p d .blur t h _
  | vgray t o => exact vectorCalls_readWithin p d .gray t h _
  | vsharp t o => exact vectorCalls_readWithin p d .sharp t h _

end Sys2Proof.Machine
end

section
/-! The frame of a command (20_memory.md R54; 40_command_lifecycle.md R114, R125) and of each of its calls. -/

namespace Sys2Proof.Machine

/-- Everything a well-formed command can do: wait while BUSY, fail a check, or run all its calls. -/
theorem exec_cases (i : Instr) (s t : State) (hw : i.wellFormed = true) (h : exec i s = .next t) :
    (s.state = .busy ∧ t = s) ∨
    (s.state ≠ .busy ∧ ∃ e, errorOf s.params.memBytes i = some e ∧ t = (s.latch (encode i)).raiseError e) ∨
    (s.state ≠ .busy ∧ errorOf s.params.memBytes i = none ∧
      t = doneState s i (runCalls s.params (regsOf i) ((planOf s.params i).calls i.width i.height) s.mem)) := by
  by_cases hb : s.state = .busy
  · rw [exec_of_busy i s hb, Host.Outcome.next.injEq] at h
    exact .inl ⟨hb, h.symm⟩
  · cases he : errorOf s.params.memBytes i with
    | some e =>
      rw [exec_of_error i s e hw hb he, Host.Outcome.next.injEq] at h
      exact .inr (.inl ⟨hb, e, rfl, h.symm⟩)
    | none =>
      rw [exec_of_accepted i s hw hb he, length_calls, Host.Outcome.next.injEq] at h
      exact .inr (.inr ⟨hb, rfl, h.symm⟩)

/-- The calls of a well-formed command write inside the region that its operands name. -/
theorem calls_within_operands (p : Config.Params) (i : Instr) (hw : i.wellFormed = true) :
    ∀ c ∈ (planOf p i).calls i.width i.height, ∀ a, c.writes p (regsOf i) a →
      i.operands.dst ≤ a ∧ a < i.operands.dst + i.needDst i.width i.height := by
  obtain ⟨-, -, -, -, hdst, hwidth, -⟩ := regsOf_operands i hw
  rw [← hdst, ← hwidth]
  exact calls_within p (regsOf i) i i.height

/-- The calls of a well-formed command read inside the regions that its operands name. -/
theorem calls_readWithin_operands (p : Config.Params) (i : Instr) (hw : i.wellFormed = true) :
    ∀ c ∈ (planOf p i).calls i.width i.height, ∀ a, c.reads p (regsOf i) a →
      (i.operands.src ≤ a ∧ a < i.operands.src + i.needSrc i.width i.height) ∨
        (i.operands.dst ≤ a ∧ a < i.operands.dst + i.needDst i.width i.height) := by
  obtain ⟨-, -, hsrc, -, hdst, hwidth, -⟩ := regsOf_operands i hw
  rw [← hsrc, ← hdst, ← hwidth]
  exact calls_readWithin p (regsOf i) i i.height

/-- Settles O50: a command that waits or fails a check leaves memory as it is, and one that is accepted writes
only what its calls write. -/
theorem commandsTouchOnlyTheirDestination : Obligations.CommandsTouchOnlyTheirDestination := by
  intro i s t hw h
  rcases exec_cases i s t hw h with ⟨-, rfl⟩ | ⟨-, e, -, rfl⟩ | ⟨-, -, rfl⟩
  · exact ⟨fun _ _ => rfl, rfl⟩
  · exact ⟨fun _ _ => rfl, rfl⟩
  · refine ⟨fun a ha => read_runCalls_outside _ _ _ _ a fun c hc hwrites => ?_, rfl⟩
    have := calls_within_operands s.params i hw c hc a hwrites
    omega

/-- Settles O52: a call writes inside the destination region, and the bytes it reads lie in the source and
destination regions. -/
theorem callsStayInTheirRegions : Obligations.CallsStayInTheirRegions := by
  intro p i c hw _ hc inDst inSrc
  refine ⟨fun m a ha => Call.read_run_outside p _ c m a fun hwrites => ?_, fun m m' hagree a ha => ?_⟩
  · exact ha (calls_within_operands p i hw c hc a hwrites)
  · exact Call.read_run_congr p _ c m m' a
      (fun b hb => hagree b (calls_readWithin_operands p i hw c hc b hb)) (hagree a (.inr ha))

end Sys2Proof.Machine
end

section
/-! The decoder read forwards (30_encoding.md R82, R84, R86, R87): the fields of a legal control word are a row of
the match and mask table, and every well-formed command decodes from its own descriptor. -/

namespace Sys2Proof

/-! ## The control words of a row of R84 -/

/-- The legal values of word 0 for an opcode: its `match` word, and in the vector family that word with TAIL. -/
def Opcode.words (c : Opcode) : List Word :=
  if opFamily c.code = 2 then [c.matchWord, c.matchWord ||| 0x100] else [c.matchWord]

theorem Opcode.mem_words (c : Opcode) (ctl : Word) :
    ctl ∈ c.words ↔ ctl = c.matchWord ∨ (opFamily c.code = 2 ∧ ctl = c.matchWord ||| 0x100) := by
  unfold Opcode.words
  split
  next hfamily => simp only [List.mem_cons, List.not_mem_nil, or_false, hfamily, true_and]
  next hfamily => simp only [List.mem_singleton, hfamily, false_and, or_false]

/-- `mask` compares every bit of word 0, except that the vector family leaves TAIL open. -/
theorem Opcode.maskWord_eq (c : Opcode) :
    c.maskWord = if opFamily c.code = 2 then ~~~BitVec.twoPow 32 8 else BitVec.allOnes 32 := by
  cases c <;> rfl

theorem Opcode.mem_all (c : Opcode) : c ∈ Opcode.all := by
  cases c <;> decide

@[simp] theorem Opcode.ofCode?_code (c : Opcode) : Opcode.ofCode? c.code = some c := by
  cases c <;> rfl

/-- Word 0 matches a row under its mask exactly when it is one of the row's legal values. -/
theorem Opcode.mask_eq_match_iff (c : Opcode) (ctl : Word) :
    ctl &&& c.maskWord = c.matchWord ↔ ctl ∈ c.words := by
  rw [Opcode.mem_words]
  constructor
  · intro h
    rw [Opcode.maskWord_eq] at h
    split at h
    next hfamily =>
      have hsplit : ctl = (if ctl.getLsbD 8 then BitVec.twoPow 32 8 else 0) ||| c.matchWord := by
        calc ctl = ctl &&& (BitVec.twoPow 32 8 ||| ~~~BitVec.twoPow 32 8) := by
              rw [BitVec.or_not_self, BitVec.and_allOnes]
          _ = (if ctl.getLsbD 8 then BitVec.twoPow 32 8 else 0) ||| c.matchWord := by
              rw [BitVec.and_or_distrib_left, h, BitVec.and_twoPow]; rfl
      cases htail : ctl.getLsbD 8 with
      | false => exact .inl (by simpa [htail] using hsplit)
      | true => exact .inr ⟨hfamily, by rw [htail, BitVec.or_comm] at hsplit; exact hsplit⟩
    next => exact .inl (by rw [← h, BitVec.and_allOnes])
  · rintro (rfl | ⟨hfamily, rfl⟩)
    · simpa using (Laws.EncodeMatches.row c).1
    · exact (Laws.EncodeMatches.row_tail c (by rw [Opcode.maskWord_eq, if_pos hfamily]; rfl)).1

/-- The fields that R87 tests, as one row of R84. -/
theorem Opcode.fields_iff_mask_eq_match (c : Opcode) (ctl : Word) :
    (ctlReserved ctl = 0 ∧ ctlOp ctl = c.code ∧ (ctlTail ctl = true → opFamily c.code = 2)) ↔
      ctl &&& c.maskWord = c.matchWord := by
  rw [Opcode.mask_eq_match_iff, Opcode.mem_words]
  constructor
  · rintro ⟨hres, hop, htail⟩
    have hctl := ctl_eq_fields ctl hres
    rw [hop, ← Opcode.matchWord_eq_code] at hctl
    cases ht : ctlTail ctl with
    | false => exact .inl (by simpa [ht] using hctl.symm)
    | true => exact .inr ⟨htail ht, by simpa [ht] using hctl.symm⟩
  · rintro (rfl | ⟨hfamily, rfl⟩)
    · cases c <;> decide
    · revert hfamily
      cases c <;> decide

/-! ## What decodes, and what does not -/

/-- Fields that pass the tests of R87 give the command of `OP`. -/
theorem decode_of_fields (d : Descriptor) (c : Opcode) (hres : ctlReserved (Descriptor.word 0 d) = 0)
    (hop : ctlOp (Descriptor.word 0 d) = c.code)
    (htail : ctlTail (Descriptor.word 0 d) = true → opFamily c.code = 2) :
    decode d = .ok (c.build (ctlTail (Descriptor.word 0 d)) (Descriptor.operands d)) := by
  have hlegal : ¬ (ctlTail (Descriptor.word 0 d) = true ∧ opFamily c.code ≠ 2) := fun h => h.2 (htail h.1)
  unfold decode
  simp only [hres, hop, Opcode.ofCode?_code, ne_eq, not_true_eq_false, if_false, if_neg hlegal]

/-- A descriptor decodes to a command exactly when word 0 is in the command's row and the command has the
descriptor's TAIL and operands. -/
theorem decode_eq_ok_iff (d : Descriptor) (i : Instr) :
    decode d = .ok i ↔ Descriptor.word 0 d &&& i.opcode.maskWord = i.opcode.matchWord ∧
      i.opcode.build (ctlTail (Descriptor.word 0 d)) (Descriptor.operands d) = i := by
  constructor
  · intro h
    obtain ⟨c, hres, hop, htail, rfl⟩ := decode_cases d i h
    rw [Opcode.opcode_build]
    exact ⟨(c.fields_iff_mask_eq_match _).1 ⟨hres, hop.symm, htail⟩, rfl⟩
  · rintro ⟨hmatch, hi⟩
    obtain ⟨hres, hop, htail⟩ := (i.opcode.fields_iff_mask_eq_match _).2 hmatch
    exact (decode_of_fields d i.opcode hres hop htail).trans (congrArg _ hi)

theorem exists_decode_with_opcode_iff (d : Descriptor) (c : Opcode) :
    (∃ i, decode d = .ok i ∧ i.opcode = c) ↔ Descriptor.word 0 d &&& c.maskWord = c.matchWord := by
  constructor
  · rintro ⟨i, h, rfl⟩
    exact ((decode_eq_ok_iff d i).1 h).1
  · intro h
    refine ⟨c.build (ctlTail (Descriptor.word 0 d)) (Descriptor.operands d), ?_, Opcode.opcode_build _ _ c⟩
    rw [decode_eq_ok_iff, Opcode.opcode_build]
    exact ⟨h, rfl⟩

/-- A descriptor is illegal exactly when it is no command. -/
theorem exists_decode_error_iff (d : Descriptor) : (∃ e, decode d = .error e) ↔ ¬ ∃ i, decode d = .ok i := by
  cases decode d <;> simp

/-! ## Encoding, then decoding -/

@[simp] theorem Instr.build_opcode (i : Instr) : i.opcode.build i.tail i.operands = i := by
  cases i <;> rfl

/-- Word 0 of every encoded command is its row of R84, with its TAIL. -/
theorem encode_matches (i : Instr) : Laws.EncodeMatches.Statement i := by
  cases i with
  | pad o => exact Laws.EncodeMatches.pad o
  | halo o => exact Laws.EncodeMatches.halo o
  | strip o => exact Laws.EncodeMatches.strip o
  | sblur o => exact Laws.EncodeMatches.sblur o
  | sgray o => exact Laws.EncodeMatches.sgray o
  | ssharp o => exact Laws.EncodeMatches.ssharp o
  | vblur t o => exact Laws.EncodeMatches.vblur t o
  | vgray t o => exact Laws.EncodeMatches.vgray t o
  | vsharp t o => exact Laws.EncodeMatches.vsharp t o

/-- Words 1 to 5 of an encoded command hold its operands, when these fit. -/
theorem operands_encode (i : Instr) (hw : i.wellFormed = true) : Descriptor.operands (encode i) = i.operands := by
  obtain ⟨w, h, src, len, dst, -, -⟩ := Machine.regsOf_operands i hw
  calc Descriptor.operands (encode i)
      = ⟨(Machine.regsOf i).wInt, (Machine.regsOf i).hInt, (Machine.regsOf i).src, (Machine.regsOf i).len,
          (Machine.regsOf i).dst⟩ := by rw [← Machine.DescRegs.ofDescriptor_encode]; rfl
    _ = i.operands := by rw [w, h, src, len, dst]

/-- Settles O1: word 0 of the encoding is in the command's row with its TAIL, and the other words hold its
operands. -/
theorem decodeUndoesEncode : Obligations.DecodeUndoesEncode := by
  intro i hw
  obtain ⟨hmatch, htail⟩ := encode_matches i
  rw [decode_eq_ok_iff, operands_encode i hw, ctlTail, htail]
  exact ⟨hmatch, Instr.build_opcode i⟩

/-- Settles O2. -/
theorem encodeUndoesDecode : Obligations.EncodeUndoesDecode :=
  fun d i h => ⟨encode_of_decode d i h, wellFormed_of_decode d i h⟩

/-! ## R87 and R84 -/

/-- Settles O3: an accepted descriptor passes every test of R87, so failing one is illegal; fields that pass all
of them give the command of `OP`. -/
theorem decodeFollowsTheAlgorithm : Obligations.DecodeFollowsTheAlgorithm := by
  intro d ctl op tail ops
  have illegal (h : ∀ c : Opcode, ctlReserved ctl = 0 → c.code = op → ¬ (tail = true → opFamily op = 2)) :
      ∃ e, decode d = .error e := by
    rw [exists_decode_error_iff]
    rintro ⟨i, hi⟩
    obtain ⟨c, hres, hop, htail, -⟩ := decode_cases d i hi
    exact h c hres hop fun ht => (congrArg opFamily hop).symm.trans (htail ht)
  have legal (c : Opcode) (hres : ctl.extractLsb' 9 23 = 0) (htail : tail = true → opFamily c.code = 2)
      (hop : op = c.code) : decode d = .ok (c.build tail ops) := decode_of_fields d c hres hop htail
  refine ⟨fun hres => illegal fun _ h => absurd h hres, fun hop => illegal fun c _ h => ?_,
    fun ht hfamily => illegal fun _ _ _ h => hfamily (h ht), fun hres ht => ?_, fun hres => ?_⟩
  · exact absurd (h ▸ by cases c <;> decide) hop
  · have scalar (c : Opcode) := legal c hres (fun h => absurd (ht.symm.trans h) Bool.false_ne_true)
    exact ⟨scalar .pad, scalar .halo, scalar .strip, scalar .sblur, scalar .sgray, scalar .ssharp⟩
  · have vector (c : Opcode) (hfamily : opFamily c.code = 2) := legal c hres fun _ => hfamily
    exact ⟨vector .vblur rfl, vector .vgray rfl, vector .vsharp rfl⟩

/-- The twelve legal values of word 0 are those of the nine rows (R86). -/
theorem all_words_perm : (Opcode.all.flatMap Opcode.words).Perm
    [0x001, 0x002, 0x003, 0x010, 0x011, 0x012, 0x020, 0x021, 0x022, 0x120, 0x121, 0x122] := by
  decide

theorem exists_decode_iff_mem_words (d : Descriptor) :
    (∃ i, decode d = .ok i) ↔ Descriptor.word 0 d ∈ Opcode.all.flatMap Opcode.words := by
  calc (∃ i, decode d = .ok i) ↔ ∃ c : Opcode, ∃ i, decode d = .ok i ∧ i.opcode = c := by
        rw [exists_comm]; simp
    _ ↔ ∃ c : Opcode, Descriptor.word 0 d ∈ c.words := by
        simp only [exists_decode_with_opcode_iff, Opcode.mask_eq_match_iff]
    _ ↔ _ := by simp [Opcode.mem_all]

/-- Settles O4: a row is matched exactly by the descriptors of its commands, and no row holds an illegal one. -/
theorem decodeIsTheMatchMaskTable : Obligations.DecodeIsTheMatchMaskTable := by
  refine fun d => ⟨exists_decode_with_opcode_iff d, ?_⟩
  rw [exists_decode_error_iff, exists_decode_iff_mem_words, all_words_perm.mem_iff]
  rfl

/-- Settles O6, word by word. -/
theorem sampleWordsDecode : Obligations.SampleWordsDecode := by
  refine ⟨?_, ?_, ?_, ?_, ?_, ?_⟩ <;> decide

end Sys2Proof
end

section
/-! A descriptor as 24 bytes (30_encoding.md R81). -/

namespace Sys2Proof

/-- The last byte is the most significant one. -/
theorem natOfBytes_append_singleton (bs : List Byte) (b : Byte) :
    natOfBytes (bs ++ [b]) = natOfBytes bs + 256 ^ bs.length * b.toNat := by
  induction bs with
  | nil => simp [natOfBytes]
  | cons b' bs ih =>
    simp only [List.cons_append, natOfBytes, ih, List.length_cons, Nat.pow_succ]
    ring

/-- The first n bytes of a word stand for its value modulo 256^n. -/
theorem natOfBytes_range_map {w : Nat} (d : BitVec w) (n : Nat) :
    natOfBytes ((List.range n).map fun k => d.extractLsb' (8 * k) 8) = d.toNat % 256 ^ n := by
  induction n with
  | zero => simp [natOfBytes, Nat.mod_one]
  | succ n ih =>
    have hbyte : (d.extractLsb' (8 * n) 8).toNat = d.toNat / 256 ^ n % 256 := by
      rw [BitVec.extractLsb'_toNat, Nat.shiftRight_eq_div_pow, Nat.pow_mul]
    rw [List.range_succ, List.map_append, List.map_singleton, natOfBytes_append_singleton, ih, List.length_map,
      List.length_range, hbyte, Nat.mod_pow_succ]

@[simp] theorem Descriptor.length_bytes (d : Descriptor) : (Descriptor.bytes d).length = 24 := by
  simp [Descriptor.bytes]

/-- Byte j of word k. -/
theorem Descriptor.getElem?_bytes (d : Descriptor) (k j : Nat) (hk : k < 6) (hj : j < 4) :
    (Descriptor.bytes d)[4 * k + j]? = some ((Descriptor.word k d).extractLsb' (8 * j) 8) := by
  have hbyte : d.extractLsb' (8 * (4 * k + j)) 8 = (Descriptor.word k d).extractLsb' (8 * j) 8 := by
    apply BitVec.eq_of_getLsbD_eq
    intro b hb
    simp only [Descriptor.word, Config.addrBits, BitVec.getLsbD_extractLsb', show 8 * j + b < 32 by omega,
      decide_true, Bool.true_and, show 8 * (4 * k + j) + b = 32 * k + (8 * j + b) by omega]
  rw [Descriptor.bytes, List.getElem?_map, List.getElem?_range (by omega), Option.map_some, hbyte]

/-- No bit of a descriptor is lost in its bytes. -/
theorem ofNat_natOfBytes_bytes (d : Descriptor) : BitVec.ofNat 192 (natOfBytes (Descriptor.bytes d)) = d := by
  have hlt : d.toNat < 256 ^ 24 := Nat.lt_of_lt_of_le d.isLt (by decide)
  rw [Descriptor.bytes, natOfBytes_range_map, Nat.mod_eq_of_lt hlt]
  exact BitVec.eq_of_toNat_eq ((BitVec.toNat_ofNat ..).trans (Nat.mod_eq_of_lt d.isLt))

theorem decodeBytes_bytes (d : Descriptor) : decodeBytes (Descriptor.bytes d) = decode d := by
  rw [decodeBytes, if_pos (Descriptor.length_bytes d), ofNat_natOfBytes_bytes]

/-- Settles O5: the place of each byte, and the number that the bytes stand for; R81's example is one descriptor. -/
theorem descriptorBytesAreLittleEndian : Obligations.DescriptorBytesAreLittleEndian :=
  ⟨fun d => ⟨Descriptor.length_bytes d, Descriptor.getElem?_bytes d, decodeBytes_bytes d⟩, by decide⟩

end Sys2Proof
end

section
/-! SRC_BASE and SRC_LEN of HALO (30_encoding.md R85; 10_state.md R26): they are latched, and neither the checks of
HALO nor its calls see them. -/

namespace Sys2Proof.Machine

/-! ## A whole command, over its registers -/

/-- A command whose registers fail a check ends in that error. -/
theorem runCommand_of_error (d : Descriptor) (pl : Plan) (s : State) (r : DescRegs) (e : ErrCode)
    (hb : s.state ≠ .busy) (hr : DescRegs.ofDescriptor d = r) (he : validate s.params r pl = some e) :
    runCommand d pl s = .next { s with d := r, state := .error, err := e, callIdx := 0 } := by
  subst hr
  rw [runCommand, if_neg hb]
  simp only [State.latch_d, State.latch_params, he]
  rfl

/-- A command whose registers pass every check runs its calls. -/
theorem runCommand_of_valid (d : Descriptor) (pl : Plan) (s : State) (r : DescRegs) (hb : s.state ≠ .busy)
    (hr : DescRegs.ofDescriptor d = r) (hv : validate s.params r pl = none) :
    runCommand d pl s = .next { s with
      mem := runCalls s.params r (pl.calls r.w r.h) s.mem
      d := r
      state := .done
      err := .none
      callIdx := BitVec.ofNat _ (pl.calls r.w r.h).length } := by
  subst hr
  rw [runCommand, if_neg hb]
  simp only [State.latch_d, State.latch_params, hv]
  rfl

/-! ## HALO's two ignored registers -/

/-- The registers with SRC_BASE and SRC_LEN replaced. -/
def DescRegs.withSource (d : DescRegs) (base len : Word) : DescRegs := { d with srcBase := base, srcLen := len }

theorem regsOf_halo_withSource (o : Operands) (src len : Nat) :
    regsOf (.halo { o with src := src, len := len }) =
      (regsOf (.halo o)).withSource (BitVec.ofNat 32 src) (BitVec.ofNat 32 len) := rfl

theorem validate_haloPlan_withSource (p : Config.Params) (d : DescRegs) (base len : Word) :
    validate p (d.withSource base len) haloPlan = validate p d haloPlan := rfl

/-- Calls that do the same with two contents of the registers do the same one after another. -/
theorem runCalls_congr_regs (p : Config.Params) (d d' : DescRegs) (cs : List Call) (m : Memory)
    (h : ∀ c ∈ cs, c.run p d = c.run p d') : runCalls p d cs m = runCalls p d' cs m := by
  induction cs generalizing m with
  | nil => rfl
  | cons c cs ih =>
    rw [runCalls, runCalls, h c (by simp)]
    exact ih _ fun c hc => h c (by simp [hc])

theorem runCalls_haloCalls_withSource (p : Config.Params) (d : DescRegs) (base len : Word) (h : Nat) (m : Memory) :
    runCalls p (d.withSource base len) (haloCalls h) m = runCalls p d (haloCalls h) m := by
  refine runCalls_congr_regs p _ _ _ m fun c hc => ?_
  rcases (mem_haloCalls h c).1 hc with ⟨y, -, rfl⟩ | rfl | rfl <;> rfl

/-- Settles O33: neither the checks of HALO nor its calls see SRC_BASE or SRC_LEN. -/
theorem haloIgnoresItsSourceFields : Obligations.HaloIgnoresItsSourceFields := by
  intro o src len s
  have hregs := regsOf_halo_withSource o src len
  by_cases hb : s.state = .busy
  · rw [exec_of_busy _ s hb, exec_of_busy _ s hb]
    exact (if_pos hb).symm
  · simp only [exec_eq_runCommand, planOf, if_neg hb]
    cases hv : validate s.params (regsOf (.halo o)) haloPlan with
    | some e =>
      rw [runCommand_of_error _ haloPlan s _ e hb (DescRegs.ofDescriptor_encode _) hv,
        runCommand_of_error _ haloPlan s _ e hb ((DescRegs.ofDescriptor_encode _).trans hregs) hv]
      rfl
    | none =>
      rw [runCommand_of_valid _ haloPlan s _ hb (DescRegs.ofDescriptor_encode _) hv,
        runCommand_of_valid _ haloPlan s _ hb ((DescRegs.ofDescriptor_encode _).trans hregs) hv]
      simp only [haloPlan, runCalls_haloCalls_withSource]
      rfl

end Sys2Proof.Machine
end

section
/-! The call lists of R117 entry by entry (40_command_lifecycle.md R117, R119), and with that O10 and O11. -/

namespace Sys2Proof.Machine

/-! ## Row-major lists -/

/-- Entry x of row y of a row-major list of rows of n calls. -/
theorem getElem?_rows (f : Nat → List Call) (h n x y : Nat) (hrow : ∀ y, (f y).length = n) (hx : x < n)
    (hy : y < h) :
    ((List.range h).flatMap f)[y * n + x]? = (f y)[x]? := by
  induction h with
  | zero => omega
  | succ h ih =>
    rw [List.range_succ, List.flatMap_append, List.flatMap_singleton]
    rcases Nat.lt_succ_iff_lt_or_eq.1 hy with hlt | rfl
    · have hend : y * n + x < h * n := by
        have := Nat.mul_le_mul_right n (Nat.succ_le_of_lt hlt)
        rw [Nat.succ_mul] at this
        omega
      rw [List.getElem?_append_left (by rwa [length_rows f h n hrow]), ih hlt]
    · rw [List.getElem?_append_right (by rw [length_rows f y n hrow]; omega), length_rows f y n hrow,
        Nat.add_sub_cancel_left]

/-- Entry (x, y) of a row-major loop nest over w columns and h rows. -/
theorem getElem?_nest (f : Nat → Nat → Call) (w h x y : Nat) (hx : x < w) (hy : y < h) :
    ((List.range h).flatMap fun y => (List.range w).map fun x => f x y)[y * w + x]? = some (f x y) := by
  rw [getElem?_rows _ h w x y (by simp) hx hy]
  simp [hx]

/-! ## The builder commands -/

theorem getElem?_haloCalls_hcol (h y : Nat) (hy : y < h) : (haloCalls h)[y]? = some (.hcol (y + 1)) := by
  rw [haloCalls, List.getElem?_append_left (by simpa using hy)]
  simp [hy]

theorem getElem?_haloCalls_vrow (h k : Nat) :
    (haloCalls h)[h + k]? = [Call.vrow 0 1, Call.vrow (h + 1) h][k]? := by
  rw [haloCalls, List.getElem?_append_right (by simp)]
  simp

theorem getElem?_padCalls_copyIn (w h x y : Nat) (hx : x < w) (hy : y < h) :
    (padCalls w h)[y * w + x]? = some (.copyIn x y) := by
  have hnest := getElem?_nest Call.copyIn w h x y hx hy
  obtain ⟨hlt, -⟩ := List.getElem?_eq_some_iff.1 hnest
  rw [padCalls, List.getElem?_append_left hlt, hnest]

/-- After its copies PAD runs HALO's list (41_padding.md R148). -/
theorem getElem?_padCalls_halo (w h k : Nat) : (padCalls w h)[w * h + k]? = (haloCalls h)[k]? := by
  have hlen : ((List.range h).flatMap fun y => (List.range w).map fun x => Call.copyIn x y).length = w * h := by
    rw [length_rows _ h w (by simp), Nat.mul_comm]
  rw [padCalls, List.getElem?_append_right (by omega), hlen, Nat.add_sub_cancel_left]

/-! ## The vector commands -/

@[simp] theorem length_vectorRow (k : Kernel) (pp : Nat) (tail : Bool) (w y : Nat) :
    (vectorRow k pp tail w y).length = w / pp + if tail then w % pp else 0 := by
  cases tail <;> simp [vectorRow]

theorem getElem?_vectorRow_group (k : Kernel) (pp : Nat) (tail : Bool) (w y g : Nat) (hg : g < w / pp) :
    (vectorRow k pp tail w y)[g]? = some (.vcall k (1 + g * pp) y) := by
  rw [vectorRow, List.getElem?_append_left (by simpa using hg)]
  simp [hg]

theorem getElem?_vectorRow_tail (k : Kernel) (pp w y t : Nat) (ht : t < w % pp) :
    (vectorRow k pp true w y)[w / pp + t]? = some (.scall k (w / pp * pp + 1 + t) y) := by
  rw [vectorRow, List.getElem?_append_right (by simp)]
  simp [ht]

/-- Entry n of row y of a vector command's list. -/
theorem getElem?_vectorCalls (k : Kernel) (pp : Nat) (tail : Bool) (w h n y : Nat)
    (hn : n < w / pp + if tail then w % pp else 0) (hy : y < h) :
    (vectorCalls k pp tail w h)[y * (w / pp + if tail then w % pp else 0) + n]? =
      (vectorRow k pp tail w (y + 1))[n]? :=
  getElem?_rows _ h _ n y (fun y => length_vectorRow k pp tail w (y + 1)) hn hy

/-! ## The statements -/

/-- Settles O10, list by list; which list is which command's is the definition of `planOf`. -/
theorem callListsAreTheLoopNests : Obligations.CallListsAreTheLoopNests := by
  refine ⟨fun w h => ?_, fun h => ?_, fun w h => ?_, fun k w h => ?_, fun k pp tail w h _ => ?_, fun p o tail => ?_⟩
  · refine ⟨length_padCalls w h, getElem?_padCalls_copyIn w h, fun y hy => ?_, ?_, ?_⟩
    · rw [getElem?_padCalls_halo, getElem?_haloCalls_hcol h y hy]
    · exact (getElem?_padCalls_halo w h h).trans (getElem?_haloCalls_vrow h 0)
    · exact (getElem?_padCalls_halo w h (h + 1)).trans (getElem?_haloCalls_vrow h 1)
  · exact ⟨length_haloCalls h, getElem?_haloCalls_hcol h, getElem?_haloCalls_vrow h 0, getElem?_haloCalls_vrow h 1⟩
  · exact ⟨length_stripCalls w h, getElem?_nest Call.copyOut w h⟩
  · exact ⟨length_scalarCalls k w h, getElem?_nest (fun x y => .scall k (x + 1) (y + 1)) w h⟩
  · refine ⟨length_vectorCalls k pp tail w h, fun g y hg hy => ?_, fun htail t y ht hy => ?_⟩
    · rw [getElem?_vectorCalls k pp tail w h g y (by omega) hy, getElem?_vectorRow_group k pp tail w _ g hg]
    · subst htail
      rw [getElem?_vectorCalls k pp true w h _ y (by rw [if_pos rfl]; omega) hy,
        getElem?_vectorRow_tail k pp w _ t ht]
  · exact ⟨rfl, rfl, rfl, rfl, rfl, rfl, rfl, rfl, rfl⟩

/-- Settles O11: the length of each list, and the padded size of an accepted command. -/
theorem callCountsAreBounded : Obligations.CallCountsAreBounded := by
  intro p i he
  obtain ⟨-, -, -, -, hsize⟩ := dimensions_of_accepted p.memBytes i he
  rw [Nat.mul_assoc] at hsize
  exact ⟨length_calls p i, callCount_lt_cells p i, by omega⟩

end Sys2Proof.Machine
end

section
/-! Taking a command from the host outside BUSY (40_command_lifecycle.md R110 to R115, R125): the two turns of the
inbox, and what each ends in. -/

namespace Sys2Proof.Machine

/-! ## The turns -/

theorem step_of_issue (s : State) (d : Descriptor) (rest : List Turn) (h : s.inbox = .issue d :: rest)
    (hb : s.state ≠ .busy) : step s = .next (issue d { s with inbox := rest }) := by
  rw [step, h]
  exact if_neg hb

/-- ISSUE put at the head of the inbox. -/
theorem step_issueFirst (s : State) (d : Descriptor) (rest : List Turn) (hb : s.state ≠ .busy) :
    step { s with inbox := .issue d :: rest } = .next (issue d { s with inbox := rest }) :=
  step_of_issue { s with inbox := .issue d :: rest } d rest rfl hb

theorem step_of_command (s : State) (d : Descriptor) (rest : List Turn) (h : s.inbox = .command d :: rest)
    (hb : s.state ≠ .busy) : step s = commandTurn d { s with inbox := rest } := by
  rw [step, h]
  exact if_neg hb

theorem step_of_engine (s : State) (rest : List Turn) (h : s.inbox = .engine :: rest) :
    step s = engineTurn { s with inbox := rest } := by
  rw [step, h]

theorem State.withFetchWord_not_busy (s : State) (nbits w : Nat) : (s.withFetchWord nbits w).state ≠ .busy := by
  simp only [State.withFetchWord]
  split
  · nofun
  · assumption

theorem commandTurn_of_decode (d : Descriptor) (i : Instr) (s : State) (h : decode d = .ok i) :
    commandTurn d s = exec i s := by
  rw [commandTurn, h]

/-- ISSUE as a whole (R110): the registers, and STATE and ERR by the first error of the descriptor. -/
theorem issue_eq (d : Descriptor) (s : State) :
    issue d s = { s with
      d := DescRegs.ofDescriptor d
      callIdx := 0
      state := if regsError s.params (DescRegs.ofDescriptor d) = none then .busy else .error
      err := (regsError s.params (DescRegs.ofDescriptor d)).getD .none } := by
  cases h : regsError s.params (DescRegs.ofDescriptor d) with
  | none =>
    rw [issue_of_accepted d s h]
    rfl
  | some e =>
    rw [issue_of_error d s e h]
    rfl

/-- A whole command that fails validation does what its ISSUE does. -/
theorem commandTurn_of_error (d : Descriptor) (s : State) (e : ErrCode) (hb : s.state ≠ .busy)
    (h : regsError s.params (DescRegs.ofDescriptor d) = some e) : commandTurn d s = .next (issue d s) := by
  rw [issue_of_error d s e h]
  cases hd : decode d with
  | error x =>
    rw [regsError_of_illegal _ _ x (by simpa using hd)] at h
    rw [commandTurn, hd, ← Option.some.inj h]
  | ok i =>
    rw [regsError_of_decode _ _ i (by simpa using hd)] at h
    rw [commandTurn_of_decode d i s hd, exec_of_error i s e (wellFormed_of_decode d i hd) hb h,
      encode_of_decode d i hd]

/-! ## The statements -/

/-- Settles O7: ISSUE goes by the registers' error, which is that of the decoded command. -/
theorem issueLatchesAndValidates : Obligations.IssueLatchesAndValidates := by
  intro s d rest hin hb regs err
  have herr : err = regsError s.params (DescRegs.ofDescriptor d) := by
    cases hd : decode d with
    | error x => rw [regsError_of_illegal _ _ x (by simpa using hd)]; simp only [err, hd]
    | ok i => rw [regsError_of_decode _ _ i (by simpa using hd)]; simp only [err, hd]
  rw [step_of_issue s d rest hin hb, issue_eq, herr]
  rfl

/-- Settles O8: the command latches its words and raises its first error. -/
theorem failingCommandEndsInError : Obligations.FailingCommandEndsInError := by
  intro i s e hw hb he
  rw [exec_of_error i s e hw hb he, State.raiseError, State.latch, DescRegs.ofDescriptor_encode]

/-- Settles O13: the bytes hold the descriptor of the turn. -/
theorem stepRunsTheDecodedCommand : Obligations.StepRunsTheDecodedCommand := by
  intro s bs i rest hbytes hin hb
  have hd : decode (BitVec.ofNat 192 (natOfBytes bs)) = .ok i := by
    rw [decodeBytes] at hbytes
    split at hbytes
    · exact hbytes
    · cases hbytes
  rw [step_of_command s _ rest hin hb, commandTurn_of_decode _ i _ hd]

/-- Settles O14: `withFetchWord` puts the word's descriptor at the head of the inbox, outside BUSY. -/
theorem fetchWordRunsNext : Obligations.FetchWordRunsNext := by
  intro s w i hw
  have hd : decode (BitVec.ofNat 192 (w % 2 ^ 192)) = .ok i := by
    rw [decodeTableWord, decodeBytes_bytes] at hw
    cases hd : decode (BitVec.ofNat 192 (w % 2 ^ 192)) with
    | error x =>
      rw [hd] at hw
      cases hw
    | ok j =>
      rw [hd] at hw
      rw [Option.some.inj hw]
  rw [step_of_command _ _ s.inbox rfl (State.withFetchWord_not_busy s 192 w), commandTurn_of_decode _ i _ hd]
  rfl

/-- Settles O15: a command waits, ends in its error or runs; each is a next state. -/
theorem execAlwaysAnswers : Obligations.ExecAlwaysAnswers := by
  refine fun i s => ⟨?_, exec_of_busy i s⟩
  rw [exec_eq_runCommand, runCommand]
  split
  · exact ⟨_, rfl⟩
  · simp only
    split
    · exact ⟨_, rfl⟩
    · exact ⟨_, rfl⟩

end Sys2Proof.Machine
end

section
/-! Runs of the engine (40_command_lifecycle.md R118, R119, R124, R125): k turns of a BUSY engine perform the next k
calls of its command, one more completes it, and with that O9, O12, O17; no run with the invariant stops, which
is O25. -/

namespace Sys2Proof.Machine

/-! ## Runs -/

section Run

variable (M : Host.Core)

theorem run_succ_of_step (n : Nat) (s t : M.State) (h : M.step s = .next t) : M.run (n + 1) s = M.run n t := by
  rw [Host.Core.run, h]

/-- A run of n + 1 steps that answers is one step and a run of n. -/
theorem exists_step_of_run_succ (n : Nat) (s t : M.State) (h : M.run (n + 1) s = .next t) :
    ∃ s', M.step s = .next s' ∧ M.run n s' = .next t := by
  rw [Host.Core.run] at h
  cases hs : M.step s with
  | next s' => exact ⟨s', rfl, by rwa [hs] at h⟩
  | fault r => simp [hs] at h
  | refused r => simp [hs] at h

theorem run_add (m n : Nat) (s t : M.State) (h : M.run m s = .next t) : M.run (m + n) s = M.run n t := by
  induction m generalizing s with
  | zero =>
    obtain rfl : s = t := Host.Outcome.next.inj h
    rw [Nat.zero_add]
  | succ m ih =>
    obtain ⟨s', hs, hrun⟩ := exists_step_of_run_succ M m s t h
    rw [Nat.add_right_comm, run_succ_of_step M _ s s' hs, ih s' hrun]

end Run

/-- A run of the engine goes by `step`. -/
theorem run_core_succ (n : Nat) (s t : State) (h : step s = .next t) :
    Host.Core.run Sys2Proof.core (n + 1) s = Host.Core.run Sys2Proof.core n t :=
  run_succ_of_step Sys2Proof.core n s t h

/-! ## The engine's turn, by what is left of the command -/

/-- The call list of the command that the registers hold. -/
theorem calls_of_decode (p : Config.Params) (d : DescRegs) (i : Instr) (h : decode d.toDescriptor = .ok i) :
    (planOf p i).calls d.w d.h = (planOf p i).calls i.width i.height := by
  obtain ⟨-, -, -, -, -, hwidth, hheight⟩ := regsOf_operands i (wellFormed_of_decode _ i h)
  rw [← DescRegs.eq_regsOf d i h] at hwidth hheight
  rw [hwidth, hheight]

theorem validPlan?_of_accepted (s : State) (i : Instr) (hd : decode s.d.toDescriptor = .ok i)
    (he : errorOf s.params.memBytes i = none) : s.validPlan? = some (planOf s.params i) := by
  have hv := (validate_of_decode s.params s.d i hd).trans he
  simp only [State.validPlan?, planOfRegs, hd, hv, if_true]

theorem engineTurn_of_not_busy (s : State) (hb : s.state ≠ .busy) : engineTurn s = .next s := if_neg hb

section Accepted

variable (s : State) (i : Instr) (hd : decode s.d.toDescriptor = .ok i) (he : errorOf s.params.memBytes i = none)
include hd he

theorem engineTurn_of_accepted (hb : s.state = .busy) :
    engineTurn s = .next (stepPlan (planOf s.params i) s) := by
  rw [engineTurn, if_pos hb, validPlan?_of_accepted s i hd he]

/-- With a call left the engine performs it (R118). -/
theorem engineTurn_of_call (hb : s.state = .busy) (c : Call)
    (hc : ((planOf s.params i).calls i.width i.height)[s.callIdx.toNat]? = some c) :
    engineTurn s = .next { s with mem := c.run s.params s.d s.mem, callIdx := s.callIdx + 1 } := by
  rw [engineTurn_of_accepted s i hd he hb, stepPlan, calls_of_decode _ _ i hd, hc]

/-- With none left it completes (R118). -/
theorem engineTurn_of_last (hb : s.state = .busy) (hlast : callCount s.params i ≤ s.callIdx.toNat) :
    engineTurn s = .next { s with state := .done } := by
  have hnone : ((planOf s.params i).calls i.width i.height)[s.callIdx.toNat]? = none :=
    List.getElem?_eq_none (by rwa [length_calls])
  rw [engineTurn_of_accepted s i hd he hb, stepPlan, calls_of_decode _ _ i hd, hnone]

end Accepted

/-! ## The next k calls -/

/-- The state after the next k calls of the latched command i. -/
def State.afterCalls (s : State) (i : Instr) (k : Nat) : State :=
  { s with
    mem := runCalls s.params s.d ((((planOf s.params i).calls i.width i.height).drop s.callIdx.toNat).take k) s.mem
    callIdx := s.callIdx + BitVec.ofNat _ k }

theorem State.afterCalls_zero (s : State) (i : Instr) : s.afterCalls i 0 = s := by
  simp [State.afterCalls, runCalls]

/-- From the first call the next `callCount` calls are all of them. -/
theorem State.afterCalls_all (s : State) (i : Instr) (h : s.callIdx = 0) :
    s.afterCalls i (callCount s.params i) = { s with
      mem := runCalls s.params s.d ((planOf s.params i).calls i.width i.height) s.mem
      callIdx := BitVec.ofNat _ (callCount s.params i) } := by
  simp [State.afterCalls, h, ← length_calls]

/-- One call and then the next k are the next k + 1. -/
theorem State.afterCalls_succ (s : State) (i : Instr) (c : Call) (k : Nat)
    (hc : ((planOf s.params i).calls i.width i.height)[s.callIdx.toNat]? = some c)
    (hnext : (s.callIdx + 1).toNat = s.callIdx.toNat + 1) :
    ({ s with mem := c.run s.params s.d s.mem, callIdx := s.callIdx + 1 } : State).afterCalls i k =
      s.afterCalls i (k + 1) := by
  obtain ⟨hlt, rfl⟩ := List.getElem?_eq_some_iff.1 hc
  have hidx : s.callIdx + 1 + BitVec.ofNat _ k = s.callIdx + BitVec.ofNat _ (k + 1) := by
    rw [BitVec.add_assoc, Nat.add_comm k 1, BitVec.ofNat_add]
    rfl
  simp only [State.afterCalls, hnext, hidx, List.drop_eq_getElem_cons hlt, List.take_succ_cons, runCalls]

section Accepted

variable (s : State) (i : Instr) (hd : decode s.d.toDescriptor = .ok i) (he : errorOf s.params.memBytes i = none)
  (hb : s.state = .busy) (hin : s.inbox = [])
include hd he hb hin

/-- A BUSY engine left alone performs a call in each step. -/
theorem run_calls (k : Nat) (hk : s.callIdx.toNat + k ≤ callCount s.params i) :
    Host.Core.run Sys2Proof.core k s = .next (s.afterCalls i k) := by
  have hcount := callCount_lt_of_accepted s.params i he
  induction k generalizing s with
  | zero => rw [State.afterCalls_zero]; rfl
  | succ k ih =>
    have hlt : s.callIdx.toNat < ((planOf s.params i).calls i.width i.height).length := by rw [length_calls]; omega
    have hc := List.getElem?_eq_getElem hlt
    have hnext : (s.callIdx + 1).toNat = s.callIdx.toNat + 1 :=
      BitVec.toNat_add_of_lt (show s.callIdx.toNat + 1 < 2 ^ 32 by omega)
    have hstep := (step_of_empty s hin).trans (engineTurn_of_call s i hd he hb _ hc)
    rw [← State.afterCalls_succ s i _ k hc hnext]
    exact (run_core_succ k s _ hstep).trans
      (ih _ hd he hb hin (show (s.callIdx + 1).toNat + k ≤ callCount s.params i by omega) hcount)

/-- After its last call it completes: the calls left take one step each, and DONE one more. -/
theorem run_to_done (n : Nat) (hn : s.callIdx.toNat + n = callCount s.params i) :
    Host.Core.run Sys2Proof.core (n + 1) s = .next { s.afterCalls i n with state := .done } := by
  have hcount := callCount_lt_of_accepted s.params i he
  have hlast : (s.afterCalls i n).callIdx.toNat = callCount s.params i := by
    rw [← hn]
    simp only [State.afterCalls, BitVec.toNat_add, BitVec.toNat_ofNat, Config.addrBits]
    omega
  have hstep : step (s.afterCalls i n) = .next { s.afterCalls i n with state := .done } :=
    (step_of_empty (s.afterCalls i n) hin).trans (engineTurn_of_last (s.afterCalls i n) i hd he hb hlast.ge)
  exact (run_add Sys2Proof.core n 1 s _ (run_calls s i hd he hb hin n hn.le)).trans
    (run_core_succ 0 _ _ hstep)

/-- From its first call the engine runs the whole list and completes. -/
theorem run_all_calls (h0 : s.callIdx = 0) :
    Host.Core.run Sys2Proof.core (callCount s.params i + 1) s = .next { s with
      mem := runCalls s.params s.d ((planOf s.params i).calls i.width i.height) s.mem
      state := .done
      callIdx := BitVec.ofNat _ (callCount s.params i) } := by
  have hn : s.callIdx.toNat + callCount s.params i = callCount s.params i := by
    rw [h0]
    exact Nat.zero_add _
  refine (run_to_done s i hd he hb hin _ hn).trans ?_
  rw [State.afterCalls_all s i h0]

end Accepted

/-- Settles O9: the two cases of the engine's turn, and the run of all the calls. -/
theorem engineTurnFollowsStep : Obligations.EngineTurnFollowsStep := by
  intro s i hin hd he cs
  have hlen : cs.length = callCount s.params i := length_calls s.params i
  rw [step_of_empty s hin, hlen]
  refine ⟨engineTurn_of_call s i hd he, engineTurn_of_last s i hd he, engineTurn_of_not_busy s, fun hb h0 => ?_⟩
  have hidx : s.callIdx.toNat = 0 := by rw [h0]; rfl
  exact ⟨fun k hk => ⟨_, run_calls s i hd he hb hin k (by omega), hb⟩,
    _, run_to_done s i hd he hb hin _ (by omega), rfl⟩

/-- Settles O17: the run of the calls that are left. -/
theorem busyReachesDone : Obligations.BusyReachesDone := by
  intro s hinv hb hin n
  obtain ⟨hvalid, hidx⟩ := hinv.busy hb
  obtain ⟨i, hd, he⟩ := (regsError_eq_none_iff s.params s.d).1 hvalid
  have hcount := callCount_lt_of_accepted s.params i he
  have hregs := regsCallCount_of_decode s.params s.d i hd
  refine ⟨fun k hk => ⟨_, run_calls s i hd he hb hin k (by omega), hb⟩,
    _, run_to_done s i hd he hb hin n (by omega), rfl, rfl, rfl, ?_⟩
  simp only [State.afterCalls, BitVec.toNat_add, BitVec.toNat_ofNat, Config.addrBits]
  omega

/-! ## Engine turns in the inbox -/

theorem engineTurn_inbox (s t : State) (h : engineTurn s = .next t) : t.inbox = s.inbox := by
  rcases engineTurn_cases s t h with ⟨-, rfl⟩ | ⟨-, pl, -, ⟨c, -, rfl⟩ | ⟨-, rfl⟩⟩
  · rfl
  · rfl
  · rfl

/-- n explicit turns of the engine are n steps of an engine left alone (log 5). -/
theorem run_engineTurns (n : Nat) (rest : List Turn) (s t : State) (hin : s.inbox = [])
    (h : Host.Core.run Sys2Proof.core n s = .next t) :
    Host.Core.run Sys2Proof.core n { s with inbox := List.replicate n .engine ++ rest } =
      .next { t with inbox := rest } := by
  induction n generalizing s with
  | zero =>
    obtain rfl : s = t := Host.Outcome.next.inj h
    rfl
  | succ n ih =>
    obtain ⟨s', hs, hrun⟩ := exists_step_of_run_succ Sys2Proof.core n s t h
    have hs : engineTurn s = .next s' := (step_of_empty s hin).symm.trans hs
    have hstep : step { s with inbox := List.replicate (n + 1) .engine ++ rest } =
        .next { s' with inbox := List.replicate n .engine ++ rest } :=
      (step_of_engine _ _ rfl).trans (engineTurn_withInbox s s' _ hs)
    exact (run_core_succ n _ _ hstep).trans (ih s' ((engineTurn_inbox s s' hs).trans hin) hrun)

/-- ISSUE of an accepted command, and then the engine's turns, end where the whole command ends (R125). -/
theorem run_issue_engineTurns (s : State) (d : Descriptor) (i : Instr) (rest : List Turn) (hb : s.state ≠ .busy)
    (hd : decode d = .ok i) (he : errorOf s.params.memBytes i = none) :
    Host.Core.run Sys2Proof.core (callCount s.params i + 2)
      { s with inbox := .issue d :: (List.replicate (callCount s.params i + 1) .engine ++ rest) } =
    exec i { s with inbox := rest } := by
  have hregs : DescRegs.ofDescriptor d = regsOf i := by
    rw [← encode_of_decode d i hd, DescRegs.ofDescriptor_encode]
  have hlatched : decode (regsOf i).toDescriptor = .ok i := by simpa [← hregs] using hd
  have hnone : regsError s.params (regsOf i) = none := (regsError_of_decode _ _ i hlatched).trans he
  let started : State := { s with d := regsOf i, state := .busy, err := .none, callIdx := 0, inbox := [] }
  have hissue (r : List Turn) : step { s with inbox := .issue d :: r } = .next { started with inbox := r } := by
    rw [step_issueFirst s d r hb, issue_eq, hregs, hnone]
    rfl
  have hdone := run_all_calls started i hlatched he rfl rfl rfl
  have hexec := exec_of_accepted i { s with inbox := rest } (wellFormed_of_decode d i hd) hb he
  rw [length_calls] at hexec
  exact (run_core_succ _ _ _ (hissue _)).trans ((run_engineTurns _ rest started _ rfl hdone).trans hexec.symm)

/-- Settles O12: an accepted command is its ISSUE and its turns, one that fails validation its ISSUE. -/
theorem commandIsIssueThenItsCalls : Obligations.CommandIsIssueThenItsCalls := by
  intro s d rest hin hb
  rw [step_of_command s d rest hin hb]
  have hfail (e : ErrCode) (h : regsError s.params (DescRegs.ofDescriptor d) = some e) :
      commandTurn d { s with inbox := rest } = step { s with inbox := .issue d :: rest } :=
    (commandTurn_of_error d { s with inbox := rest } e hb h).trans (step_issueFirst s d rest hb).symm
  refine ⟨fun i hd he => ?_, fun i e hd he => hfail e ?_, fun e hd => hfail .illegalCommand ?_⟩
  · rw [commandTurn_of_decode d i _ hd, run_issue_engineTurns s d i rest hb hd he]
  · rw [regsError_of_decode _ _ i (by simpa using hd), he]
  · exact regsError_of_illegal _ _ e (by simpa using hd)

/-! ## Safe runs -/

/-- With the invariant the engine's turn never faults: a BUSY engine has an accepted command. -/
theorem State.Inv.exists_engineTurn {s : State} (h : s.Inv) : ∃ t, Machine.engineTurn s = .next t := by
  by_cases hb : s.state = .busy
  · obtain ⟨i, hd, he⟩ := (regsError_eq_none_iff s.params s.d).1 (h.busy hb).1
    exact ⟨_, engineTurn_of_accepted s i hd he hb⟩
  · exact ⟨s, engineTurn_of_not_busy s hb⟩

/-- A whole command answers a next state, legal or not. -/
theorem exists_commandTurn (d : Descriptor) (s : State) : ∃ t, commandTurn d s = .next t := by
  cases hd : decode d with
  | error e => exact ⟨_, by rw [commandTurn, hd]⟩
  | ok i => rw [commandTurn_of_decode d i s hd]; exact (execAlwaysAnswers i s).1

/-- With the invariant every step answers a next state. -/
theorem State.Inv.exists_step {s : State} (h : s.Inv) : ∃ t, step s = .next t := by
  cases hin : s.inbox with
  | nil => rw [step_of_empty s hin]; exact h.exists_engineTurn
  | cons a rest =>
    by_cases hheld : s.state = .busy ∧ a.heldWhileBusy = true
    · rw [step_of_held s a rest hin hheld.1 hheld.2]
      exact h.exists_engineTurn
    · have hb (ha : a.heldWhileBusy = true) : s.state ≠ .busy := fun hbusy => hheld ⟨hbusy, ha⟩
      cases a with
      | issue d => exact ⟨_, step_of_issue s d rest hin (hb rfl)⟩
      | command d => rw [step_of_command s d rest hin (hb rfl)]; exact exists_commandTurn d _
      | status => exact ⟨_, step_of_status s rest hin⟩
      | hostRead x n => exact ⟨_, step_of_hostRead s x n rest hin (hb rfl)⟩
      | hostWrite x bs => exact ⟨_, step_of_hostWrite s x bs rest hin (hb rfl)⟩
      | reset => exact ⟨_, step_of_reset s rest hin⟩
      | engine => rw [step_of_engine s rest hin]; exact (h.withInbox rest).exists_engineTurn

/-- Settles O25, by induction on the number of steps: each answers, and keeps the invariant. -/
theorem invariantRunsAreSafe : Obligations.InvariantRunsAreSafe := by
  intro s h n
  induction n generalizing s with
  | zero => exact ⟨s, rfl⟩
  | succ n ih =>
    obtain ⟨s', hs⟩ := h.exists_step
    obtain ⟨t, ht⟩ := ih s' (stepKeepsTheInvariant s s' h hs)
    exact ⟨t, (run_core_succ n s s' hs).trans ht⟩

end Sys2Proof.Machine
end

section
/-! What a kernel command leaves alone (40_command_lifecycle.md R122; 43_vector_kernels.md R184): the halo of its
destination and, with TAIL = 0, the tail columns. -/

namespace Sys2Proof.Machine

/-- A kernel command writes covered interior cells only. -/
theorem kernelCalls_outside (p : Config.Params) (d : DescRegs) (i : Instr) (h : Nat) (m : Memory)
    (hk : i.isKernel = true) (a : Nat)
    (ha : ∀ x y, interior d.w h x y → covered (i.group p) i.tail d.w x = true → ¬ inCell d.dst d.w x y a) :
    (runCalls p d ((planOf p i).calls d.w h) m).read a = m.read a := by
  have scalar (k : Kernel)
      (ha : ∀ x y, interior d.w h x y → covered 1 false d.w x = true → ¬ inCell d.dst d.w x y a) :
      (runCalls p d (scalarCalls k d.w h) m).read a = m.read a := by
    rw [scalarCalls_eq]
    exact pass_outside p d _ k 1 false h m Nat.one_pos (writesGroup_scall p d k) a ha
  have vector (k : Kernel) (tail : Bool) (hpos : 0 < pixelsPerCall p k)
      (ha : ∀ x y, interior d.w h x y → covered (pixelsPerCall p k) tail d.w x = true →
        ¬ inCell d.dst d.w x y a) :
      (runCalls p d (vectorCalls k (pixelsPerCall p k) tail d.w h) m).read a = m.read a :=
    pass_outside p d _ k _ tail h m hpos (writesGroup_vcall p d k) a ha
  cases i with
  | pad o => cases hk
  | halo o => cases hk
  | strip o => cases hk
  | sblur o => exact scalar .blur ha
  | sgray o => exact scalar .gray ha
  | ssharp o => exact scalar .sharp ha
  | vblur t o => exact vector .blur t Nat.two_pos ha
  | vgray t o => exact vector .gray t (Nat.succ_pos 3) ha
  | vsharp t o => exact vector .sharp t (Config.SharpGroup.pixels_le p.pSharp).1 ha

/-- Settles O51: a command that waits or fails leaves memory as it is, and the bytes of another cell are not
those of a covered interior cell. -/
theorem kernelsKeepHaloAndTail : Obligations.KernelsKeepHaloAndTail := by
  intro i s t hw hk h x y hx hy hkept
  rcases exec_cases i s t hw h with ⟨-, rfl⟩ | ⟨-, e, -, rfl⟩ | ⟨-, -, rfl⟩
  · rfl
  · rfl
  · obtain ⟨-, -, -, -, hdst, hwidth, -⟩ := regsOf_operands i hw
    refine Memory.readPix_congr _ _ _ fun a hfrom hto => ?_
    have houtside := kernelCalls_outside s.params (regsOf i) i i.height s.mem hk a
    rw [hdst, hwidth] at houtside
    refine houtside fun x' y' hint hcov hcell => ?_
    have hne : x ≠ x' ∨ y ≠ y' := by
      by_contra hsame
      obtain ⟨rfl, rfl⟩ : x = x' ∧ y = y' := by omega
      exact hkept ⟨hint, by simpa [covered, grouped] using hcov⟩
    have := px_apart i.operands.dst i.width x y x' y' hx (by omega) hne
    omega

end Sys2Proof.Machine
end

section
/-! Cells of a padded-shape buffer as places of a picture (41_padding.md R140, R142, R143): the border-replication
invariant as one equation for each cell, and the two halo calls and HALO's list cell by cell. -/

namespace Sys2Proof.Machine

/-! ## The interior coordinate nearest to a coordinate -/

/-- The coordinate of the interior (1 to n) that is nearest to x. -/
def nearest (n x : Nat) : Nat := max 1 (min x n)

/-- A coordinate of a padded-shape buffer is the first halo one, an interior one or the last halo one. -/
theorem nearest_cases (n x : Nat) (hn : 1 ≤ n) (hx : x ≤ n + 1) :
    (x = 0 ∧ nearest n x = 1) ∨ (1 ≤ x ∧ x ≤ n ∧ nearest n x = x) ∨ (x = n + 1 ∧ nearest n x = n) := by
  unfold nearest
  omega

theorem nearest_of_interior (n x : Nat) (h1 : 1 ≤ x) (h2 : x ≤ n) : nearest n x = x := by
  unfold nearest
  omega

theorem nearest_interior (n x : Nat) (hn : 1 ≤ n) : 1 ≤ nearest n x ∧ nearest n x ≤ n := by
  unfold nearest
  omega

theorem nearest_nearest (n x : Nat) (hn : 1 ≤ n) : nearest n (nearest n x) = nearest n x :=
  nearest_of_interior n _ (nearest_interior n x hn).1 (nearest_interior n x hn).2

/-- The invariant of R140 as one equation: each cell is the nearest interior cell, the corners included. -/
theorem paddedBuffer_iff (m : Memory) (base w h : Nat) (hw : 1 ≤ w) (hh : 1 ≤ h) :
    PaddedBuffer m base w h ↔ ∀ x y, x ≤ w + 1 → y ≤ h + 1 →
      cell m base w x y = cell m base w (nearest w x) (nearest h y) := by
  constructor
  · rintro ⟨i1, i2⟩ x y hx hy
    have column : cell m base w x y = cell m base w x (nearest h y) := by
      rcases nearest_cases h y hh hy with ⟨rfl, e⟩ | ⟨-, -, e⟩ | ⟨rfl, e⟩ <;> rw [e]
      · exact (i2 x hx).1
      · exact (i2 x hx).2
    obtain ⟨y1, y2⟩ := nearest_interior h y hh
    rw [column]
    rcases nearest_cases w x hw hx with ⟨rfl, e⟩ | ⟨-, -, e⟩ | ⟨rfl, e⟩ <;> rw [e]
    · exact (i1 _ y1 y2).1
    · exact (i1 _ y1 y2).2
  · unfold nearest
    intro hall
    have same (x y x' y' : Nat) (hx : x ≤ w + 1) (hy : y ≤ h + 1) (hx' : x' ≤ w + 1) (hy' : y' ≤ h + 1)
        (ex : max 1 (min x w) = max 1 (min x' w)) (ey : max 1 (min y h) = max 1 (min y' h)) :
        cell m base w x y = cell m base w x' y' := by
      rw [hall x y hx hy, hall x' y' hx' hy', ex, ey]
    constructor
    · intro y y1 y2
      constructor <;> refine same _ _ _ _ ?_ ?_ ?_ ?_ ?_ rfl <;> omega
    · intro x hx
      constructor <;> refine same _ _ _ _ hx ?_ hx ?_ rfl ?_ <;> omega

/-- A buffer whose cells are given by their nearest interior coordinates has the invariant. -/
theorem paddedBuffer_of_cells (m : Memory) (base w h : Nat) (hw : 1 ≤ w) (hh : 1 ≤ h) (g : Nat → Nat → Pixel)
    (hg : ∀ x y, x ≤ w + 1 → y ≤ h + 1 → cell m base w x y = g (nearest w x) (nearest h y)) :
    PaddedBuffer m base w h := by
  refine (paddedBuffer_iff m base w h hw hh).2 fun x y hx hy => ?_
  obtain ⟨-, x2⟩ := nearest_interior w x hw
  obtain ⟨-, y2⟩ := nearest_interior h y hh
  rw [hg x y hx hy, hg _ _ (by omega) (by omega), nearest_nearest w x hw, nearest_nearest h y hh]

/-! ## Cells after a write -/

/-- A pixel written to a cell is read back from that cell, and every other cell reads as before. -/
theorem cell_writePix (m : Memory) (base w x y x' y' : Nat) (p : Pixel) (hx : x ≤ w + 1) (hx' : x' ≤ w + 1) :
    cell (m.writePix (px base w x' y') p) base w x y = if x = x' ∧ y = y' then p else cell m base w x y := by
  split
  · rename_i h
    obtain ⟨rfl, rfl⟩ := h
    exact Memory.readPix_writePix_same m _ p
  · exact Memory.readPix_writeBytes_outside m _ p.bytes _ (px_apart base w x y x' y' hx hx' (by omega))

/-- HCOL replicates the sides of its row (R142). -/
theorem cell_callHcol (d : DescRegs) (row : Nat) (m : Memory) (x y : Nat) (hw : 1 ≤ d.w) (hx : x ≤ d.w + 1) :
    cell (callHcol d row m) d.dst d.w x y =
      cell m d.dst d.w (if y = row then nearest d.w x else x) y := by
  unfold callHcol
  rw [cell_writePix _ _ _ _ _ _ _ _ hx (by omega), cell_writePix _ _ _ _ _ _ _ _ hx (by omega)]
  by_cases hy : y = row
  · subst hy
    rcases nearest_cases d.w x hw hx with ⟨rfl, e⟩ | ⟨h1, h2, e⟩ | ⟨rfl, e⟩
    · simp [e, cell]
    · simp [e, show ¬ x = d.w + 1 by omega, show ¬ x = 0 by omega]
    · simp [e, cell]
  · simp [hy]

/-- VROW copies a whole row (R143). -/
theorem cell_callVrow (d : DescRegs) (yd ys : Nat) (m : Memory) (x y : Nat) (hx : x ≤ d.w + 1) :
    cell (callVrow d yd ys m) d.dst d.w x y = cell m d.dst d.w x (if y = yd then ys else y) := by
  have place (row : Nat) : px d.dst d.w x row = px d.dst d.w 0 row + 4 * x := by
    simpa using px_add d.dst d.w 0 row x
  unfold callVrow
  split
  · rename_i hy
    subst hy
    refine Pixel.ext_chan _ _ fun c => ?_
    have hc := c.isLt
    simp only [cell, Memory.chan_readPix, place, Nat.add_assoc]
    rw [Memory.read_writeBytes_inside _ _ _ _ (by rw [Memory.length_readBytes]; omega), Memory.getElem_readBytes]
  · refine Memory.readPix_writeBytes_outside _ _ _ _ ?_
    rw [Memory.length_readBytes]
    rcases Nat.lt_or_gt_of_ne ‹y ≠ yd› with hlt | hgt
    · exact .inl (px_row_lt d.dst d.w x y 0 yd 1 (by omega) hlt)
    · exact .inr (px_row_lt d.dst d.w 0 yd x y (d.w + 2) (by omega) hgt)

/-! ## HALO's list -/

/-- The side columns of the first n interior rows, replicated. -/
theorem cell_runCalls_hcols (p : Config.Params) (d : DescRegs) (n : Nat) (m : Memory) (x y : Nat) (hw : 1 ≤ d.w)
    (hx : x ≤ d.w + 1) :
    cell (runCalls p d ((List.range n).map fun y => Call.hcol (y + 1)) m) d.dst d.w x y =
      cell m d.dst d.w (if 1 ≤ y ∧ y ≤ n then nearest d.w x else x) y := by
  induction n generalizing x with
  | zero => rw [if_neg (by omega)]; rfl
  | succ n ih =>
    rw [List.range_succ, List.map_append, runCalls_append]
    refine (cell_callHcol d (n + 1) _ x y hw hx).trans ?_
    split
    · have := (nearest_interior d.w x hw).2
      rw [ih _ (by omega), if_neg (by omega), if_pos (by omega)]
    · rw [ih x hx]
      congr 2
      exact propext (by omega)

/-- HALO's list makes each cell the nearest interior cell (R145, R147). -/
theorem cell_runCalls_haloCalls (p : Config.Params) (d : DescRegs) (h : Nat) (m : Memory) (x y : Nat) (hw : 1 ≤ d.w)
    (hh : 1 ≤ h) (hx : x ≤ d.w + 1) (hy : y ≤ h + 1) :
    cell (runCalls p d (haloCalls h) m) d.dst d.w x y = cell m d.dst d.w (nearest d.w x) (nearest h y) := by
  have hrow : (if (if y = h + 1 then h else y) = 0 then 1 else if y = h + 1 then h else y) = nearest h y := by
    rcases nearest_cases h y hh hy with ⟨rfl, e⟩ | ⟨h1, h2, e⟩ | ⟨rfl, e⟩
    · simp [e]
    · simp [e, show ¬ y = h + 1 by omega, show ¬ y = 0 by omega]
    · simp [e, show ¬ h = 0 by omega]
  obtain ⟨y1, y2⟩ := nearest_interior h y hh
  rw [haloCalls, runCalls_append]
  refine (cell_callVrow d (h + 1) h _ x y hx).trans ((cell_callVrow d 0 1 _ x _ hx).trans ?_)
  rw [hrow, cell_runCalls_hcols p d h m x _ hw hx, if_pos ⟨y1, y2⟩]

end Sys2Proof.Machine
end

section
/-! PAD, HALO and STRIP (41_padding.md R144 to R149): what each leaves in every cell or pixel of its destination, and
with that O30, O31, O32, O34 and O54. -/

namespace Sys2Proof.Machine

/-! ## Copies between disjoint regions -/

/-- The call copies the pixel at `src` to `dst` and writes nothing else. -/
def CopiesPixel (p : Config.Params) (d : DescRegs) (c : Call) (src dst : Nat) : Prop :=
  (∀ m, c.run p d m = m.writePix dst (m.readPix src)) ∧ ∀ a, c.writes p d a ↔ dst ≤ a ∧ a < dst + 4

theorem copiesPixel_copyIn (p : Config.Params) (d : DescRegs) (x y : Nat) :
    CopiesPixel p d (.copyIn x y) (upx d.src d.w x y) (px d.dst d.w (x + 1) (y + 1)) :=
  ⟨fun _ => rfl, fun _ => Iff.rfl⟩

theorem copiesPixel_copyOut (p : Config.Params) (d : DescRegs) (x y : Nat) :
    CopiesPixel p d (.copyOut x y) (px d.src d.w (x + 1) (y + 1)) (upx d.dst d.w x y) :=
  ⟨fun _ => rfl, fun _ => Iff.rfl⟩

/-- The row-major loop nest of the copying commands (R144, R146). -/
def nestCalls (f : Nat → Nat → Call) (w h : Nat) : List Call :=
  (List.range h).flatMap fun y => (List.range w).map fun x => f x y

theorem padCalls_eq (w h : Nat) : padCalls w h = nestCalls .copyIn w h ++ haloCalls h := rfl

theorem stripCalls_eq (w h : Nat) : stripCalls w h = nestCalls .copyOut w h := rfl

theorem mem_nestCalls (f : Nat → Nat → Call) (w h : Nat) (c : Call) :
    c ∈ nestCalls f w h ↔ ∃ y x, y < h ∧ x < w ∧ c = f x y := by
  simp [nestCalls, eq_comm]

/-- A loop nest is pairwise related when the calls of different places are. -/
theorem pairwise_nestCalls (f : Nat → Nat → Call) (r : Call → Call → Prop) (w h : Nat)
    (hr : ∀ x y x' y', x < w → x' < w → (x ≠ x' ∨ y ≠ y') → r (f x y) (f x' y')) :
    (nestCalls f w h).Pairwise r := by
  refine pairwise_rows _ _ h (fun y _ => pairwise_range_map _ _ w fun x x' hlt hx' => ?_) ?_
  · exact hr x y x' y (by omega) hx' (.inl (by omega))
  · intro y y' hlt _ c hc c' hc'
    obtain ⟨x, hx, rfl⟩ := List.mem_map.1 hc
    obtain ⟨x', hx', rfl⟩ := List.mem_map.1 hc'
    exact hr x y x' y' (List.mem_range.1 hx) (List.mem_range.1 hx') (.inr (by omega))

section Copies

variable {p : Config.Params} {d : DescRegs} {f : Nat → Nat → Call} {src dst : Nat → Nat → Nat} {w h : Nat}

/-- Copies that overwrite neither one another nor any pixel to be copied all arrive. -/
theorem readPix_runCalls_nestCalls (m : Memory) (hf : ∀ x y, CopiesPixel p d (f x y) (src x y) (dst x y))
    (hdst : ∀ x y x' y', x < w → x' < w → (x ≠ x' ∨ y ≠ y') →
      dst x y + 4 ≤ dst x' y' ∨ dst x' y' + 4 ≤ dst x y)
    (hsrc : ∀ x y x' y', x < w → y < h → x' < w → y' < h →
      src x y + 4 ≤ dst x' y' ∨ dst x' y' + 4 ≤ src x y)
    (x y : Nat) (hx : x < w) (hy : y < h) :
    (runCalls p d (nestCalls f w h) m).readPix (dst x y) = m.readPix (src x y) := by
  have hapart : (nestCalls f w h).Pairwise fun c c' => ∀ a, c.writes p d a → ¬ c'.writes p d a := by
    refine pairwise_nestCalls f _ w h fun x y x' y' hx hx' hne a ha ha' => ?_
    have := hdst x y x' y' hx hx' hne
    have := ((hf x y).2 a).1 ha
    have := ((hf x' y').2 a).1 ha'
    omega
  have hmem := fun c => (mem_nestCalls f w h c).1
  obtain ⟨pre, post, hsplit⟩ := List.append_of_mem ((mem_nestCalls f w h _).2 ⟨y, x, hy, hx, rfl⟩)
  rw [hsplit] at hapart hmem ⊢
  obtain ⟨hstays, -, hbefore⟩ := runCalls_at p d pre post (f x y) m hapart
  have hpixel : (runCalls p d pre m).readPix (src x y) = m.readPix (src x y) := by
    refine Memory.readPix_congr _ _ _ fun a hfrom hto => hbefore a fun e he hwrites => ?_
    obtain ⟨y', x', hy', hx', rfl⟩ := hmem e (by simp [he])
    have := hsrc x y x' y' hx hy hx' hy'
    have := ((hf x' y').2 a).1 hwrites
    omega
  rw [Memory.readPix_congr _ _ (dst x y) fun a hfrom hto => hstays a (((hf x y).2 a).2 ⟨hfrom, hto⟩),
    (hf x y).1, Memory.readPix_writePix_same, hpixel]

end Copies

/-! ## The lists of PAD and STRIP -/

/-- PAD's list makes each cell the source pixel of the nearest interior cell (R144, R147). -/
theorem cell_runCalls_padCalls (p : Config.Params) (d : DescRegs) (h : Nat) (m : Memory)
    (hdisj : d.src + 4 * d.w * h ≤ d.dst ∨ d.dst + 4 * (d.w + 2) * (h + 2) ≤ d.src) (hw : 1 ≤ d.w) (hh : 1 ≤ h)
    (x y : Nat) (hx : x ≤ d.w + 1) (hy : y ≤ h + 1) :
    cell (runCalls p d (padCalls d.w h) m) d.dst d.w x y =
      m.readPix (upx d.src d.w (nearest d.w x - 1) (nearest h y - 1)) := by
  have hcopies := readPix_runCalls_nestCalls (w := d.w) (h := h) m (copiesPixel_copyIn p d)
    (fun x y x' y' hx hx' hne => px_apart _ _ _ _ _ _ (by omega) (by omega) (by omega))
    (fun x y x' y' hx hy hx' hy' => by
      have := upx_inside d.src d.w h x y hx hy
      have := px_inside d.dst d.w h (x' + 1) (y' + 1) (by omega) (by omega)
      omega)
    (nearest d.w x - 1) (nearest h y - 1)
  obtain ⟨x1, x2⟩ := nearest_interior d.w x hw
  obtain ⟨y1, y2⟩ := nearest_interior h y hh
  rw [Nat.sub_add_cancel x1, Nat.sub_add_cancel y1] at hcopies
  rw [padCalls_eq, runCalls_append, cell_runCalls_haloCalls p d h _ x y hw hh hx hy]
  exact hcopies (by omega) (by omega)

/-- STRIP's list makes each pixel the interior cell of the source (R146). -/
theorem readPix_runCalls_stripCalls (p : Config.Params) (d : DescRegs) (h : Nat) (m : Memory)
    (hdisj : d.src + 4 * (d.w + 2) * (h + 2) ≤ d.dst ∨ d.dst + 4 * d.w * h ≤ d.src)
    (x y : Nat) (hx : x < d.w) (hy : y < h) :
    (runCalls p d (stripCalls d.w h) m).readPix (upx d.dst d.w x y) = cell m d.src d.w (x + 1) (y + 1) :=
  readPix_runCalls_nestCalls m (copiesPixel_copyOut p d)
    (fun x y x' y' hx hx' hne => upx_apart _ _ _ _ _ _ hx hx' hne)
    (fun x y x' y' hx hy hx' hy' => by
      have := px_inside d.src d.w h (x + 1) (y + 1) (by omega) (by omega)
      have := upx_inside d.dst d.w h x' y' hx' hy'
      omega)
    x y hx hy

/-! ## The three commands, accepted -/

/-- Source and destination of an accepted command that allows no overlap (20_memory.md R55). -/
theorem disjoint_of_accepted {memBytes : Nat} {i : Instr} (he : errorOf memBytes i = none)
    (hsrc : i.hasSource = true) (hk : i.isKernel = false) :
    i.operands.src + i.needSrc i.width i.height ≤ i.operands.dst ∨
      i.operands.dst + i.needDst i.width i.height ≤ i.operands.src := by
  obtain ⟨-, hregions⟩ := regions_of_accepted memBytes i he
  obtain ⟨-, hdisj⟩ := hregions hsrc
  simpa [hk] using hdisj

/-- An accepted command outside BUSY ends in DONE, its calls run and counted. -/
theorem exec_eq_doneState (i : Instr) (s : State) (hw : i.wellFormed = true) (hb : s.state ≠ .busy)
    (he : errorOf s.params.memBytes i = none) :
    exec i s = .next (doneState s i (runCalls s.params (regsOf i)
      ((planOf s.params i).calls i.width i.height) s.mem)) := by
  rw [exec_of_accepted i s hw hb he, length_calls]
  rfl

section Accepted

variable {o : Operands} {s t : State}

/-- What an accepted command that answers `t` has done. -/
theorem eq_doneState_of_exec {i : Instr} (hw : i.wellFormed = true) (hb : s.state ≠ .busy)
    (he : errorOf s.params.memBytes i = none) (h : exec i s = .next t) :
    t = doneState s i (runCalls s.params (regsOf i) ((planOf s.params i).calls i.width i.height) s.mem) := by
  rw [exec_eq_doneState i s hw hb he, Host.Outcome.next.injEq] at h
  exact h.symm

/-- An accepted command ends outside BUSY with the parameters it began with. -/
theorem exec_frame_of_accepted {i : Instr} (hw : i.wellFormed = true) (hb : s.state ≠ .busy)
    (he : errorOf s.params.memBytes i = none) (h : exec i s = .next t) : t.state ≠ .busy ∧ t.params = s.params := by
  rw [eq_doneState_of_exec hw hb he h]
  simp

/-- `dimensions_of_accepted`, over the operands. -/
theorem dimensions_pos_of_accepted {i : Instr} (he : errorOf s.params.memBytes i = none) (ho : i.operands = o) :
    1 ≤ o.w.toNat ∧ 1 ≤ o.h.toNat := by
  obtain ⟨-, -, w1, h1, -⟩ := dimensions_of_accepted _ _ he
  exact ho ▸ ⟨w1, h1⟩

/-- PAD makes each cell the source pixel of the nearest interior cell, as it was at issue (R147). -/
theorem cell_of_exec_pad (hw : (Instr.pad o).wellFormed = true) (hb : s.state ≠ .busy)
    (he : errorOf s.params.memBytes (.pad o) = none) (h : exec (.pad o) s = .next t)
    (x y : Nat) (hx : x ≤ o.w.toNat + 1) (hy : y ≤ o.h.toNat + 1) :
    cell t.mem o.dst o.w.toNat x y =
      s.mem.readPix (upx o.src o.w.toNat (nearest o.w.toNat x - 1) (nearest o.h.toNat y - 1)) := by
  obtain ⟨-, -, hsrc, -, hdst, hwidth, -⟩ := regsOf_operands _ hw
  obtain ⟨-, -, w1, h1, -⟩ := dimensions_of_accepted _ _ he
  have key := cell_runCalls_padCalls s.params (regsOf (.pad o)) o.h.toNat s.mem
  rw [hsrc, hdst, hwidth] at key
  rw [eq_doneState_of_exec hw hb he h]
  exact key (disjoint_of_accepted he rfl rfl) w1 h1 x y hx hy

/-- HALO makes each cell the nearest interior cell (R147). -/
theorem cell_of_exec_halo (hw : (Instr.halo o).wellFormed = true) (hb : s.state ≠ .busy)
    (he : errorOf s.params.memBytes (.halo o) = none) (h : exec (.halo o) s = .next t)
    (x y : Nat) (hx : x ≤ o.w.toNat + 1) (hy : y ≤ o.h.toNat + 1) :
    cell t.mem o.dst o.w.toNat x y =
      cell s.mem o.dst o.w.toNat (nearest o.w.toNat x) (nearest o.h.toNat y) := by
  obtain ⟨-, -, -, -, hdst, hwidth, -⟩ := regsOf_operands _ hw
  obtain ⟨-, -, w1, h1, -⟩ := dimensions_of_accepted _ _ he
  have key := cell_runCalls_haloCalls s.params (regsOf (.halo o)) o.h.toNat s.mem x y
  rw [hdst, hwidth] at key
  rw [eq_doneState_of_exec hw hb he h]
  exact key w1 h1 hx hy

/-- STRIP makes each pixel the interior cell of its place (R146). -/
theorem readPix_of_exec_strip (hw : (Instr.strip o).wellFormed = true) (hb : s.state ≠ .busy)
    (he : errorOf s.params.memBytes (.strip o) = none) (h : exec (.strip o) s = .next t)
    (x y : Nat) (hx : x < o.w.toNat) (hy : y < o.h.toNat) :
    t.mem.readPix (upx o.dst o.w.toNat x y) = cell s.mem o.src o.w.toNat (x + 1) (y + 1) := by
  obtain ⟨-, -, hsrc, -, hdst, hwidth, -⟩ := regsOf_operands _ hw
  have key := readPix_runCalls_stripCalls s.params (regsOf (.strip o)) o.h.toNat s.mem
  rw [hsrc, hdst, hwidth] at key
  rw [eq_doneState_of_exec hw hb he h]
  exact key (disjoint_of_accepted he rfl rfl) x y hx hy

end Accepted

/-! ## Bytes of buffers with equal pixels -/

theorem Memory.read_eq_of_readPix_eq {m m' : Memory} {a a' : Nat} (h : m.readPix a = m'.readPix a') (k : Nat)
    (hk : k < 4) : m.read (a + k) = m'.read (a' + k) := by
  simpa using congrArg (fun p : Pixel => p.chan ⟨k, hk⟩) h

/-- Padded-shape buffers with equal cells have equal bytes. -/
theorem read_eq_of_cells_eq {m m' : Memory} {base base' w h : Nat}
    (hcells : ∀ x y, x ≤ w + 1 → y ≤ h + 1 → cell m base w x y = cell m' base' w x y) (k : Nat)
    (hk : k < 4 * (w + 2) * (h + 2)) : m.read (base + k) = m'.read (base' + k) := by
  obtain ⟨x, y, hx, hy, hfrom, hto⟩ := exists_cell 0 w h k (Nat.zero_le k) (by omega)
  have place (b : Nat) : px b w x y + (k - px 0 w x y) = b + k := by
    unfold px at *
    omega
  have := Memory.read_eq_of_readPix_eq (hcells x y hx hy) (k - px 0 w x y) (by omega)
  rwa [place, place] at this

/-- Unpadded buffers with equal pixels have equal bytes. -/
theorem read_eq_of_upixels_eq {m m' : Memory} {base base' w h : Nat}
    (hpixels : ∀ x y, x < w → y < h → m.readPix (upx base w x y) = m'.readPix (upx base' w x y)) (k : Nat)
    (hk : k < 4 * w * h) : m.read (base + k) = m'.read (base' + k) := by
  obtain ⟨x, y, hx, hy, hfrom, hto⟩ := exists_upixel 0 w h k (Nat.zero_le k) (by omega)
  have place (b : Nat) : upx b w x y + (k - upx 0 w x y) = b + k := by
    unfold upx at *
    omega
  have := Memory.read_eq_of_readPix_eq (hpixels x y hx hy) (k - upx 0 w x y) (by omega)
  rwa [place, place] at this

/-! ## The statements -/

/-- Settles O30: after PAD and after HALO each cell is the nearest interior cell, which PAD has copied and HALO has
left alone; the frame is that of every command. -/
theorem haloBuilderPostcondition : Obligations.HaloBuilderPostcondition := by
  constructor
  · intro o s hw hb he
    obtain ⟨w1, h1⟩ := dimensions_pos_of_accepted (o := o) he rfl
    have h := exec_eq_doneState _ s hw hb he
    have hcell := cell_of_exec_pad hw hb he h
    refine ⟨_, h, fun x y hx hy => ?_, paddedBuffer_of_cells _ _ _ _ w1 h1
      (fun x y => s.mem.readPix (upx o.src o.w.toNat (x - 1) (y - 1))) hcell,
      (commandsTouchOnlyTheirDestination _ s _ hw h).1⟩
    have := hcell (x + 1) (y + 1) (by omega) (by omega)
    rwa [nearest_of_interior _ _ (by omega) hx, nearest_of_interior _ _ (by omega) hy] at this
  · intro o s hw hb he
    obtain ⟨w1, h1⟩ := dimensions_pos_of_accepted (o := o) he rfl
    have h := exec_eq_doneState _ s hw hb he
    have hcell := cell_of_exec_halo hw hb he h
    refine ⟨_, h, fun x y ⟨x1, x2, y1, y2⟩ => ?_, paddedBuffer_of_cells _ _ _ _ w1 h1 _ hcell,
      (commandsTouchOnlyTheirDestination _ s _ hw h).1⟩
    have := hcell x y (by omega) (by omega)
    rwa [nearest_of_interior _ _ x1 x2, nearest_of_interior _ _ y1 y2] at this

/-- Settles O31: each copy arrives, since source and destination are disjoint. -/
theorem stripCopiesTheInterior : Obligations.StripCopiesTheInterior := by
  intro o s hw hb he
  have h := exec_eq_doneState _ s hw hb he
  exact ⟨_, h, readPix_of_exec_strip hw hb he h, (commandsTouchOnlyTheirDestination _ s _ hw h).1⟩

/-- Settles O32: HALO makes each cell the nearest interior cell, which it already is. -/
theorem haloIsIdempotent : Obligations.HaloIsIdempotent := by
  intro o s t hw hb he hpadded h a
  obtain ⟨w1, h1⟩ := dimensions_pos_of_accepted (o := o) he rfl
  have hcells := (paddedBuffer_iff _ _ _ _ w1 h1).1 hpadded
  have houtside := (commandsTouchOnlyTheirDestination _ s t hw h).1 a
  by_cases ha : a < o.dst ∨ o.dst + 4 * (o.w.toNat + 2) * (o.h.toNat + 2) ≤ a
  · exact houtside ha
  · obtain ⟨k, rfl⟩ : ∃ k, a = o.dst + k := ⟨a - o.dst, by omega⟩
    exact read_eq_of_cells_eq (w := o.w.toNat) (h := o.h.toNat) (fun x y hx hy =>
      (cell_of_exec_halo hw hb he h x y hx hy).trans (hcells x y hx hy).symm) k (by omega)

/-- Settles O34: pixel by pixel, c holds the interior of b, which holds a, and PAD builds d from c as it built b from
a; the later commands write neither b nor c. -/
theorem padStripRoundTrip : Obligations.PadStripRoundTrip := by
  intro s s1 s2 s3 w h la lb lc a b c d ub pb padAB stripBC padCD hwAB hwBC hwCD hb heAB heBC heCD
    _ _ _ hbc hbd hcd hAB hBC hCD
  obtain ⟨hb1, hp1⟩ := exec_frame_of_accepted hwAB hb heAB hAB
  rw [← hp1] at heBC heCD
  obtain ⟨hb2, hp2⟩ := exec_frame_of_accepted hwBC hb1 heBC hBC
  rw [← hp2] at heCD
  obtain ⟨w1, h1⟩ : 1 ≤ w.toNat ∧ 1 ≤ h.toNat := dimensions_pos_of_accepted heAB rfl
  have hcellB := cell_of_exec_pad hwAB hb heAB hAB
  have hpixelC := readPix_of_exec_strip hwBC hb1 heBC hBC
  have hcellD := cell_of_exec_pad hwCD hb2 heCD hCD
  have hkeepBC : ∀ e, e < c ∨ c + ub ≤ e → s2.mem.read e = s1.mem.read e :=
    (commandsTouchOnlyTheirDestination stripBC s1 s2 hwBC hBC).1
  have hkeepCD : ∀ e, e < d ∨ d + pb ≤ e → s3.mem.read e = s2.mem.read e :=
    (commandsTouchOnlyTheirDestination padCD s2 s3 hwCD hCD).1
  simp only at hcellB hpixelC hcellD
  refine ⟨fun k hk => ?_, fun k hk => ?_, fun k hk => ?_⟩
  · rw [hkeepCD (c + k) (by omega)]
    refine read_eq_of_upixels_eq (fun x y hx hy => ?_) k hk
    rw [hpixelC x y hx hy, hcellB _ _ (by omega) (by omega), nearest_of_interior _ (x + 1) (by omega) hx,
      nearest_of_interior _ (y + 1) (by omega) hy, Nat.add_sub_cancel, Nat.add_sub_cancel]
  · refine read_eq_of_cells_eq (fun x y hx hy => ?_) k hk
    obtain ⟨x1, x2⟩ := nearest_interior w.toNat x w1
    obtain ⟨y1, y2⟩ := nearest_interior h.toNat y h1
    rw [hcellD x y hx hy, hpixelC _ _ (by omega) (by omega), Nat.sub_add_cancel x1, Nat.sub_add_cancel y1,
      hcellB _ _ (by omega) (by omega), hcellB x y hx hy, nearest_nearest _ x w1, nearest_nearest _ y h1]
  · rw [hkeepCD (b + k) (by omega), hkeepBC (b + k) (by omega)]

/-- Settles O54: PAD's cells are source pixels, HALO's are interior cells. -/
theorem buildersIgnoreOldHalo : Obligations.BuildersIgnoreOldHalo := by
  intro o s s' t t' hb hb' hp
  have bytes (hcells : ∀ x y, x ≤ o.w.toNat + 1 → y ≤ o.h.toNat + 1 →
      cell t.mem o.dst o.w.toNat x y = cell t'.mem o.dst o.w.toNat x y) (a : Nat) (hfrom : o.dst ≤ a)
      (hto : a < o.dst + 4 * (o.w.toNat + 2) * (o.h.toNat + 2)) : t.mem.read a = t'.mem.read a := by
    obtain ⟨k, rfl⟩ := Nat.exists_eq_add_of_le hfrom
    exact read_eq_of_cells_eq hcells k (by omega)
  constructor
  · intro hw he hagree h h'
    obtain ⟨w1, h1⟩ := dimensions_pos_of_accepted (o := o) he rfl
    refine bytes fun x y hx hy => ?_
    obtain ⟨x1, x2⟩ := nearest_interior _ x w1
    obtain ⟨y1, y2⟩ := nearest_interior _ y h1
    have := upx_inside o.src o.w.toNat o.h.toNat (nearest o.w.toNat x - 1) (nearest o.h.toNat y - 1) (by omega)
      (by omega)
    rw [cell_of_exec_pad hw hb he h x y hx hy, cell_of_exec_pad hw hb' (hp ▸ he) h' x y hx hy]
    exact Memory.readPix_congr _ _ _ fun a _ _ => hagree a (by omega) (by omega)
  · intro hw he hagree h h'
    obtain ⟨w1, h1⟩ := dimensions_pos_of_accepted (o := o) he rfl
    refine bytes fun x y hx hy => ?_
    obtain ⟨x1, x2⟩ := nearest_interior _ x w1
    obtain ⟨y1, y2⟩ := nearest_interior _ y h1
    rw [cell_of_exec_halo hw hb he h x y hx hy, cell_of_exec_halo hw hb' (hp ▸ he) h' x y hx hy]
    exact hagree _ _ ⟨x1, x2, y1, y2⟩

end Sys2Proof.Machine
end

section
/-! A kernel command as a pass over its operands' buffers (40_command_lifecycle.md R117, R120 to R123;
70_reset_and_hazards.md R256): what the call of a cell reads, the outcome of a pass whose calls compute a pixel from a
block, and that a pass over disjoint buffers depends on its source alone, which is O53. -/

namespace Sys2Proof.Machine

/-! ## The six kernel commands -/

def scalarCommand : Kernel → Operands → Instr
  | .blur => .sblur
  | .gray => .sgray
  | .sharp => .ssharp

def vectorCommand : Kernel → Bool → Operands → Instr
  | .blur => .vblur
  | .gray => .vgray
  | .sharp => .vsharp

theorem kernel_cases (i : Instr) (hk : i.isKernel = true) :
    (∃ k o, i = scalarCommand k o) ∨ ∃ k tail o, i = vectorCommand k tail o := by
  cases i with
  | pad o => cases hk
  | halo o => cases hk
  | strip o => cases hk
  | sblur o => exact .inl ⟨.blur, o, rfl⟩
  | sgray o => exact .inl ⟨.gray, o, rfl⟩
  | ssharp o => exact .inl ⟨.sharp, o, rfl⟩
  | vblur t o => exact .inr ⟨.blur, t, o, rfl⟩
  | vgray t o => exact .inr ⟨.gray, t, o, rfl⟩
  | vsharp t o => exact .inr ⟨.sharp, t, o, rfl⟩

/-- The command i runs the rows of groups and tail columns of filter k, `mk x y` the call of the group that starts at
column x of row y. -/
structure KernelPass (p : Config.Params) (i : Instr) (mk : Nat → Nat → Call) (k : Kernel) : Prop where
  isKernel : i.isKernel = true
  pos : 0 < i.group p
  groupCall : (mk = .scall k ∧ i.group p = 1) ∨ (mk = .vcall k ∧ i.group p = pixelsPerCall p k)
  calls : (planOf p i).calls i.width i.height = groupCalls mk k (i.group p) i.tail i.width i.height

theorem kernelPass_scalar (p : Config.Params) (k : Kernel) (o : Operands) :
    KernelPass p (scalarCommand k o) (.scall k) k := by
  cases k <;> exact ⟨rfl, Nat.one_pos, .inl ⟨rfl, rfl⟩, scalarCalls_eq _ _ _⟩

theorem kernelPass_vector (p : Config.Params) (k : Kernel) (tail : Bool) (o : Operands) :
    KernelPass p (vectorCommand k tail o) (.vcall k) k := by
  cases k with
  | blur => exact ⟨rfl, Nat.two_pos, .inr ⟨rfl, rfl⟩, rfl⟩
  | gray => exact ⟨rfl, Nat.succ_pos 3, .inr ⟨rfl, rfl⟩, rfl⟩
  | sharp => exact ⟨rfl, (Config.SharpGroup.pixels_le p.pSharp).1, .inr ⟨rfl, rfl⟩, rfl⟩

theorem exists_kernelPass (p : Config.Params) (i : Instr) (hk : i.isKernel = true) : ∃ mk k, KernelPass p i mk k := by
  rcases kernel_cases i hk with ⟨k, o, rfl⟩ | ⟨k, tail, o, rfl⟩
  · exact ⟨_, k, kernelPass_scalar p k o⟩
  · exact ⟨_, k, kernelPass_vector p k tail o⟩

/-- Source and destination of a kernel command are padded-shape buffers (20_memory.md R54). -/
theorem kernel_needs (i : Instr) (hk : i.isKernel = true) (w h : Nat) :
    i.hasSource = true ∧ i.needSrc w h = 4 * (w + 2) * (h + 2) ∧ i.needDst w h = 4 * (w + 2) * (h + 2) := by
  rcases kernel_cases i hk with ⟨k, o, rfl⟩ | ⟨k, tail, o, rfl⟩
  · cases k <;> exact ⟨rfl, rfl, rfl⟩
  · cases k <;> exact ⟨rfl, rfl, rfl⟩

/-- An accepted kernel command works between disjoint buffers or in place (20_memory.md R55). -/
theorem inPlace_or_disjoint_of_accepted {memBytes : Nat} {i : Instr} (hk : i.isKernel = true)
    (he : errorOf memBytes i = none) :
    i.operands.src = i.operands.dst ∨
      i.operands.src + 4 * (i.width + 2) * (i.height + 2) ≤ i.operands.dst ∨
      i.operands.dst + 4 * (i.width + 2) * (i.height + 2) ≤ i.operands.src := by
  obtain ⟨hsource, hsrc, hdst⟩ := kernel_needs i hk i.width i.height
  obtain ⟨-, hregions⟩ := regions_of_accepted memBytes i he
  obtain ⟨-, hdisj⟩ := hregions hsource
  rw [hsrc, hdst] at hdisj
  tauto

/-! ## The call that writes a cell -/

/-- The call of the pass that writes the cells of column x of row y. -/
def callAt (mk : Nat → Nat → Call) (k : Kernel) (pp w x y : Nat) : Call :=
  if grouped pp w x then mk (callStart pp w x) y else .scall k (callStart pp w x) y

theorem callStart_of_not_grouped {pp w x : Nat} (hg : ¬ grouped pp w x = true) : callStart pp w x = x := if_neg hg

theorem callStart_le (pp w x : Nat) (hpp : 0 < pp) (hx : 1 ≤ x) : callStart pp w x ≤ x := by
  by_cases hg : grouped pp w x = true
  · exact (callStart_span pp w x hpp hx hg).2.1
  · exact (callStart_of_not_grouped hg).le

/-- A byte of a written run does not depend on the memory below it. -/
theorem Memory.read_writeBytes_inside_congr (m m' : Memory) (a : Nat) (bs : List Byte) (x : Nat)
    (h : a ≤ x ∧ x < a + bs.length) : (m.writeBytes a bs).read x = (m'.writeBytes a bs).read x := by
  rw [Memory.read_writeBytes, Memory.read_writeBytes, if_pos h, if_pos h]

/-- What a kernel call writes depends on the source cells around it alone. -/
theorem read_kernelCall_congr (p : Config.Params) (d : DescRegs) (c : Call) (m m' : Memory) (a : Nat)
    (hc : ∃ k x y, c = .scall k x y ∨ c = .vcall k x y) (ha : c.writes p d a)
    (hreads : ∀ b, c.reads p d b → m.read b = m'.read b) : (c.run p d m).read a = (c.run p d m').read a := by
  obtain ⟨k, x, y, rfl | rfl⟩ := hc
  · simp only [Call.run, callScalar]
    rw [sourceBlock_congr d x y m m' hreads]
    exact Memory.read_writeBytes_inside_congr _ _ _ _ _ ha
  · simp only [Call.run, callVector]
    rw [vectorBytes_congr hreads p k rfl]
    exact Memory.read_writeBytes_inside_congr _ _ _ _ _ (by rwa [length_vectorBytes])

/-- The group call gives each of its `pp` cells the pixel f of the block around the source cell. -/
def GroupComputes (p : Config.Params) (d : DescRegs) (mk : Nat → Nat → Call) (pp : Nat) (f : Block → Pixel) : Prop :=
  ∀ x y j m, 1 ≤ x → 1 ≤ y → j < pp →
    cell ((mk x y).run p d m) d.dst d.w (x + j) y = f (sourceBlock d (x + j) y m)

theorem groupComputes_scall (p : Config.Params) (d : DescRegs) (k : Kernel) :
    GroupComputes p d (.scall k) 1 (scalarPixel k) := by
  intro x y j m _ _ hj
  obtain rfl : j = 0 := Nat.lt_one_iff.1 hj
  exact Memory.readPix_writePix_same _ _ _

/-- Between disjoint buffers every call sees the source as it was. -/
theorem seenPixel_of_disjoint {i : Instr} {pp : Nat} {tail : Bool} {before after : Memory} {x0 y0 x y : Nat}
    (h : i.operands.src ≠ i.operands.dst) :
    seenPixel i.operands pp tail before after x0 y0 x y = cell before i.operands.src i.width x y :=
  if_neg fun hseen => h hseen.1

section Pass

variable {p : Config.Params} {i : Instr} {mk : Nat → Nat → Call} {k : Kernel} (hp : KernelPass p i mk k)
include hp

theorem KernelPass.writesGroup (d : DescRegs) : WritesGroup p d mk (i.group p) := by
  rcases hp.groupCall with ⟨rfl, hgroup⟩ | ⟨rfl, hgroup⟩
  · rw [hgroup]; exact writesGroup_scall p d k
  · rw [hgroup]; exact writesGroup_vcall p d k

/-- The call that writes an interior cell: a kernel call that writes the cell and reads only the source buffer. -/
theorem KernelPass.callAt_spec (d : DescRegs) (h x y : Nat) (hi : interior d.w h x y) :
    (∃ k' x' y', callAt mk k (i.group p) d.w x y = .scall k' x' y' ∨
      callAt mk k (i.group p) d.w x y = .vcall k' x' y') ∧
    (∀ a, inCell d.dst d.w x y a → (callAt mk k (i.group p) d.w x y).writes p d a) ∧
    ∀ a, (callAt mk k (i.group p) d.w x y).reads p d a → d.src ≤ a ∧ a < d.src + 4 * (d.w + 2) * (h + 2) := by
  obtain ⟨x1, x2, y1, y2⟩ := hi
  unfold callAt
  by_cases hg : grouped (i.group p) d.w x = true
  · obtain ⟨s1, s2, s3, s4⟩ := callStart_span _ d.w x hp.pos x1 hg
    rw [if_pos hg]
    refine ⟨?_, fun a ha => ?_, fun a ha => aroundSource_inside d h (i.group p) _ y a s1 s4 y2 ?_⟩
    · rcases hp.groupCall with ⟨rfl, -⟩ | ⟨rfl, -⟩
      · exact ⟨_, _, _, .inl rfl⟩
      · exact ⟨_, _, _, .inr rfl⟩
    · have := px_add d.dst d.w (callStart (i.group p) d.w x) y (x - callStart (i.group p) d.w x)
      rw [Nat.add_sub_cancel' s2] at this
      rw [hp.writesGroup d]
      omega
    · rcases hp.groupCall with ⟨rfl, hgroup⟩ | ⟨rfl, hgroup⟩
      · rw [hgroup] at ha ⊢; exact ha
      · rw [hgroup] at ha ⊢; exact ha
  · rw [if_neg hg, callStart_of_not_grouped hg]
    exact ⟨⟨_, _, _, .inl rfl⟩, fun a ha => ha, fun a ha => aroundSource_inside d h 1 x y a x1 (by omega) y2 ha⟩

/-- WHAT A KERNEL COMMAND DOES to a cell that it writes: the cell is what its call makes of a memory mc whose source
cells are those that the call sees (70_reset_and_hazards.md R256). -/
theorem KernelPass.exists_memory_at_call (hw : i.wellFormed = true) (he : errorOf p.memBytes i = none) (m : Memory)
    (x y : Nat) (hi : interior i.width i.height x y) (hc : covered (i.group p) i.tail i.width x = true) :
    let after := runCalls p (regsOf i) ((planOf p i).calls i.width i.height) m
    ∃ mc : Memory,
      cell after i.operands.dst i.width x y =
        cell ((callAt mk k (i.group p) i.width x y).run p (regsOf i) mc) i.operands.dst i.width x y ∧
      ∀ x' y', x' ≤ i.width + 1 → y' ≤ i.height + 1 → cell mc i.operands.src i.width x' y' =
        seenPixel i.operands (i.group p) i.tail m after (callStart (i.group p) i.width x) y x' y' := by
  intro after
  obtain ⟨-, -, -, -, hdst, hwidth, -⟩ := regsOf_operands i hw
  have key := pass_at p (regsOf i) mk k (i.group p) i.tail i.height m hp.pos (hp.writesGroup _) x y
  rw [hdst, hwidth, ← hp.calls] at key
  obtain ⟨mc, hcell, hcells, houtside⟩ := key hi hc
  refine ⟨mc, hcell, fun x' y' hx' hy' => ?_⟩
  rcases inPlace_or_disjoint_of_accepted hp.isKernel he with hsame | hdisj
  · rw [hsame, hcells x' y' hx' hy']
    simp only [seenPixel, hsame, true_and]
    rfl
  · have := px_inside i.operands.src i.width i.height x' y' hx' hy'
    have hne : i.operands.src ≠ i.operands.dst := by
      intro hsame
      have : 0 < 4 * (i.width + 2) * (i.height + 2) := by positivity
      omega
    rw [seenPixel_of_disjoint hne]
    exact Memory.readPix_congr _ _ _ fun a _ _ => houtside a (by omega)

/-- The outcome of a pass whose group calls give each of their cells the pixel f of its block. -/
theorem KernelPass.outcome (hw : i.wellFormed = true) (he : errorOf p.memBytes i = none) (m : Memory)
    (f : Block → Pixel) (hf : GroupComputes p (regsOf i) mk (i.group p) f) :
    PassOutcome i.operands (i.group p) i.tail (fun g b q => q = if g then f b else scalarPixel k b) m
      (runCalls p (regsOf i) ((planOf p i).calls i.width i.height) m) := by
  obtain ⟨-, -, hsrc, -, hdst, hwidth, -⟩ := regsOf_operands i hw
  rw [GroupComputes, hdst, hwidth] at hf
  constructor
  · intro x y (hi : interior i.width i.height x y) hc
    obtain ⟨mc, hcell, hseen⟩ := hp.exists_memory_at_call hw he m x y hi hc
    have hblock : sourceBlock (regsOf i) x y mc = seenBlock i.operands (i.group p) i.tail m
        (runCalls p (regsOf i) ((planOf p i).calls i.width i.height) m) x y := by
      unfold sourceBlock seenBlock
      rw [hsrc, hwidth]
      exact Block.ofFn_congr _ _ fun dx dy _ _ _ _ => hseen _ _ (by omega) (by omega)
    change cell _ i.operands.dst i.width x y = if grouped (i.group p) i.width x then f _ else scalarPixel k _
    rw [hcell, ← hblock, callAt]
    by_cases hg : grouped (i.group p) i.width x = true
    · obtain ⟨s1, s2, s3, -⟩ := callStart_span _ i.width x hp.pos hi.1 hg
      have := hf _ y (x - callStart (i.group p) i.width x) mc s1 hi.2.2.1 (by omega)
      rw [Nat.add_sub_cancel' s2] at this
      rw [if_pos hg, if_pos hg, this]
    · rw [if_neg hg, if_neg hg, callStart_of_not_grouped hg, Call.run, callScalar, hdst, hwidth]
      exact Memory.readPix_writePix_same _ _ _
  · intro a ha
    have houtside := kernelCalls_outside p (regsOf i) i i.height m hp.isKernel a
    rw [hdst, hwidth] at houtside
    exact houtside ha

end Pass

/-- The outcome of an accepted kernel command whose group calls give each of their cells the pixel f of its block. -/
theorem KernelPass.outcome_of_exec {s t : State} {i : Instr} {mk : Nat → Nat → Call} {k : Kernel} {f : Block → Pixel}
    (hp : KernelPass s.params i mk k) (hf : GroupComputes s.params (regsOf i) mk (i.group s.params) f)
    (hw : i.wellFormed = true) (hb : s.state ≠ .busy) (he : errorOf s.params.memBytes i = none)
    (h : exec i s = .next t) :
    PassOutcome i.operands (i.group s.params) i.tail (fun g b q => q = if g then f b else scalarPixel k b)
      s.mem t.mem := by
  rw [eq_doneState_of_exec hw hb he h]
  exact hp.outcome hw he s.mem f hf

/-- Settles O53: the call of a cell finds the same source in both runs, since disjoint buffers keep it as it was. -/
theorem kernelPassDependsOnSourceOnly : Obligations.KernelPassDependsOnSourceOnly := by
  intro i s s' t t' hw hk hne hb hb' hparams he hagree h h' x y hi hwritten
  obtain ⟨mk, k, hp⟩ := exists_kernelPass s.params i hk
  obtain ⟨-, -, hsrc, -, hdst, hwidth, -⟩ := regsOf_operands i hw
  have hc : covered (i.group s.params) i.tail i.width x = true := by simpa [covered, grouped] using hwritten
  rw [eq_doneState_of_exec hw hb he h, eq_doneState_of_exec hw hb' (hparams ▸ he) h', doneState_mem, doneState_mem,
    ← hparams]
  obtain ⟨mc, hcell, hseen⟩ := hp.exists_memory_at_call hw he s.mem x y hi hc
  obtain ⟨mc', hcell', hseen'⟩ := hp.exists_memory_at_call hw he s'.mem x y hi hc
  obtain ⟨hcall, hwrites, hreads⟩ := hp.callAt_spec (regsOf i) i.height x y (by rwa [hwidth])
  rw [hdst, hwidth] at hwrites
  rw [hsrc, hwidth] at hreads
  rw [hwidth] at hcall
  have hsource (x' y' : Nat) (hx' : x' ≤ i.width + 1) (hy' : y' ≤ i.height + 1) :
      cell mc i.operands.src i.width x' y' = cell mc' i.operands.src i.width x' y' := by
    have := px_inside i.operands.src i.width i.height x' y' hx' hy'
    have hneed := (kernel_needs i hk i.width i.height).2.1
    rw [hseen x' y' hx' hy', hseen' x' y' hx' hy', seenPixel_of_disjoint hne,
      seenPixel_of_disjoint hne]
    exact Memory.readPix_congr _ _ _ fun a _ _ => hagree a (by omega) (by omega)
  rw [hcell, hcell']
  refine Memory.readPix_congr _ _ _ fun a hfrom hto =>
    read_kernelCall_congr _ _ _ _ _ _ hcall (hwrites a ⟨hfrom, hto⟩) fun b hb => ?_
  obtain ⟨hb1, hb2⟩ := hreads b hb
  obtain ⟨n, rfl⟩ := Nat.exists_eq_add_of_le hb1
  exact read_eq_of_cells_eq hsource n (by omega)

end Sys2Proof.Machine
end

section
/-! The scalar kernel commands (42_scalar_kernels.md R163 to R165, R168): each pass is its pixel function of the block
that the call sees, whose centre is still the source's, and with that O35, O36, O37 and O39. -/

namespace Sys2Proof.Machine

/-! ## Outcomes of a pass -/

theorem PassOutcome.imp {o : Operands} {pp : Nat} {tail : Bool} {rel rel' : Bool → Block → Pixel → Prop}
    {before after : Memory} (h : PassOutcome o pp tail rel before after) (himp : ∀ g b q, rel g b q → rel' g b q) :
    PassOutcome o pp tail rel' before after :=
  ⟨fun x y hi hc => himp _ _ _ (h.1 x y hi hc), h.2⟩

/-- A pass of one pixel per call covers every column. -/
theorem covered_one (tail : Bool) {w x : Nat} (hx : x ≤ w) : covered 1 tail w x = true := by
  simp [covered, grouped, hx]

/-- What a call sees of a cell: the source as it was, or what an earlier call of the pass has written (R256). -/
theorem seenPixel_cases (o : Operands) (pp : Nat) (tail : Bool) (before after : Memory) (x0 y0 x y : Nat) :
    seenPixel o pp tail before after x0 y0 x y = cell before o.src o.w.toNat x y ∨
    (interior o.w.toNat o.h.toNat x y ∧ covered pp tail o.w.toNat x = true ∧ (y < y0 ∨ (y = y0 ∧ x < x0)) ∧
      seenPixel o pp tail before after x0 y0 x y = cell after o.dst o.w.toNat x y) := by
  by_cases hseen : o.src = o.dst ∧ interior o.w.toNat o.h.toNat x y ∧ covered pp tail o.w.toNat x = true ∧
      (y < y0 ∨ (y = y0 ∧ x < x0))
  · obtain ⟨-, hi, hc, hbefore⟩ := id hseen
    exact .inr ⟨hi, hc, hbefore, if_pos hseen⟩
  · exact .inl (if_neg hseen)

/-- The centre of the block that a call sees is the source cell as it was: the pass writes it later (R256). -/
theorem c_seenBlock (o : Operands) (pp : Nat) (tail : Bool) (before after : Memory) (x y : Nat) (hpp : 0 < pp)
    (hx : 1 ≤ x) : (seenBlock o pp tail before after x y).c = cell before o.src o.w.toNat x y := by
  have hcentre : (seenBlock o pp tail before after x y).c =
      seenPixel o pp tail before after (callStart pp o.w.toNat x) y x y := by simp [seenBlock, Block.ofFn]
  have := callStart_le pp o.w.toNat x hpp hx
  rcases seenPixel_cases o pp tail before after (callStart pp o.w.toNat x) y x y with hold | ⟨-, -, hbefore, -⟩
  · exact hcentre.trans hold
  · omega

/-! ## The pixel functions -/

theorem Block.sum_le (b : Block) (c : Fin 4) : b.sum c ≤ 9 * 255 := by
  unfold Block.sum
  omega

theorem toNat_chan_blurS (b : Block) (c : Fin 4) : ((blurS b).chan c).toNat = b.sum c / 9 := by
  have := b.sum_le c
  rw [blurS, Pixel.chan_ofFn, BitVec.toNat_ofNat, Config.blurDiv]
  omega

/-- The luma fits a byte, since the weights add up to 128 (R164). -/
theorem toNat_b_grayS (p : Pixel) :
    (grayS p).b.toNat = (9 * p.b.toNat + 92 * p.g.toNat + 27 * p.r.toNat) / 128 := by
  simp only [grayS, lumaSum, Config.lumaB, Config.lumaG, Config.lumaR, Config.lumaShift, BitVec.toNat_ofNat]
  omega

/-- The luma of a gray pixel is its gray value. -/
theorem grayS_grayS (p : Pixel) : grayS (grayS p) = grayS p := by
  have hluma : (grayS (grayS p)).b = (grayS p).b := by
    apply BitVec.eq_of_toNat_eq
    rw [toNat_b_grayS (grayS p), show (grayS p).g = (grayS p).b from rfl, show (grayS p).r = (grayS p).b from rfl]
    omega
  exact congrArg (fun v => Pixel.mk v v v p.a) hluma

theorem toNat_sharpChan (b : Block) (c : Fin 4) : ((sharpChan b c).toNat : Int) = max 0 (min 255 (b.cross c)) := by
  have := clamp_range (b.cross c) 0 255 (by omega)
  rw [← clamp_eq _ _ _ (by omega), sharpChan, BitVec.toNat_ofInt]
  omega

theorem chan_sharpS (b : Block) (c : Fin 4) (hc : c ≠ 3) : (sharpS b).chan c = sharpChan b c := by
  fin_cases c
  · rfl
  · rfl
  · rfl
  · exact absurd rfl hc

/-! ## The commands, accepted -/

section Accepted

variable {o : Operands} {s t : State} (hb : s.state ≠ .busy)
include hb

/-- A scalar command writes its pixel function of the block that each call sees (R160, R161). -/
theorem passOutcome_of_exec_scalar (k : Kernel) (hw : (scalarCommand k o).wellFormed = true)
    (he : errorOf s.params.memBytes (scalarCommand k o) = none) (h : exec (scalarCommand k o) s = .next t) :
    PassOutcome o 1 false (fun _ b q => q = scalarPixel k b) s.mem t.mem := by
  have hgroup : (scalarCommand k o).group s.params = 1 := by cases k <;> rfl
  have hpass := (kernelPass_scalar s.params k o).outcome_of_exec (hgroup ▸ groupComputes_scall _ _ k) hw hb he h
  cases k <;> exact hpass.imp fun _ _ _ hq => hq.trans (ite_self _)

/-- SGRAY makes each interior cell the gray of the source cell as it was, in place or not (R164, R168). -/
theorem cell_of_exec_sgray (hw : (Instr.sgray o).wellFormed = true) (he : errorOf s.params.memBytes (.sgray o) = none)
    (h : exec (.sgray o) s = .next t) (x y : Nat) (hi : interior o.w.toNat o.h.toNat x y) :
    cell t.mem o.dst o.w.toNat x y = grayS (cell s.mem o.src o.w.toNat x y) := by
  have hpass := (passOutcome_of_exec_scalar hb .gray hw he h).1 x y hi (covered_one _ hi.2.1)
  exact hpass.trans (congrArg grayS (c_seenBlock _ _ _ _ _ _ _ Nat.one_pos hi.1))

end Accepted

/-! ## The statements -/

/-- Settles O35: the sum by 9 fits a byte. -/
theorem sblurAveragesTheNeighbourhood : Obligations.SblurAveragesTheNeighbourhood := by
  intro o s hw hb he
  have h := exec_eq_doneState _ s hw hb he
  exact ⟨_, h, (passOutcome_of_exec_scalar hb .blur hw he h).imp fun _ b q hq c => hq ▸ toNat_chan_blurS b c⟩

/-- Settles O36: the luma fits a byte, and the centre's alpha stays. -/
theorem sgrayWritesTheLuma : Obligations.SgrayWritesTheLuma := by
  intro o s hw hb he
  have h := exec_eq_doneState _ s hw hb he
  exact ⟨_, h, (passOutcome_of_exec_scalar hb .gray hw he h).imp fun _ b q hq =>
    hq ▸ ⟨toNat_b_grayS b.c, rfl, rfl, rfl⟩⟩

/-- Settles O37: the clamped cross is a byte. -/
theorem ssharpClampsTheCross : Obligations.SsharpClampsTheCross := by
  intro o s hw hb he
  have h := exec_eq_doneState _ s hw hb he
  refine ⟨_, h, (passOutcome_of_exec_scalar hb .sharp hw he h).imp ?_⟩
  rintro _ b _ rfl
  refine ⟨rfl, fun c hc => ?_⟩
  rw [scalarPixel, chan_sharpS b c hc, toNat_sharpChan]
  rfl

/-- Settles O39: the second pass takes the gray of gray cells and writes nothing else; in place and double-buffered,
a cell becomes the gray of the same source cell. -/
theorem sgrayIsIdempotentAndImmuneInPlace : Obligations.SgrayIsIdempotentAndImmuneInPlace := by
  constructor
  · intro o len s t u hb again hw he hw' he' h h' a
    obtain ⟨hb', hparams⟩ := exec_frame_of_accepted hw hb he h
    rw [← hparams] at he'
    by_cases ha : ∃ x y, interior o.w.toNat o.h.toNat x y ∧ inCell o.dst o.w.toNat x y a
    · obtain ⟨x, y, hi, hfrom, hto⟩ := ha
      have hcell : cell u.mem o.dst o.w.toNat x y = grayS (cell t.mem o.dst o.w.toNat x y) :=
        cell_of_exec_sgray hb' hw' he' h' x y hi
      rw [cell_of_exec_sgray hb hw he h x y hi, grayS_grayS, ← cell_of_exec_sgray hb hw he h x y hi] at hcell
      obtain ⟨n, rfl⟩ := Nat.exists_eq_add_of_le hfrom
      exact Memory.read_eq_of_readPix_eq hcell n (by omega)
    · exact (passOutcome_of_exec_scalar hb' .gray hw' he' h').2 a fun x y hi _ hcell => ha ⟨x, y, hi, hcell⟩
  · intro o s t u hb inPlace hw he hw' he' h h' x y hi
    exact (cell_of_exec_sgray hb hw' he' h' x y hi).trans (cell_of_exec_sgray hb hw he h x y hi).symm

end Sys2Proof.Machine
end

section
/-! VBLUR's lane program (43_vector_kernels.md R180, R182, R190, R197): each channel of a cell of a group is the sum of
its block times the reciprocal, by 65536. Vectors are written as functions of the lane's number. -/

namespace Sys2Proof.Machine

/-! ## The closed form (R191) -/

/-- `blur_v`. -/
def blurV (r : Config.Reciprocal) (b : Block) : Pixel := Pixel.ofFn fun c => BitVec.ofNat 8 (b.sum c * r.value / 65536)

/-- A nine-cell sum times the reciprocal, by 65536, fits a byte. -/
theorem mul_recip_lt {n : Nat} (hn : n ≤ 9 * 255) (r : Config.Reciprocal) : n * r.value / 65536 < 256 := by
  have hr : r.value ≤ 7282 := by cases r <;> decide
  have : n * r.value ≤ 9 * 255 * 7282 := Nat.mul_le_mul hn hr
  omega

theorem toNat_chan_blurV (r : Config.Reciprocal) (b : Block) (c : Fin 4) :
    ((blurV r b).chan c).toNat = b.sum c * r.value / 65536 := by
  rw [blurV, Pixel.chan_ofFn, BitVec.toNat_ofNat]
  exact Nat.mod_eq_of_lt (mul_recip_lt (b.sum_le c) r)

/-! ## Lanes -/

/-- Lanes add up modulo 2^16. -/
theorem add16_map_range (n : Nat) (f g : Nat → Nat) :
    add16 ((List.range n).map fun j => BitVec.ofNat 16 (f j)) ((List.range n).map fun j => BitVec.ofNat 16 (g j)) =
      (List.range n).map fun j => BitVec.ofNat 16 (f j + g j) := by
  simp [add16, List.zipWith_map, List.zipWith_self, BitVec.ofNat_add]

/-- A pixel of a row of VBLUR and its two neighbours to the east, one channel: the bytes 0, 4 and 8 places on. -/
def rowSum (f : Nat → Byte) (j : Nat) : Nat := (f j).toNat + (f (j + 4)).toNat + (f (j + 8)).toNat

theorem rowSum_le (f : Nat → Byte) (j : Nat) : rowSum f j ≤ 3 * 255 := by
  unfold rowSum
  omega

theorem blurRow_map_range (v : Config.VectorWidth) (f : Nat → Byte) :
    blurRow v ((List.range 16).map f) = (List.range 8).map fun j => BitVec.ofNat 16 (rowSum f j) := by
  have view (n : Nat) (hn : ((List.range 16).drop n).take 8 = (List.range 8).map (· + n)) :
      widen8 ((((List.range 16).map f).drop n).take 8) = (List.range 8).map fun j => BitVec.ofNat 16 (f (j + n)).toNat := by
    rw [← List.map_drop, ← List.map_take, hn, widen8, List.map_map, List.map_map]
    exact List.map_congr_left fun j _ => (BitVec.ofNat_toNat 16 (f (j + n))).symm
  simp only [blurRow, Config.channels, Config.VectorWidth.lanes16_eq]
  rw [view (4 * 0) rfl, view (4 * 1) rfl, view (4 * 2) rfl, add16_map_range, add16_map_range]
  simp only [rowSum, Nat.mul_zero, Nat.mul_one, Nat.add_zero, Nat.reduceMul, Nat.add_assoc]

/-- A 16-bit lane that holds a byte's value is that byte after `packus16`. -/
theorem packus_lane_of_lt {n : Nat} (hn : n < 256) :
    BitVec.ofInt 8 (clamp (BitVec.ofNat 16 n).toInt 0 255) = BitVec.ofNat 8 n := by
  apply BitVec.eq_of_toNat_eq
  have := packus_lane n (by omega) (by omega)
  rw [BitVec.ofInt_natCast] at this
  rw [BitVec.toNat_ofNat]
  omega

theorem blurLanes_map_range (v : Config.VectorWidth) (r : Config.Reciprocal) (f0 f1 f2 : Nat → Byte) :
    blurLanes v r ((List.range 16).map f0) ((List.range 16).map f1) ((List.range 16).map f2) =
      (List.range 8).map fun j =>
        BitVec.ofNat 8 ((rowSum f0 j + rowSum f1 j + rowSum f2 j) * r.value / 65536) := by
  have hzero : List.replicate v.lanes16 (0 : BitVec 16) = (List.range 8).map fun _ => BitVec.ofNat 16 0 := by
    cases v; rfl
  have hrecip : kRecip9 v r = (List.range 8).map fun _ => BitVec.ofNat 16 r.value := by cases v; rfl
  have hr : r.value < 2 ^ 16 := by cases r <;> decide
  simp only [blurLanes, blurRow_map_range, hzero, hrecip, add16_map_range, Nat.zero_add, mulhiU16, List.zipWith_map,
    List.zipWith_self]
  rw [packus16, List.map_append, Config.channels, Config.pBlur, List.take_left' (by simp), List.map_map]
  refine List.map_congr_left fun j _ => ?_
  have h0 := rowSum_le f0 j
  have h1 := rowSum_le f1 j
  have h2 := rowSum_le f2 j
  have hsum : rowSum f0 j + rowSum f1 j + rowSum f2 j ≤ 9 * 255 := by omega
  rw [Function.comp_apply, BitVec.toNat_ofNat, BitVec.toNat_ofNat, Nat.mod_eq_of_lt (by omega), Nat.mod_eq_of_lt hr]
  exact packus_lane_of_lt (mul_recip_lt hsum r)

/-! ## Cells -/

/-- The cells that a vector call writes are the bytes of its lane program, four by four. -/
theorem chan_cell_run_vcall (p : Config.Params) (d : DescRegs) (k : Kernel) (x y j : Nat) (m : Memory) (c : Fin 4)
    (hj : j < pixelsPerCall p k) :
    (cell ((Call.vcall k x y).run p d m) d.dst d.w (x + j) y).chan c =
      (vectorBytes p d k x y m)[4 * j + c.val]'(by rw [length_vectorBytes]; omega) := by
  rw [cell, Memory.chan_readPix, px_add, Nat.add_assoc]
  exact Memory.read_writeBytes_inside _ _ _ _ _

/-- The nine-cell sum of a cell, row by row from the bytes of the column to its west on (R190). -/
theorem sum_sourceBlock (d : DescRegs) (x y j : Nat) (m : Memory) (c : Fin 4) (hx : 1 ≤ x) (hy : 1 ≤ y) :
    let row := fun y' => rowSum (fun n => m.read (px d.src d.w (x - 1) y' + n)) (4 * j + c.val)
    (sourceBlock d (x + j) y m).sum c = row (y - 1) + row y + row (y + 1) := by
  intro row
  have hrow (y' : Nat) : row y' = (m.read (px d.src d.w (x - 1 + j) y' + c)).toNat +
      (m.read (px d.src d.w (x - 1 + (j + 1)) y' + c)).toNat +
      (m.read (px d.src d.w (x - 1 + (j + 2)) y' + c)).toNat := by
    simp only [row, rowSum, px_add, Nat.mul_add, Nat.add_assoc, Nat.add_comm c.val]
  have west : (((x + j : Nat) : Int) + -1).toNat = x - 1 + j := by omega
  have here : (((x + j : Nat) : Int) + 0).toNat = x - 1 + (j + 1) := by omega
  have east : (((x + j : Nat) : Int) + 1).toNat = x - 1 + (j + 2) := by omega
  have north : ((y : Int) + -1).toNat = y - 1 := by omega
  have level : ((y : Int) + 0).toNat = y := by omega
  have south : ((y : Int) + 1).toNat = y + 1 := by omega
  simp only [Block.sum, sourceBlock, Block.ofFn, Memory.chan_readPix, west, here, east, north, level, south, hrow]
  omega

theorem groupComputes_vblur (p : Config.Params) (d : DescRegs) :
    GroupComputes p d (.vcall .blur) 2 (blurV p.recip9) := by
  intro x y j m hx hy hj
  refine Pixel.ext_chan _ _ fun c => ?_
  rw [chan_cell_run_vcall p d .blur x y j m c hj, blurV, Pixel.chan_ofFn, sum_sourceBlock d x y j m c hx hy]
  simp only [vectorBytes, Memory.readBytes, Config.VectorWidth.lanes8_eq, blurLanes_map_range, List.getElem_map,
    List.getElem_range]

end Sys2Proof.Machine
end

section
/-! Uniform images (42_scalar_kernels.md R167; 43_vector_kernels.md R191), disjoint or in place: what holds of every
source pixel, and is kept by the filter, holds of every pixel that a call sees, by induction along the pass, and with
that O38. -/

namespace Sys2Proof.Machine

/-! ## What every pixel of a block has -/

def Block.All (q : Pixel → Prop) (b : Block) : Prop :=
  q b.nw ∧ q b.n ∧ q b.ne ∧ q b.w ∧ q b.c ∧ q b.e ∧ q b.sw ∧ q b.s ∧ q b.se

theorem Block.all_ofFn (q : Pixel → Prop) (f : Int → Int → Pixel)
    (h : ∀ dx dy, -1 ≤ dx → dx ≤ 1 → -1 ≤ dy → dy ≤ 1 → q (f dx dy)) : (Block.ofFn f).All q := by
  refine ⟨?_, ?_, ?_, ?_, ?_, ?_, ?_, ?_, ?_⟩ <;> exact h _ _ (by decide) (by decide) (by decide) (by decide)

theorem Block.All.imp {q q' : Pixel → Prop} {b : Block} (h : b.All q) (himp : ∀ r, q r → q' r) : b.All q' := by
  obtain ⟨hnw, hn, hne, hw, hc, he, hsw, hs, hse⟩ := h
  exact ⟨himp _ hnw, himp _ hn, himp _ hne, himp _ hw, himp _ hc, himp _ he, himp _ hsw, himp _ hs, himp _ hse⟩

/-- The sum of a block whose centre is known and whose other pixels are bounded. -/
theorem Block.sum_bounds (b : Block) (c : Fin 4) (lo hi : Nat)
    (h : b.All fun q => lo ≤ (q.chan c).toNat ∧ (q.chan c).toNat ≤ hi) :
    8 * lo + (b.c.chan c).toNat ≤ b.sum c ∧ b.sum c ≤ 8 * hi + (b.c.chan c).toNat := by
  obtain ⟨hnw, hn, hne, hw, -, he, hsw, hs, hse⟩ := h
  unfold Block.sum
  omega

theorem sharpChan_of_all (b : Block) (c : Fin 4) (v : Byte) (h : b.All fun q => q.chan c = v) :
    sharpChan b c = v := by
  obtain ⟨-, hn, -, hw, hc, he, -, hs, -⟩ := h
  have := toNat_sharpChan b c
  rw [Block.cross, hn, hw, hc, he, hs, Config.sharpCenter] at this
  apply BitVec.eq_of_toNat_eq
  omega

/-- The clamped cross of a block of one colour is that colour (R167). -/
theorem sharpS_of_all (b : Block) (p : Pixel) (h : b.All fun q => q.b = p.b ∧ q.g = p.g ∧ q.r = p.r) :
    sharpS b = ⟨p.b, p.g, p.r, 255⟩ := by
  rw [sharpS, sharpChan_of_all b 0 p.b (h.imp fun _ hq => hq.1),
    sharpChan_of_all b 1 p.g (h.imp fun _ hq => hq.2.1), sharpChan_of_all b 2 p.r (h.imp fun _ hq => hq.2.2)]

/-! ## Along the pass -/

section Along

variable {o : Operands} {pp : Nat} {tail : Bool} {rel : Bool → Block → Pixel → Prop} {before after : Memory}
  (h : PassOutcome o pp tail rel before after) (hpp : 0 < pp)
include h hpp

/-- Every pixel that a call sees has what the source pixels have (`P`) or what the pixels written earlier have (`Q`). -/
theorem PassOutcome.exists_block (P Q : Pixel → Prop)
    (hsrc : ∀ x y, x ≤ o.w.toNat + 1 → y ≤ o.h.toNat + 1 → P (cell before o.src o.w.toNat x y))
    (hPQ : ∀ q, P q → Q q) (hkeep : ∀ g b q, b.All Q → P b.c → rel g b q → Q q)
    (x y : Nat) (hi : interior o.w.toNat o.h.toNat x y) (hc : covered pp tail o.w.toNat x = true) :
    ∃ b : Block, b.All Q ∧ P b.c ∧ rel (grouped pp o.w.toNat x) b (cell after o.dst o.w.toNat x y) := by
  induction hn : px o.dst o.w.toNat x y using Nat.strong_induction_on generalizing x y with
  | _ n ih =>
    refine ⟨_, Block.all_ofFn _ _ fun dx dy _ _ _ _ => ?_, ?_, h.1 x y hi hc⟩
    · rcases seenPixel_cases o pp tail before after (callStart pp o.w.toNat x) y ((x : Int) + dx).toNat
        ((y : Int) + dy).toNat with hold | ⟨hi', hc', hbefore, hnew⟩
      · rw [hold]
        exact hPQ _ (hsrc _ _ (by omega) (by omega))
      · rw [hnew]
        have := callStart_le pp o.w.toNat x hpp hi.1
        have hlt := (px_lt_iff o.dst o.w.toNat ((x : Int) + dx).toNat ((y : Int) + dy).toNat x y (by omega)
          (by omega)).2 (by omega)
        obtain ⟨b, hall, hcentre, hrel⟩ := ih _ (hn ▸ hlt) _ _ hi' hc' rfl
        exact hkeep _ b _ hall hcentre hrel
    · have := c_seenBlock o pp tail before after x y hpp hi.1
      exact this ▸ hsrc x y (by omega) (by omega)

/-- A filter that gives each channel by the nine-cell sum, and keeps a channel that is v in every source pixel
between lo and hi: the sum that the call of a cell finds. -/
theorem PassOutcome.exists_sum (c : Fin 4) (value : Bool → Nat → Nat)
    (hrel : ∀ g b q, rel g b q → (q.chan c).toNat = value g (b.sum c)) (v lo hi : Nat) (hlo : lo ≤ v) (hhi : v ≤ hi)
    (hsrc : ∀ x y, x ≤ o.w.toNat + 1 → y ≤ o.h.toNat + 1 → ((cell before o.src o.w.toNat x y).chan c).toNat = v)
    (hkeep : ∀ g n, 8 * lo + v ≤ n → n ≤ 8 * hi + v → lo ≤ value g n ∧ value g n ≤ hi)
    (x y : Nat) (hint : interior o.w.toNat o.h.toNat x y) (hc : covered pp tail o.w.toNat x = true) :
    ∃ n, 8 * lo + v ≤ n ∧ n ≤ 8 * hi + v ∧
      ((cell after o.dst o.w.toNat x y).chan c).toNat = value (grouped pp o.w.toNat x) n := by
  have sum (b : Block) (hall : b.All fun q => lo ≤ (q.chan c).toNat ∧ (q.chan c).toNat ≤ hi)
      (hcentre : (b.c.chan c).toNat = v) := hcentre ▸ b.sum_bounds c lo hi hall
  obtain ⟨b, hall, hcentre, hcell⟩ := h.exists_block hpp (fun q => (q.chan c).toNat = v)
    (fun q => lo ≤ (q.chan c).toNat ∧ (q.chan c).toNat ≤ hi) hsrc (fun q hq => by omega)
    (fun g b q hall hcentre hq => by
      obtain ⟨hmin, hmax⟩ := sum b hall hcentre
      exact hrel g b q hq ▸ hkeep g _ hmin hmax) x y hint hc
  obtain ⟨hmin, hmax⟩ := sum b hall hcentre
  exact ⟨_, hmin, hmax, hrel _ b _ hcell⟩

/-- A filter that gives v for nine times v leaves a uniform image as it is. -/
theorem PassOutcome.cell_eq_of_uniform (value : Bool → Nat → Nat)
    (hrel : ∀ g b q (c : Fin 4), rel g b q → (q.chan c).toNat = value g (b.sum c)) (p : Pixel)
    (hsrc : ∀ x y, x ≤ o.w.toNat + 1 → y ≤ o.h.toNat + 1 → cell before o.src o.w.toNat x y = p)
    (hvalue : ∀ g v, v < 256 → value g (9 * v) = v)
    (x y : Nat) (hint : interior o.w.toNat o.h.toNat x y) (hc : covered pp tail o.w.toNat x = true) :
    cell after o.dst o.w.toNat x y = p := by
  refine Pixel.ext_chan _ _ fun c => BitVec.eq_of_toNat_eq ?_
  have hnine (g : Bool) (n : Nat) (hmin : 8 * (p.chan c).toNat + (p.chan c).toNat ≤ n)
      (hmax : n ≤ 8 * (p.chan c).toNat + (p.chan c).toNat) : value g n = (p.chan c).toNat := by
    rw [show n = 9 * (p.chan c).toNat by omega]
    exact hvalue g _ (p.chan c).isLt
  obtain ⟨n, hmin, hmax, hcell⟩ := h.exists_sum hpp c value (fun g b q => hrel g b q c) _ _ _ le_rfl le_rfl
    (fun x y hx hy => by rw [hsrc x y hx hy])
    (fun g n hmin hmax => ⟨(hnine g n hmin hmax).ge, (hnine g n hmin hmax).le⟩) x y hint hc
  rw [hcell, hnine _ n hmin hmax]

end Along

/-! ## The blurred channel by the sum -/

/-- A channel of a cell that VBLUR writes, by its nine-cell sum: in a group (R190), and in a tail column (R163). -/
def vblurChan (r : Config.Reciprocal) (g : Bool) (n : Nat) : Nat := if g then n * r.value / 65536 else n / 9

theorem toNat_chan_vblur (r : Config.Reciprocal) (g : Bool) (b : Block) (c : Fin 4) :
    ((if g then blurV r b else blurS b).chan c).toNat = vblurChan r g (b.sum c) := by
  cases g with
  | false => exact toNat_chan_blurS b c
  | true => exact toNat_chan_blurV r b c

theorem vblurChan_7282_uniform (g : Bool) (v : Nat) (hv : v < 256) : vblurChan .r7282 g (9 * v) = v := by
  cases g with
  | false => exact Nat.mul_div_cancel_left v (by decide)
  | true =>
    change 9 * v * 7282 / 65536 = v
    omega

/-- With 7281 a sum of 9v, less at most one for each neighbour, gives v - 1. -/
theorem vblurChan_7281_group (v n : Nat) (hv : v < 256) (hmin : 8 * (v - 1) + v ≤ n) (hmax : n ≤ 8 * v + v) :
    vblurChan .r7281 true n = v - 1 := by
  change n * 7281 / 65536 = v - 1
  omega

theorem vblurChan_7281_bounds (g : Bool) (v n : Nat) (hv : v < 256) (hmin : 8 * (v - 1) + v ≤ n)
    (hmax : n ≤ 8 * v + v) : v - 1 ≤ vblurChan .r7281 g n ∧ vblurChan .r7281 g n ≤ v := by
  cases g with
  | false =>
    change v - 1 ≤ n / 9 ∧ n / 9 ≤ v
    omega
  | true =>
    rw [vblurChan_7281_group v n hv hmin hmax]
    omega

/-! ## The statement -/

theorem passOutcome_of_exec_vblur {o : Operands} {s t : State} {tail : Bool} (hb : s.state ≠ .busy)
    (hw : (Instr.vblur tail o).wellFormed = true) (he : errorOf s.params.memBytes (.vblur tail o) = none)
    (h : exec (.vblur tail o) s = .next t) :
    PassOutcome o 2 tail (fun g b q => q = if g then blurV s.params.recip9 b else blurS b) s.mem t.mem :=
  (kernelPass_vector s.params .blur tail o).outcome_of_exec (groupComputes_vblur _ _) hw hb he h

/-- Settles O38: SBLUR and VBLUR with 7282 give v for nine times v, SSHARP the colour of a block of one colour; with
7281 what a call sees is v or v - 1 around a centre of v. -/
theorem uniformImagesUnderTheKernels : Obligations.UniformImagesUnderTheKernels := by
  intro o s p hb huniform
  refine ⟨fun t hw he h x y hi => ?_, fun t hw he h x y hi => ?_, fun tail t hw he hr h => ?_,
    fun tail t hw he hr h x y hi hg c => ?_⟩
  · exact (passOutcome_of_exec_scalar hb .blur hw he h).cell_eq_of_uniform Nat.one_pos (fun _ n => n / 9)
      (fun _ b q c hq => hq ▸ toNat_chan_blurS b c) p huniform (fun _ v _ => Nat.mul_div_cancel_left v (by decide))
      x y hi (covered_one _ hi.2.1)
  · obtain ⟨b, hall, -, hcell⟩ := (passOutcome_of_exec_scalar hb .sharp hw he h).exists_block Nat.one_pos
      (fun q => q.b = p.b ∧ q.g = p.g ∧ q.r = p.r) _ (fun x y hx hy => huniform x y hx hy ▸ ⟨rfl, rfl, rfl⟩)
      (fun _ hq => hq) (fun _ b q hall _ hq => by
        rw [hq, scalarPixel, sharpS_of_all b p hall]
        exact ⟨rfl, rfl, rfl⟩) x y hi (covered_one _ hi.2.1)
    exact hcell.trans (sharpS_of_all b p hall)
  · exact (passOutcome_of_exec_vblur hb hw he h).cell_eq_of_uniform Nat.two_pos (vblurChan .r7282)
      (fun g b q c hq => by rw [hq, hr, toNat_chan_vblur]) p huniform vblurChan_7282_uniform
  · have hv := (p.chan c).isLt
    obtain ⟨n, hmin, hmax, hcell⟩ := (passOutcome_of_exec_vblur hb hw he h).exists_sum Nat.two_pos c
      (vblurChan .r7281) (fun g b q hq => by rw [hq, hr, toNat_chan_vblur]) (p.chan c).toNat ((p.chan c).toNat - 1)
      (p.chan c).toNat (Nat.sub_le _ 1) le_rfl (fun x y hx hy => by rw [huniform x y hx hy])
      (fun g n => vblurChan_7281_bounds g _ n hv) x y hi (by simp [covered, hg])
    rw [hcell, hg, vblurChan_7281_group _ n hv hmin hmax]

end Sys2Proof.Machine
end

section
/-! The bytes of a vector call as pixels (43_vector_kernels.md R183): a lane program gives the bytes of certain pixels
exactly when the call leaves those pixels in its cells, and with that O43. -/

namespace Sys2Proof.Machine

/-! ## Runs of whole cells -/

theorem Memory.readBytes_add (m : Memory) (a n k : Nat) :
    m.readBytes a (n + k) = m.readBytes a n ++ m.readBytes (a + n) k := by
  simp [Memory.readBytes, List.range_add, Nat.add_assoc]

theorem bytes_readPix (m : Memory) (a : Nat) : (m.readPix a).bytes = m.readBytes a 4 := rfl

/-- A run of whole cells is the bytes of its cells. -/
theorem readBytes_cells (m : Memory) (base w x y n : Nat) :
    m.readBytes (px base w x y) (4 * n) = (List.range n).flatMap fun j => (cell m base w (x + j) y).bytes := by
  induction n with
  | zero => rfl
  | succ n ih =>
    rw [Nat.mul_succ, Memory.readBytes_add, ih, List.range_succ, List.flatMap_append, List.flatMap_singleton, cell,
      bytes_readPix, px_add]

theorem Pixel.bytes_inj {p q : Pixel} : p.bytes = q.bytes ↔ p = q := by
  obtain ⟨pb, pg, pr, pa⟩ := p
  obtain ⟨qb, qg, qr, qa⟩ := q
  simp [Pixel.bytes]

/-- Two runs of pixels have the same bytes when they are the same pixels. -/
theorem flatMap_bytes_inj (n : Nat) (f g : Nat → Pixel) :
    ((List.range n).flatMap fun j => (f j).bytes) = ((List.range n).flatMap fun j => (g j).bytes) ↔
      ∀ j, j < n → f j = g j := by
  induction n with
  | zero => simp
  | succ n ih =>
    simp only [List.range_succ, List.flatMap_append, List.flatMap_singleton, Nat.lt_succ_iff_lt_or_eq, or_imp,
      forall_and, forall_eq]
    rw [← ih, ← Pixel.bytes_inj]
    exact ⟨fun h => List.append_inj' h rfl, fun ⟨hinit, hlast⟩ => by rw [hinit, hlast]⟩

/-! ## The cells of a vector call -/

/-- The bytes of a vector call are those of the cells that it leaves. -/
theorem vectorBytes_eq_cells (p : Config.Params) (d : DescRegs) (k : Kernel) (x y : Nat) (m : Memory) :
    vectorBytes p d k x y m = (List.range (pixelsPerCall p k)).flatMap fun j =>
      (cell ((Call.vcall k x y).run p d m) d.dst d.w (x + j) y).bytes := by
  have hread := Memory.readBytes_writeBytes_same m (px d.dst d.w x y) (vectorBytes p d k x y m)
  rw [length_vectorBytes, readBytes_cells] at hread
  exact hread.symm

/-- A lane program gives pixels g exactly when the call leaves them in its cells. -/
theorem vectorBytes_eq_iff (p : Config.Params) (d : DescRegs) (k : Kernel) (x y : Nat) (m : Memory)
    (g : Nat → Pixel) :
    (vectorBytes p d k x y m = (List.range (pixelsPerCall p k)).flatMap fun j => (g j).bytes) ↔
      ∀ j, j < pixelsPerCall p k → cell ((Call.vcall k x y).run p d m) d.dst d.w (x + j) y = g j := by
  rw [vectorBytes_eq_cells, flatMap_bytes_inj]

/-- A vector call whose cells are the pixel f of their blocks writes the bytes of those pixels. -/
theorem GroupComputes.vectorBytes_eq {p : Config.Params} {d : DescRegs} {k : Kernel} {f : Block → Pixel}
    (hf : GroupComputes p d (.vcall k) (pixelsPerCall p k) f) (x y : Nat) (m : Memory) (hx : 1 ≤ x) (hy : 1 ≤ y) :
    vectorBytes p d k x y m =
      (List.range (pixelsPerCall p k)).flatMap fun j => (f (sourceBlock d (x + j) y m)).bytes :=
  (vectorBytes_eq_iff p d k x y m _).2 fun j hj => hf x y j m hx hy hj

/-- Settles O43, from the cells that a call of VBLUR leaves. -/
theorem blurLanesAreTheClosedForm : Obligations.BlurLanesAreTheClosedForm :=
  fun p d x y m => (groupComputes_vblur p d).vectorBytes_eq (k := .blur) x y m

end Sys2Proof.Machine
end

section
/-! VGRAY's lane program (43_vector_kernels.md R182, R192, R193, R197): primitive by primitive, the weighted sums, the
lumas and the bytes of the four pixels, and with that O44. -/

namespace Sys2Proof.Machine

/-- `gray_v`. -/
def grayV (ga : Config.GrayAlpha) (p : Pixel) : Pixel :=
  { grayS p with a := if ga = .force255 then 255 else p.a }

theorem grayV_preserve (p : Pixel) : grayV .preserve p = grayS p := rfl

theorem lumaSum_le (p : Pixel) : lumaSum p ≤ 128 * 255 := by
  unfold lumaSum Config.lumaB Config.lumaG Config.lumaR
  omega

/-- A widened byte is not negative as a signed lane. -/
theorem toInt_zeroExtend (b : Byte) : (b.zeroExtend 16).toInt = b.toNat := by
  have := b.isLt
  rw [BitVec.toInt_eq_toNat_of_lt] <;> rw [BitVec.toNat_setWidth, Nat.mod_eq_of_lt (by omega)]
  omega

/-- `madd16` and `hadd32` on two pixels: their weighted sums. -/
theorem pairSums32_madd16_kLuma (v : Config.VectorWidth) (p q : Pixel) :
    pairSums32 (madd16 (widen8 (p.bytes ++ q.bytes)) (kLuma v)) =
      [BitVec.ofNat 32 (lumaSum p), BitVec.ofNat 32 (lumaSum q)] := by
  have lane (b g r a : Int) : BitVec.ofInt 32
      ((BitVec.ofInt 32 (b * 9 + g * 92)).toInt + (BitVec.ofInt 32 (r * 27 + a * 0)).toInt) =
        BitVec.ofInt 32 (9 * b + 92 * g + 27 * r) := by
    rw [BitVec.ofInt_add, BitVec.ofInt_toInt, BitVec.ofInt_toInt, ← BitVec.ofInt_add]
    exact congrArg (BitVec.ofInt 32) (by ring)
  rw [kLuma_eq]
  simp only [Pixel.bytes, List.cons_append, List.nil_append, widen8, List.map, madd16, pairSums32, toInt_zeroExtend,
    BitVec.reduceToInt, lane, ← BitVec.ofInt_natCast, lumaSum]
  rfl

/-- An arithmetic shift of lanes that are not negative is a division. -/
theorem sra32_map {α : Type} (l : List α) (f : α → Nat) (k : Nat) (hf : ∀ a, f a < 2 ^ 31) :
    sra32 (l.map fun a => BitVec.ofNat 32 (f a)) k = l.map fun a => BitVec.ofNat 32 (f a / 2 ^ k) := by
  rw [sra32, List.map_map]
  refine List.map_congr_left fun a _ => ?_
  have := hf a
  rw [Function.comp_apply, ← BitVec.ofInt_natCast, BitVec.toInt_ofInt_eq_self (by decide) (by omega) (by omega),
    Int.fdiv_eq_ediv_of_nonneg _ (by positivity), ← BitVec.ofInt_natCast]
  norm_cast

/-- `packs32` keeps lanes that are not negative and fit 16 bits. -/
theorem packs32_map {α : Type} (l l' : List α) (f : α → Nat) (hf : ∀ a, f a < 2 ^ 15) :
    packs32 (l.map fun a => BitVec.ofNat 32 (f a)) (l'.map fun a => BitVec.ofNat 32 (f a)) =
      (l ++ l').map fun a => BitVec.ofNat 16 (f a) := by
  rw [packs32, ← List.map_append, List.map_map]
  refine List.map_congr_left fun a _ => ?_
  have := hf a
  rw [Function.comp_apply, ← BitVec.ofInt_natCast, BitVec.toInt_ofInt_eq_self (by decide) (by omega) (by omega),
    clamp_of_range _ _ _ (by omega) (by omega), BitVec.ofInt_natCast]

/-- `packus16` keeps lanes that fit a byte. -/
theorem packus16_map {α : Type} (l l' : List α) (f : α → Nat) (hf : ∀ a, f a < 256) :
    packus16 (l.map fun a => BitVec.ofNat 16 (f a)) (l'.map fun a => BitVec.ofNat 16 (f a)) =
      (l ++ l').map fun a => BitVec.ofNat 8 (f a) := by
  rw [packus16, ← List.map_append, List.map_map]
  exact List.map_congr_left fun a _ => packus_lane_of_lt (hf a)

/-- The shift and the two packs on lanes of weighted sums: the lumas, since no lane saturates (R193). -/
theorem packus16_packs32_sra32 (ps : List Pixel) :
    let sh := sra32 (ps.map fun p => BitVec.ofNat 32 (lumaSum p)) Config.lumaShift
    let p16 := packs32 sh sh
    (packus16 p16 p16).take ps.length = ps.map fun p => (grayS p).b := by
  intro sh p16
  have hluma (p : Pixel) : lumaSum p / 2 ^ Config.lumaShift < 256 := by
    have := lumaSum_le p
    rw [Config.lumaShift]
    omega
  have hsh : sh = ps.map fun p => BitVec.ofNat 32 (lumaSum p / 2 ^ Config.lumaShift) :=
    sra32_map ps lumaSum _ fun p => (lumaSum_le p).trans_lt (by decide)
  rw [show p16 = _ from hsh ▸ packs32_map ps ps _ fun p => (hluma p).trans (by decide), packus16_map _ _ _ hluma,
    List.append_assoc, List.map_append, List.take_left' (by simp)]
  rfl

/-- A byte copied to the colour bytes of its pixel (R182). -/
theorem lanes32to8_repBgr (bs : List Byte) : lanes32to8 (repBgr bs) = bs.flatMap fun b => [b, b, b, 0] := by
  have lane (b r : Byte) (s q rest : Nat) (hsplit : b.toNat * 0x00010101 = 2 ^ s * q + rest) (hrest : rest < 2 ^ s)
      (hr : q % 2 ^ 8 = r.toNat) : (BitVec.ofNat 32 (b.toNat * 0x00010101)).extractLsb' s 8 = r := by
    have := b.isLt
    apply BitVec.eq_of_toNat_eq
    rw [BitVec.extractLsb'_toNat, BitVec.toNat_ofNat, Nat.mod_eq_of_lt (a := _ * _) (by omega),
      Nat.shiftRight_eq_div_pow, hsplit, Nat.mul_add_div (Nat.two_pow_pos s), Nat.div_eq_of_lt hrest, Nat.add_zero, hr]
  induction bs with
  | nil => rfl
  | cons b bs ih =>
    have := b.isLt
    rw [repBgr, List.map_cons, lanes32to8, List.flatMap_cons, ← repBgr, ih,
      lane b b 0 (0x00010101 * b.toNat) 0 (by omega) (by omega) (by omega),
      lane b b 8 (0x0101 * b.toNat) b.toNat (by omega) (by omega) (by omega),
      lane b b 16 b.toNat (0x0101 * b.toNat) (by omega) (by omega) (by omega),
      lane b 0 24 0 (0x00010101 * b.toNat) (by omega) (by omega) rfl]
    rfl

/-- The lane program of VGRAY gives `gray_v` of its four pixels. -/
theorem grayLanes_flatMap_bytes (v : Config.VectorWidth) (ga : Config.GrayAlpha) (f : Nat → Pixel) :
    grayLanes v ga ((List.range 4).flatMap fun j => (f j).bytes) =
      (List.range 4).flatMap fun j => (grayV ga (f j)).bytes := by
  have hlow : ((List.range 4).flatMap fun j => (f j).bytes).take 8 = (f 0).bytes ++ (f 1).bytes := rfl
  have hhigh : (((List.range 4).flatMap fun j => (f j).bytes).drop 8).take 8 = (f 2).bytes ++ (f 3).bytes := rfl
  have hsums : hadd32 (madd16 (widen8 ((f 0).bytes ++ (f 1).bytes)) (kLuma v))
      (madd16 (widen8 ((f 2).bytes ++ (f 3).bytes)) (kLuma v)) =
        [f 0, f 1, f 2, f 3].map fun p => BitVec.ofNat 32 (lumaSum p) := by
    rw [hadd32, pairSums32_madd16_kLuma, pairSums32_madd16_kLuma]
    rfl
  have hlumas := packus16_packs32_sra32 [f 0, f 1, f 2, f 3]
  have hkeep (b : Byte) : b &&& 255#8 = b := BitVec.and_allOnes
  simp only [grayLanes, Config.VectorWidth.lanes16_eq, hlow, hhigh, hsums]
  rw [show Config.pGray = [f 0, f 1, f 2, f 3].length from rfl, hlumas, lanes32to8_repBgr, kAlpha_eq]
  cases ga with
  | preserve => simp [or8, and8, Pixel.bytes, grayV, grayS, hkeep, List.range_succ]
  | force255 => simp [or8, Pixel.bytes, grayV, grayS, List.range_succ]

/-- Settles O44, pixel by pixel. -/
theorem grayLanesAreTheClosedForm : Obligations.GrayLanesAreTheClosedForm := by
  intro p d x y m
  simp only [vectorBytes, Config.VectorWidth.lanes8_eq]
  rw [show 16 = 4 * 4 from rfl, readBytes_cells, grayLanes_flatMap_bytes]
  rfl

/-- The centre of a neighbourhood. -/
@[simp] theorem c_sourceBlock (d : DescRegs) (x y : Nat) (m : Memory) :
    (sourceBlock d x y m).c = cell m d.src d.w x y := by
  simp [sourceBlock, Block.ofFn, cell]

theorem groupComputes_vgray (p : Config.Params) (d : DescRegs) :
    GroupComputes p d (.vcall .gray) 4 fun b => grayV p.grayAlpha b.c := by
  intro x y j m _ _ hj
  have hcells := (vectorBytes_eq_iff p d .gray x y m _).1 (grayLanesAreTheClosedForm p d x y m) j hj
  exact hcells.trans (congrArg (grayV p.grayAlpha) (c_sourceBlock d (x + j) y m).symm)

end Sys2Proof.Machine
end

section
/-! VSHARP's lane program (43_vector_kernels.md R182, R194, R195, R197): each lane is the clamped cross of its channel,
the alpha lanes 255, and with that O45. Vectors are written as functions of the lane's number. -/

namespace Sys2Proof.Machine

/-- `t` of R165 for one channel of a cross. -/
def crossDiff (c e s w n : Byte) : Int := 5 * (c.toNat : Int) - e.toNat - s.toNat - w.toNat - n.toNat

theorem widen8_map_range (n : Nat) (f : Nat → Byte) :
    widen8 ((List.range n).map f) = (List.range n).map fun j => BitVec.ofNat 16 (f j).toNat := by
  simp [widen8]

/-- Lanes multiply modulo 2^16. -/
theorem mullo16_map_range (n : Nat) (f g : Nat → Nat) :
    mullo16 ((List.range n).map fun j => BitVec.ofNat 16 (f j)) ((List.range n).map fun j => BitVec.ofNat 16 (g j)) =
      (List.range n).map fun j => BitVec.ofNat 16 (f j * g j) := by
  simp [mullo16, List.zipWith_map, List.zipWith_self, BitVec.ofNat_mul]

/-- Lanes subtract modulo 2^16. -/
theorem sub16_map_range (n : Nat) (f g : Nat → Nat) :
    sub16 ((List.range n).map fun j => BitVec.ofNat 16 (f j)) ((List.range n).map fun j => BitVec.ofNat 16 (g j)) =
      (List.range n).map fun j => BitVec.ofInt 16 (f j - g j) := by
  simp only [sub16, List.zipWith_map, List.zipWith_self]
  refine List.map_congr_left fun j _ => BitVec.eq_of_toNat_eq ?_
  simp only [BitVec.toNat_ofInt, BitVec.toNat_ofNat]
  omega

theorem sharpLanes_map_range (v : Config.VectorWidth) (k : Nat) (hk : k ≤ 16) (c e s w n : Nat → Byte) :
    sharpLanes v ((List.range k).map c) ((List.range k).map e) ((List.range k).map s) ((List.range k).map w)
        ((List.range k).map n) =
      (List.range k).map fun j =>
        BitVec.ofInt 8 (clamp (BitVec.ofInt 16 (crossDiff (c j) (e j) (s j) (w j) (n j))).toInt 0 255) |||
          if j % 4 = 3 then 255 else 0 := by
  have hfive : kFive k = (List.range k).map fun _ => BitVec.ofNat 16 5 := by
    simp [kFive, List.map_const', Config.sharpCenter]
  have halpha : kAlpha v = (List.range 16).map fun j => if j % 4 = 3 then 255 else 0 := by cases v; rfl
  simp only [sharpLanes, List.length_map, List.length_range, hfive, halpha, widen8_map_range, mullo16_map_range,
    add16_map_range, sub16_map_range]
  simp only [or8, packus16, List.map_append, List.take_zipWith, ← List.map_take, List.take_range, Nat.min_eq_left hk]
  rw [List.take_left' (by simp)]
  simp only [List.map_map, List.zipWith_map, List.zipWith_self, Function.comp_apply]
  refine List.map_congr_left fun j _ => ?_
  have hdiff : ((c j).toNat * 5 : Nat) - ((e j).toNat + (s j).toNat + ((w j).toNat + (n j).toNat) : Nat) =
      crossDiff (c j) (e j) (s j) (w j) (n j) := by
    unfold crossDiff
    omega
  rw [hdiff]

theorem cross_sourceBlock (d : DescRegs) (x y j : Nat) (m : Memory) (c : Fin 4) (hx : 1 ≤ x) (hy : 1 ≤ y) :
    let read := fun x' y' => m.read (px d.src d.w x' y' + (4 * j + c.val))
    (sourceBlock d (x + j) y m).cross c =
      crossDiff (read x y) (read (x + 1) y) (read x (y + 1)) (read (x - 1) y) (read x (y - 1)) := by
  intro read
  have hread (x' y' : Nat) : read x' y' = m.read (px d.src d.w (x' + j) y' + c) := by
    simp only [read, px_add, Nat.add_assoc]
  have west : (((x + j : Nat) : Int) + -1).toNat = x - 1 + j := by omega
  have here : (((x + j : Nat) : Int) + 0).toNat = x + j := by omega
  have east : (((x + j : Nat) : Int) + 1).toNat = x + 1 + j := by omega
  have north : ((y : Int) + -1).toNat = y - 1 := by omega
  have level : ((y : Int) + 0).toNat = y := by omega
  have south : ((y : Int) + 1).toNat = y + 1 := by omega
  simp only [Block.cross, sourceBlock, Block.ofFn, Memory.chan_readPix, west, here, east, north, level, south, hread]
  rfl

theorem Block.cross_range (b : Block) (c : Fin 4) : -1020 ≤ b.cross c ∧ b.cross c ≤ 1275 := by
  unfold Block.cross Config.sharpCenter
  omega

theorem groupComputes_vsharp (p : Config.Params) (d : DescRegs) :
    GroupComputes p d (.vcall .sharp) p.pSharp.pixels sharpS := by
  intro x y j m hx hy hj
  refine Pixel.ext_chan _ _ fun c => ?_
  have hwidth : 4 * p.pSharp.pixels ≤ 16 := by
    have := Config.SharpGroup.pixels_le p.pSharp
    omega
  rw [chan_cell_run_vcall p d .sharp x y j m c hj]
  simp only [vectorBytes, Memory.readBytes, Config.channels, sharpLanes_map_range _ _ hwidth, List.getElem_map,
    List.getElem_range, ← cross_sourceBlock d x y j m c hx hy]
  by_cases hc : c = 3
  · subst hc
    rw [if_pos (by simp)]
    exact BitVec.or_allOnes
  · obtain ⟨hmin, hmax⟩ := (sourceBlock d (x + j) y m).cross_range c
    rw [if_neg (by omega), chan_sharpS _ c hc, sharpChan, BitVec.toInt_ofInt_eq_self (by decide) (by omega) (by omega)]
    exact BitVec.or_zero

/-- Settles O45, from the cells that a call of VSHARP leaves. -/
theorem sharpLanesAreTheScalarSharpen : Obligations.SharpLanesAreTheScalarSharpen :=
  fun p d x y m => (groupComputes_vsharp p d).vectorBytes_eq (k := .sharp) x y m

end Sys2Proof.Machine
end

section
/-! The vector kernel commands (43_vector_kernels.md R184, R190 to R195): each pass gives its group cells the closed
form of its lane program and its tail columns the scalar pixel, with that O40, O41 and O42; and against the scalar
commands, O46 and O47. -/

namespace Sys2Proof.Machine

/-! ## A vector command beside its scalar command -/

/-- A vector command and its scalar command pass the same checks (20_memory.md R54, 40_command_lifecycle.md R110). -/
theorem vectorCommand_checks (k : Kernel) (tail : Bool) (o : Operands) (memBytes : Nat) :
    (vectorCommand k tail o).wellFormed = (scalarCommand k o).wellFormed ∧
      errorOf memBytes (vectorCommand k tail o) = errorOf memBytes (scalarCommand k o) := by
  cases k <;> exact ⟨rfl, rfl⟩

section Accepted

variable {o : Operands} {s t : State} {tail : Bool} (hb : s.state ≠ .busy)
include hb

theorem passOutcome_of_exec_vgray (hw : (Instr.vgray tail o).wellFormed = true)
    (he : errorOf s.params.memBytes (.vgray tail o) = none) (h : exec (.vgray tail o) s = .next t) :
    PassOutcome o 4 tail (fun g b q => q = if g then grayV s.params.grayAlpha b.c else grayS b.c) s.mem t.mem :=
  (kernelPass_vector s.params .gray tail o).outcome_of_exec (groupComputes_vgray _ _) hw hb he h

theorem passOutcome_of_exec_vsharp (hw : (Instr.vsharp tail o).wellFormed = true)
    (he : errorOf s.params.memBytes (.vsharp tail o) = none) (h : exec (.vsharp tail o) s = .next t) :
    PassOutcome o s.params.pSharp.pixels tail (fun _ b q => q = sharpS b) s.mem t.mem :=
  ((kernelPass_vector s.params .sharp tail o).outcome_of_exec (groupComputes_vsharp _ _) hw hb he h).imp
    fun _ _ _ hq => hq.trans (ite_self _)

end Accepted

/-! ## What the commands write -/

/-- Settles O40: the sum by the reciprocal, and the sum by 9, fit a byte. -/
theorem vblurMultipliesByTheReciprocal : Obligations.VblurMultipliesByTheReciprocal := by
  intro tail o s hw hb he
  have h := exec_eq_doneState _ s hw hb he
  exact ⟨_, h, (passOutcome_of_exec_vblur hb hw he h).imp fun g b q hq c => hq ▸ toNat_chan_vblur _ g b c⟩

/-- Settles O41: the luma fits a byte; a group takes its alpha by the mode, a tail column keeps it. -/
theorem vgrayWritesTheLuma : Obligations.VgrayWritesTheLuma := by
  intro tail o s hw hb he
  have h := exec_eq_doneState _ s hw hb he
  refine ⟨_, h, (passOutcome_of_exec_vgray hb hw he h).imp ?_⟩
  rintro g b _ rfl
  cases g with
  | false => exact ⟨toNat_b_grayS b.c, rfl, rfl, rfl⟩
  | true => exact ⟨toNat_b_grayS b.c, rfl, rfl, by simp [grayV]⟩

/-- `sharp_s` is opaque, its colours the clamped cross (R165). -/
theorem sharpS_spec (b : Block) : (sharpS b).a = 255 ∧ ∀ c : Fin 4, c ≠ 3 → (((sharpS b).chan c).toNat : Int) =
    max 0 (min 255 (b.cross c)) :=
  ⟨rfl, fun c hc => by rw [chan_sharpS b c hc, toNat_sharpChan]⟩

/-- Settles O42: group and tail columns alike get `sharp_s`. -/
theorem vsharpClampsTheCross : Obligations.VsharpClampsTheCross := by
  intro tail o s hw hb he
  have h := exec_eq_doneState _ s hw hb he
  exact ⟨_, h, (passOutcome_of_exec_vsharp hb hw he h).imp fun _ b q hq => hq ▸ sharpS_spec b⟩

/-! ## VBLUR beside SBLUR (R191) -/

/-- Between disjoint buffers a call sees the block of the source as it was. -/
theorem seenBlock_of_disjoint {o : Operands} (pp : Nat) (tail : Bool) (before after : Memory) (x y : Nat)
    (h : o.src ≠ o.dst) : seenBlock o pp tail before after x y = Block.ofFn fun dx dy =>
      cell before o.src o.w.toNat ((x : Int) + dx).toNat ((y : Int) + dy).toNat :=
  Block.ofFn_congr _ _ fun _ _ _ _ _ _ => if_neg fun hseen => h hseen.1

/-- With 7282 the reciprocal is exact on every nine-cell sum. -/
theorem vblurChan_7282 (g : Bool) {n : Nat} (hn : n ≤ 9 * 255) : vblurChan .r7282 g n = n / 9 := by
  cases g with
  | false => rfl
  | true =>
    change n * 7282 / 65536 = n / 9
    omega

/-- With 7281 a group's channel is one less when the sum is a positive multiple of 9. -/
theorem vblurChan_7281 (g : Bool) {n : Nat} (hn : n ≤ 9 * 255) :
    vblurChan .r7281 g n = if g = true ∧ 0 < n ∧ n % 9 = 0 then n / 9 - 1 else n / 9 := by
  cases g with
  | false => rfl
  | true =>
    change n * 7281 / 65536 = _
    simp only [true_and]
    split <;> omega

/-- Settles O46: both passes see the block of the source as it was, whose sum they divide by 9 and multiply by the
reciprocal. -/
theorem vblurIsWithinOneOfSblur : Obligations.VblurIsWithinOneOfSblur := by
  intro tail o s t u hw hb he hne h h' x y hi hc c sv vv sum
  obtain ⟨hw', he'⟩ := vectorCommand_checks .blur tail o s.params.memBytes
  have hsum : sum ≤ 9 * 255 := Block.sum_le _ c
  have hs : sv = sum / 9 := by
    have hcell := (passOutcome_of_exec_scalar hb .blur hw he h).1 x y hi (covered_one _ hi.2.1)
    rw [seenBlock_of_disjoint _ _ _ _ _ _ hne] at hcell
    exact (congrArg (fun q => (q.chan c).toNat) hcell).trans (toNat_chan_blurS _ c)
  have hv : vv = vblurChan s.params.recip9 (grouped 2 o.w.toNat x) sum := by
    have hcell := (passOutcome_of_exec_vblur hb (hw'.trans hw) (he'.trans he) h').1 x y hi hc
    rw [seenBlock_of_disjoint _ _ _ _ _ _ hne] at hcell
    exact (congrArg (fun q => (q.chan c).toNat) hcell).trans (toNat_chan_vblur _ _ _ c)
  cases hr : s.params.recip9 with
  | r7281 =>
    rw [hr, vblurChan_7281 _ hsum, ← hs] at hv
    refine ⟨fun hr' => absurd hr' (by decide), fun _ => hv, ?_⟩
    split at hv <;> omega
  | r7282 =>
    rw [hr, vblurChan_7282 _ hsum, ← hs] at hv
    exact ⟨fun _ => hv, fun hr' => absurd hr' (by decide), hv.le, by omega⟩

/-! ## VGRAY beside SGRAY (R193) -/

/-- VGRAY.T under PRESERVE makes each interior cell the gray of the source cell as it was, in place or not. -/
theorem cell_of_exec_vgray_preserve {o : Operands} {s t : State} (hb : s.state ≠ .busy)
    (hw : (Instr.vgray true o).wellFormed = true) (he : errorOf s.params.memBytes (.vgray true o) = none)
    (hga : s.params.grayAlpha = .preserve) (h : exec (.vgray true o) s = .next t) (x y : Nat)
    (hi : interior o.w.toNat o.h.toNat x y) :
    cell t.mem o.dst o.w.toNat x y = grayS (cell s.mem o.src o.w.toNat x y) := by
  have hcell := (passOutcome_of_exec_vgray hb hw he h).1 x y hi rfl
  rw [hga, grayV_preserve, ite_self, c_seenBlock _ _ _ _ _ _ _ (by decide) hi.1] at hcell
  exact hcell

/-- Settles O47: every interior cell is the gray of the same source cell, and neither pass writes anything else. -/
theorem vgrayEqualsSgrayUnderPreserve : Obligations.VgrayEqualsSgrayUnderPreserve := by
  intro o s t u hw hb he hga h h' a
  obtain ⟨hw', he'⟩ := vectorCommand_checks .gray true o s.params.memBytes
  by_cases ha : ∃ x y, interior o.w.toNat o.h.toNat x y ∧ inCell o.dst o.w.toNat x y a
  · obtain ⟨x, y, hi, hfrom, hto⟩ := ha
    have hcell := (cell_of_exec_vgray_preserve hb (hw'.trans hw) (he'.trans he) hga h' x y hi).trans
      (cell_of_exec_sgray hb hw he h x y hi).symm
    obtain ⟨n, rfl⟩ := Nat.exists_eq_add_of_le hfrom
    exact Memory.read_eq_of_readPix_eq hcell n (by omega)
  · have hnone (x y : Nat) (hi : interior o.w.toNat o.h.toNat x y) : ¬ inCell o.dst o.w.toNat x y a :=
      fun hcell => ha ⟨x, y, hi, hcell⟩
    rw [(passOutcome_of_exec_vgray hb (hw'.trans hw) (he'.trans he) h').2 a fun x y hi _ => hnone x y hi,
      (passOutcome_of_exec_scalar hb .gray hw he h).2 a fun x y hi _ => hnone x y hi]

end Sys2Proof.Machine
end

section
/-! Two commands that differ in the control word alone (43_vector_kernels.md R184, R195; 40_command_lifecycle.md R117,
R118): what their calls do depends on the other registers, so equal call lists give equal memories, with that O48 and
O49. -/

namespace Sys2Proof.Machine

/-! ## The control word -/

/-- The registers with CTL replaced. -/
def DescRegs.withCtl (d : DescRegs) (ctl : Word) : DescRegs := { d with ctl := ctl }

/-- Calls do not read CTL: the plan is chosen at ISSUE (R117). -/
theorem runCalls_withCtl (p : Config.Params) (d : DescRegs) (ctl : Word) (cs : List Call) (m : Memory) :
    runCalls p (d.withCtl ctl) cs m = runCalls p d cs m :=
  runCalls_congr_regs p _ _ cs m fun c _ => by cases c <;> rfl

theorem regsOf_vectorCommand (k : Kernel) (tail : Bool) (o : Operands) :
    regsOf (vectorCommand k tail o) = (regsOf (scalarCommand k o)).withCtl (vectorCommand k tail o).ctl := by
  cases k <;> rfl

/-! ## The memories that the kernel commands leave -/

section Accepted

variable {o : Operands} {s t : State} {k : Kernel} (hw : (scalarCommand k o).wellFormed = true) (hb : s.state ≠ .busy)
  (he : errorOf s.params.memBytes (scalarCommand k o) = none)
include hw hb he

theorem mem_of_exec_scalarCommand (h : exec (scalarCommand k o) s = .next t) :
    t.mem = runCalls s.params (regsOf (scalarCommand k o)) (scalarCalls k o.w.toNat o.h.toNat) s.mem := by
  rw [eq_doneState_of_exec hw hb he h]
  cases k <;> rfl

/-- A vector command runs its calls over the registers of its scalar command, CTL apart. -/
theorem eq_doneState_of_exec_vectorCommand {tail : Bool} (h : exec (vectorCommand k tail o) s = .next t) :
    t = doneState s (vectorCommand k tail o) (runCalls s.params (regsOf (scalarCommand k o))
      (vectorCalls k (pixelsPerCall s.params k) tail o.w.toNat o.h.toNat) s.mem) := by
  obtain ⟨hw', he'⟩ := vectorCommand_checks k tail o s.params.memBytes
  rw [eq_doneState_of_exec (hw'.trans hw) hb (he'.trans he) h, regsOf_vectorCommand, runCalls_withCtl]
  cases k <;> rfl

end Accepted

/-! ## Groups and tail columns (R184) -/

/-- Without tail columns the two modes have the same calls. -/
theorem vectorCalls_of_mod_eq_zero (k : Kernel) (pp : Nat) (tail : Bool) (w h : Nat) (hmod : w % pp = 0) :
    vectorCalls k pp tail w h = vectorCalls k pp false w h := by
  simp [vectorCalls, vectorRow, hmod]

/-- Without groups TAIL = 0 has no call. -/
theorem vectorCalls_of_lt (k : Kernel) (pp w h : Nat) (hlt : w < pp) : vectorCalls k pp false w h = [] := by
  simp [vectorCalls, vectorRow, Nat.div_eq_of_lt hlt]

/-- Without groups TAIL = 1 has the calls of the scalar command. -/
theorem vectorCalls_tail_of_lt (k : Kernel) (pp w h : Nat) (hlt : w < pp) :
    vectorCalls k pp true w h = scalarCalls k w h := by
  simp [vectorCalls, vectorRow, scalarCalls, Nat.div_eq_of_lt hlt, Nat.mod_eq_of_lt hlt, Nat.add_comm]

theorem callCount_vectorCommand (p : Config.Params) (k : Kernel) (tail : Bool) (o : Operands) :
    callCount p (vectorCommand k tail o) = (vectorCalls k (pixelsPerCall p k) tail o.w.toNat o.h.toNat).length := by
  cases k <;> exact (length_calls p _).symm

/-- Settles O49, from the call lists. -/
theorem tailModesAgreeAndDegenerate : Obligations.TailModesAgreeAndDegenerate := by
  intro o s v sc pp hcommand hw hb he t0 t1 t2 h0 h1 h2
  obtain ⟨k, rfl, rfl, rfl⟩ :
      ∃ k, v = vectorCommand k ∧ sc = scalarCommand k ∧ pp = pixelsPerCall s.params k := by
    rcases hcommand with ⟨rfl, rfl, rfl⟩ | ⟨rfl, rfl, rfl⟩ | ⟨rfl, rfl, rfl⟩
    · exact ⟨.blur, rfl, rfl, rfl⟩
    · exact ⟨.gray, rfl, rfl, rfl⟩
    · exact ⟨.sharp, rfl, rfl, rfl⟩
  have hw : (scalarCommand k o).wellFormed = true := by cases k <;> exact hw
  rw [eq_doneState_of_exec_vectorCommand hw hb he h0, eq_doneState_of_exec_vectorCommand hw hb he h1,
    mem_of_exec_scalarCommand hw hb he h2]
  constructor
  · intro hmod
    rw [vectorCalls_of_mod_eq_zero k _ true _ _ hmod]
    rfl
  · intro hlt
    rw [vectorCalls_of_lt k _ _ _ hlt, vectorCalls_tail_of_lt k _ _ _ hlt]
    refine ⟨rfl, rfl, ?_, rfl⟩
    rw [doneState, callCount_vectorCommand, vectorCalls_of_lt k _ _ _ hlt]
    rfl

/-! ## Groups of one pixel (R195) -/

/-- The scalar call of the cell at which a vector call begins. -/
def Call.toScalar : Call → Call
  | .vcall k x y => .scall k x y
  | c => c

theorem map_toScalar_vectorCalls (k : Kernel) (tail : Bool) (w h : Nat) :
    (vectorCalls k 1 tail w h).map Call.toScalar = scalarCalls k w h := by
  simp [vectorCalls, vectorRow, scalarCalls, List.map_flatMap, Nat.mod_one, Nat.add_comm]
  rfl

theorem runCalls_map (p : Config.Params) (d : DescRegs) (f : Call → Call) (cs : List Call) (m : Memory)
    (h : ∀ c ∈ cs, (f c).run p d = c.run p d) : runCalls p d (cs.map f) m = runCalls p d cs m := by
  induction cs generalizing m with
  | nil => rfl
  | cons c cs ih =>
    rw [List.map_cons, runCalls, runCalls, h c (by simp)]
    exact ih _ fun c hc => h c (by simp [hc])

/-- With P = 1 a call of VSHARP is the call of SSHARP. -/
theorem run_toScalar_vsharp (p : Config.Params) (d : DescRegs) (x y : Nat) (hone : p.pSharp = .one) (hx : 1 ≤ x)
    (hy : 1 ≤ y) : (Call.scall .sharp x y).run p d = (Call.vcall .sharp x y).run p d := by
  funext m
  have hbytes := sharpLanesAreTheScalarSharpen p d x y m hx hy
  rw [hone] at hbytes
  rw [Call.run, Call.run, callVector, hbytes]
  rfl

/-- Settles O48: the call lists agree call by call, so the memories are equal. -/
theorem vsharpEqualsSsharpForGroupsOfOne : Obligations.VsharpEqualsSsharpForGroupsOfOne := by
  intro tail o s t u hw hb he hone h h' a
  have hpp : pixelsPerCall s.params .sharp = 1 := congrArg Config.SharpGroup.pixels hone
  rw [mem_of_exec_scalarCommand (k := .sharp) hw hb he h, eq_doneState_of_exec_vectorCommand (k := .sharp) hw hb he h',
    doneState_mem, hpp, ← map_toScalar_vectorCalls .sharp tail, runCalls_map]
  intro c hc
  obtain ⟨y, hy, -, ⟨g, -, rfl⟩ | ⟨-, n, -, rfl⟩⟩ := (mem_groupCalls _ _ _ _ _ _ c).1 hc
  · exact run_toScalar_vsharp _ _ _ y hone (Nat.le_add_right 1 _) hy
  · rfl

end Sys2Proof.Machine
end

section
/-! The completion signal (60_exceptions.md R226): IRQ is a function of STATE, so it moves only where STATE moves
(O26), with that O22. -/

namespace Sys2Proof.Machine

theorem State.irq_eq_true_iff (s : State) : s.irq = true ↔ s.state = .done ∨ s.state = .error := by
  cases h : s.state <;> simp [State.irq, h]

/-- An edge of IRQ is a move of STATE. -/
theorem State.state_ne_of_irq_ne {s t : State} (h : t.irq ≠ s.irq) : t.state ≠ s.state := fun hstate =>
  h (by rw [State.irq, State.irq, hstate])

/-- The rising edge: of the moves of STATE, those that end in DONE or ERROR. -/
theorem irq_rises (s t : State) (hstep : step s = .next t) (hlow : s.irq = false) (hhigh : t.irq = true) :
    (s.state = .busy ∧ t.state = .done) ∨
    (s.state ≠ .busy ∧ ∃ d rest, s.inbox = .issue d :: rest ∧ t.state = .error) ∨
    (s.state ≠ .busy ∧ ∃ d rest, s.inbox = .command d :: rest) := by
  obtain ⟨hfromBusy, hfromRest⟩ :=
    stateMovesAsTabulated s t hstep (State.state_ne_of_irq_ne (by simp [hlow, hhigh]))
  have hends := t.irq_eq_true_iff.1 hhigh
  by_cases hb : s.state = .busy
  · rcases hfromBusy hb with ⟨hdone, -, -⟩ | ⟨hidle, -⟩
    · exact .inl ⟨hb, hdone⟩
    · simp [hidle] at hends
  · rcases hfromRest hb with ⟨d, rest, hin, hbusy | herror⟩ | ⟨d, rest, hin, -⟩ | ⟨hidle, -⟩
    · simp [hbusy] at hends
    · exact .inr (.inl ⟨hb, d, rest, hin, herror⟩)
    · exact .inr (.inr ⟨hb, d, rest, hin⟩)
    · simp [hidle] at hends

/-- The falling edge: of the moves of STATE, those from DONE or ERROR to BUSY or IDLE. -/
theorem irq_falls (s t : State) (hstep : step s = .next t) (hhigh : s.irq = true) (hlow : t.irq = false) :
    (∃ d rest, s.inbox = .issue d :: rest ∧ t.state = .busy) ∨ ∃ rest, s.inbox = .reset :: rest := by
  obtain ⟨-, hfromRest⟩ := stateMovesAsTabulated s t hstep (State.state_ne_of_irq_ne (by simp [hlow, hhigh]))
  have hb : s.state ≠ .busy := by rcases s.irq_eq_true_iff.1 hhigh with h | h <;> simp [h]
  rcases hfromRest hb with ⟨d, rest, hin, hbusy | herror⟩ | ⟨d, rest, -, hended⟩ | ⟨-, rest, hin⟩
  · exact .inl ⟨d, rest, hin, hbusy⟩
  · simp [t.irq_eq_true_iff.2 (.inr herror)] at hlow
  · simp [t.irq_eq_true_iff.2 hended] at hlow
  · exact .inr ⟨rest, hin⟩

/-- Settles O22, from the moves of STATE that O26 allows. -/
theorem irqRisesAndFallsWithCommands : Obligations.IrqRisesAndFallsWithCommands :=
  ⟨State.irq_eq_true_iff, fun s t hstep => ⟨irq_rises s t hstep, irq_falls s t hstep⟩⟩

end Sys2Proof.Machine
end

section
/-! RESET while BUSY (70_reset_and_hazards.md R251): the registers as after any reset, and a free value in each byte
of the abandoned command's destination region. -/

namespace Sys2Proof.Machine

theorem DescRegs.dst_eq_of_decode (d : DescRegs) (i : Instr) (hd : decode d.toDescriptor = .ok i) :
    d.dst = i.operands.dst := by
  obtain ⟨-, -, -, -, hdst, -, -⟩ := regsOf_operands i (wellFormed_of_decode _ i hd)
  rw [DescRegs.eq_regsOf d i hd, hdst]

/-- Memory and the count of such resets apart, RESET while BUSY clears the registers as any reset does. -/
theorem hostReset_of_busy (s : State) (i : Instr) (hb : s.state = .busy) (hd : decode s.d.toDescriptor = .ok i) :
    hostReset s = { s.resetRegs with mem := (hostReset s).mem, freeCount := s.freeCount + 1 } := by
  rw [hostReset, if_pos hb, planOfRegs, hd]
  rfl

/-- Each byte of a run whose bytes are computed from their own addresses. -/
theorem Memory.read_writeBytes_addresses (m : Memory) (a n : Nat) (f : Nat → Byte) (x : Nat) :
    (m.writeBytes a ((List.range n).map fun k => f (a + k))).read x =
      if a ≤ x ∧ x < a + n then f x else m.read x := by
  rw [Memory.read_writeBytes, List.length_map, List.length_range]
  split
  · next hin =>
    have hk : x - a < n := by omega
    have hx : a + (x - a) = x := by omega
    simp [hk, hx]
  · rfl

/-- Settles O21: RESET writes one run of free bytes, over the destination region of the command that the latched
registers hold. -/
theorem resetWhileBusyLosesTheDestination : Obligations.ResetWhileBusyLosesTheDestination := by
  intro s i rest hin hb hd
  refine ⟨(hostReset { s with inbox := rest }).mem, ?_, fun a => ?_⟩
  · rw [step_of_reset s rest hin]
    exact congrArg _ (hostReset_of_busy { s with inbox := rest } i hb hd)
  · rw [hostReset_mem_of_busy { s with inbox := rest } i hb hd, Memory.read_writeBytes_addresses,
      DescRegs.dst_eq_of_decode s.d i hd]

end Sys2Proof.Machine
end
